-- ==== Sys2Proof/Word.lean ====
section
/-! DEFINITION. The bit vectors CORE carries on its ports: machine words, wide integers and request words
(spec 00_scope.md R5, R6; 30_encoding.md R38, R41). -/

namespace Sys2Proof

/-- A machine word of 64 bits: an interchange value or an int64 (R5). -/
abbrev Word := BitVec 64

/-- A wide unsigned integer of 128 bits, `hi ∥ lo` (R38), also a result on `rsp_r` (R16). -/
abbrev Wide := BitVec 128

/-- A request word of 132 bits, `op[3:0] ∥ b[63:0] ∥ a[63:0]` (R41). -/
abbrev RequestWord := BitVec 132

/-- A response word of 132 bits, `fatal ∥ fcode[2:0] ∥ r[127:0]` (R42). -/
abbrev ResponseWord := BitVec 132

end Sys2Proof
end

