-- ==== Sys2Proof/Syntax.lean ====
section
/-! DEFINITION. The functions of CORE as syntax: one constructor for each row of spec/opcode_table.json, the
internal calls, the logical values the functions work on, and the fatal conditions. -/

namespace Sys2Proof

/-- One request: a row of the opcode table with the two operand fields of the request word (R41). Every
constructor keeps both fields, also where its function ignores one (R44) or where the operands of the
function travel on internal ports instead (R43). -/
inductive Instr where
  /-- NEG, op code `0x0` (R85). -/
  | neg (b a : Word)
  /-- ADD, op code `0x1` (R86). -/
  | add (b a : Word)
  /-- SUB, op code `0x2` (R87). -/
  | sub (b a : Word)
  /-- MUL, op code `0x3` (R95). -/
  | mul (b a : Word)
  /-- DIV, op code `0x4` (R100). -/
  | div (b a : Word)
  /-- SQRT, op code `0x5` (R110). -/
  | sqrt (b a : Word)
  /-- I2D, op code `0x6` (R120). -/
  | i2d (b a : Word)
  /-- D2I, op code `0x7` (R122). -/
  | d2i (b a : Word)
  /-- DEC, op code `0x8` (R52). -/
  | dec (b a : Word)
  /-- ENC, op code `0x9` (R53). -/
  | enc (b a : Word)
  /-- WMUL, op code `0xA`: internal function, illegal on the request port (R60, R43). -/
  | wmul (b a : Word)
  /-- WDIV, op code `0xB`: internal function, illegal on the request port (R61, R43). -/
  | wdiv (b a : Word)
  /-- WCMP, op code `0xC`: internal function, illegal on the request port (R62, R43). -/
  | wcmp (b a : Word)
  /-- P10, op code `0xD`: internal function, illegal on the request port (R70, R43). -/
  | p10 (b a : Word)
  /-- The reserved op code `0xE` (R43). -/
  | reservedE (b a : Word)
  /-- The reserved op code `0xF` (R43). -/
  | reservedF (b a : Word)
  deriving DecidableEq, Repr

/-- The four functions that exist on internal ports only (R43). -/
inductive BlockFn where
  /-- WMUL of `wide_int_mult` (R60). -/
  | wmul
  /-- WDIV of `wide_int_div` (R61). -/
  | wdiv
  /-- WCMP of `wide_int_div` (R62). -/
  | wcmp
  /-- P10 of `powers_of_ten_lut` (R70). -/
  | p10
  deriving DecidableEq, Repr

/-- A call on the internal ports: the function, and how many of the transactions in flight are younger than
the one that makes the call, which R136 needs when the call meets a fatal condition. -/
structure BlockCall where
  fn : BlockFn
  younger : Nat
  deriving DecidableEq, Repr

/-- A logical value (R15). The sign is `true` for minus. Coefficient and exponent are unbounded here;
`LogicalValue.wellFormed` states the ranges. -/
inductive LogicalValue where
  /-- `Finite(s, c, e)`: `(-1)^s · c · 10^e`. -/
  | finite (sign : Bool) (coeff : Nat) (exp : Int)
  /-- `Inf(s)`. -/
  | inf (sign : Bool)
  /-- `NaN(s)`, the source's QuietNaN. -/
  | nan (sign : Bool)
  deriving DecidableEq, Repr

/-- The fatal conditions (R131). -/
inductive FatalCode where
  /-- `LUT_INDEX`, code 1: a table read with an index of 39 or more (R132). -/
  | lutIndex
  /-- `CODEC_INVARIANT`, code 2: an ill-formed value at the encoder (R133). -/
  | codecInvariant
  /-- `WDIV_ZERO`, code 3: a wide division by 0 (R134). -/
  | wdivZero
  /-- `ILLEGAL_OP`, code 4: an op code `0xA` to `0xF` on the request port (R135). -/
  | illegalOp
  deriving DecidableEq, Repr

end Sys2Proof
end

