-- ==== Sys2Proof/Decode.lean ====
section
/-! DEFINITION. Reading a request word and writing one (spec 30_encoding.md R41, R43). Decoding is total: each
of the sixteen op codes has its row, and bits beyond the 132 of the word are rejected by name. -/

namespace Sys2Proof

/-- The field `op = req[131:128]` (R41). -/
def requestOp (w : RequestWord) : BitVec 4 := w.extractLsb' 128 4

/-- The field `b = req[127:64]` (R41). -/
def requestB (w : RequestWord) : Word := w.extractLsb' 64 64

/-- The field `a = req[63:0]` (R41). -/
def requestA (w : RequestWord) : Word := w.extractLsb' 0 64

/-- The row of the opcode table a request word selects (R41, R43). Total: four bits, sixteen rows. -/
def decodeRequest (w : RequestWord) : Instr :=
  match (requestOp w).toNat with
  | 0 => .neg (requestB w) (requestA w)
  | 1 => .add (requestB w) (requestA w)
  | 2 => .sub (requestB w) (requestA w)
  | 3 => .mul (requestB w) (requestA w)
  | 4 => .div (requestB w) (requestA w)
  | 5 => .sqrt (requestB w) (requestA w)
  | 6 => .i2d (requestB w) (requestA w)
  | 7 => .d2i (requestB w) (requestA w)
  | 8 => .dec (requestB w) (requestA w)
  | 9 => .enc (requestB w) (requestA w)
  | 10 => .wmul (requestB w) (requestA w)
  | 11 => .wdiv (requestB w) (requestA w)
  | 12 => .wcmp (requestB w) (requestA w)
  | 13 => .p10 (requestB w) (requestA w)
  | 14 => .reservedE (requestB w) (requestA w)
  | _ => .reservedF (requestB w) (requestA w)

/-- Why a string of bits is no request word. -/
inductive DecodeReject where
  /-- A bit above `req[131]` is set: R41 knows one length, 132 bits. Safe. -/
  | bitsBeyondRequest
  deriving DecidableEq, Repr

/-- Decoding of any `nbits` bits, given as a number with `req[0]` as bit 0; absent bits are 0. Log 14. -/
def decodeBits (nbits w : Nat) : Except DecodeReject Instr :=
  if w % 2 ^ nbits < 2 ^ 132 then .ok (decodeRequest (BitVec.ofNat 132 (w % 2 ^ nbits)))
  else .error .bitsBeyondRequest

/-- The row the decoder reads from the bits of an opcode-table row, numbered as the table numbers them. -/
def decodeTableWord (nbits w : Nat) : Option Instr :=
  match decodeBits nbits w with
  | .ok i => some i
  | .error _ => none

/-- The op code of a request (R41). -/
def Instr.opcode : Instr → BitVec 4
  | .neg _ _ => 0x0#4
  | .add _ _ => 0x1#4
  | .sub _ _ => 0x2#4
  | .mul _ _ => 0x3#4
  | .div _ _ => 0x4#4
  | .sqrt _ _ => 0x5#4
  | .i2d _ _ => 0x6#4
  | .d2i _ _ => 0x7#4
  | .dec _ _ => 0x8#4
  | .enc _ _ => 0x9#4
  | .wmul _ _ => 0xA#4
  | .wdiv _ _ => 0xB#4
  | .wcmp _ _ => 0xC#4
  | .p10 _ _ => 0xD#4
  | .reservedE _ _ => 0xE#4
  | .reservedF _ _ => 0xF#4

/-- The operand field `b` of a request, `req[127:64]` (R41). -/
def Instr.fieldB : Instr → Word
  | .neg b _ | .add b _ | .sub b _ | .mul b _ | .div b _ | .sqrt b _ | .i2d b _ | .d2i b _ | .dec b _
  | .enc b _ | .wmul b _ | .wdiv b _ | .wcmp b _ | .p10 b _ | .reservedE b _ | .reservedF b _ => b

/-- The operand field `a` of a request, `req[63:0]` (R41). -/
def Instr.fieldA : Instr → Word
  | .neg _ a | .add _ a | .sub _ a | .mul _ a | .div _ a | .sqrt _ a | .i2d _ a | .d2i _ a | .dec _ a
  | .enc _ a | .wmul _ a | .wdiv _ a | .wcmp _ a | .p10 _ a | .reservedE _ a | .reservedF _ a => a

/-- The request word `op ∥ b ∥ a` of a request (R41). -/
def Instr.encode (i : Instr) : RequestWord := i.opcode ++ i.fieldB ++ i.fieldA

end Sys2Proof
end

