-- ==== Sys2Proof/Machine/Format.lean ====
section
/-! DEFINITION. The numbers of the decimal64 format and the integer functions every rule uses
(spec 00_scope.md R5, R6; 10_state.md R15; 42_pow10_lut.md R72). -/

namespace Sys2Proof.Machine

/-- `BIAS` (R5, R32). -/
def bias : Int := 398

/-- `EMIN`, the least exponent of a finite value (R5). -/
def eMin : Int := -398

/-- `EMAX`, the greatest exponent of a finite value (R5). -/
def eMax : Int := 369

/-- `P`, the precision in decimal digits (R5). -/
def precision : Nat := 16

/-- `CMAX`, the largest coefficient (R5). -/
def cMax : Nat := 9999999999999999

/-- `QNAN`, the distinguished QuietNaN constant (R5, R37, R78). -/
def qnan : Word := 0x7C00000000000000#64

/-- `clamp(e) = min(max(e, EMIN), EMAX)` (R6). -/
def clamp (e : Int) : Int := min (max e eMin) eMax

/-- `floor2(e)`: `e div 2` rounded toward minus infinity, which Lean's `/` on Int does for a positive divisor (R6). -/
def floor2 (e : Int) : Int := e / 2

/-- The greatest `r < 2^bits + acc`, built from the top bit down, that a downward closed test admits. -/
def searchBits (ok : Nat → Bool) : (bits acc : Nat) → Nat
  | 0, acc => acc
  | k + 1, acc => if ok (acc + 2 ^ k) then searchBits ok k (acc + 2 ^ k) else searchBits ok k acc

/-- `isqrt(n)`: the greatest `r` with `r·r ≤ n` (R6). R110: "How `isqrt` is computed ... is free". -/
def isqrt (n : Nat) : Nat := searchBits (fun r => decide (r * r ≤ n)) (Nat.log2 n + 1) 0

/-- `digits(n)`: the count of decimal digits, `digits(0) = 0` (R6). -/
def digits (n : Nat) : Nat :=
  if n = 0 then 0 else searchBits (fun d => decide (10 ^ d ≤ n)) (Nat.log2 (Nat.log2 n) + 1) 0 + 1

end Sys2Proof.Machine

namespace Sys2Proof

open Machine

/-- Well-formed logical values (R15): "`c ∈ [0, 10^16 − 1]`, `e ∈ [EMIN, EMAX]`"; Infinity and NaN always are. -/
def LogicalValue.isWellFormed : LogicalValue → Bool
  | .finite _ c e => decide (c ≤ cMax) && decide (eMin ≤ e) && decide (e ≤ eMax)
  | .inf _ => true
  | .nan _ => true

/-- The sign of a logical value (R15). -/
def LogicalValue.signOf : LogicalValue → Bool
  | .finite s _ _ => s
  | .inf s => s
  | .nan s => s

end Sys2Proof
end

