-- ==== Sys2Proof/Machine/Operands.lean ====
section
/-! DEFINITION. The operand and result forms of the request and response words (spec 00_scope.md R6;
30_encoding.md R38 to R41, R44). A decimal64 operand is read by `codecDecode` of Codec.lean. -/

namespace Sys2Proof.Machine

/-- The int64 operand form: `s64(a)` (R6, R40). -/
def int64Operand (a : Word) : Int := a.toInt

/-- The bundle operand form of ENC: `b ∥ a` (R41, R53). -/
def bundleOperand (b a : Word) : Wide := b ++ a

/-- The result form of 64 bits: "For a result narrower than 128 bits, `rsp_r[127:64] = 0`" (R41). -/
def narrowResult (w : Word) : Wide := 0#64 ++ w

/-- The int64 result form: the low 64 bits of the two's complement of an integer (R40). -/
def int64Result (i : Int) : Word := BitVec.ofInt 64 i

/-- The high word of a wide integer (R38). -/
def wideHi (x : Wide) : Word := x.extractLsb' 64 64

/-- The low word of a wide integer (R38). -/
def wideLo (x : Wide) : Word := x.extractLsb' 0 64

end Sys2Proof.Machine
end

