-- ==== Sys2Proof/Machine/Codec.lean ====
section
/-! DEFINITION. The codec (block decimal_codec): declets, `decode`, `encode`, and the operations DEC and ENC
(spec 30_encoding.md R30 to R37; 40_codec.md R50 to R54). -/

namespace Sys2Proof.Machine

/-- A digit 0 to 7 from its three low bits, `0 x y z` (R34). -/
def digitSmall (x y z : Bool) : Nat := 4 * x.toNat + 2 * y.toNat + z.toNat

/-- A digit 8 or 9, `1 0 0 z` (R34). -/
def digitLarge (z : Bool) : Nat := 8 + z.toNat

/-- The value of three digits (R34). -/
def threeDigits (d2 d1 d0 : Nat) : Nat := 100 * d2 + 10 * d1 + d0

/-- `dpd_dec` on the named bits `p q r s t u v w x y` of a declet: the rows of the table of R34. -/
def dpdDecBits (p q r s t u v w x y : Bool) : Nat :=
  match v, w, x, s, t with
  | false, _, _, _, _ => threeDigits (digitSmall p q r) (digitSmall s t u) (digitSmall w x y)
  | true, false, false, _, _ => threeDigits (digitSmall p q r) (digitSmall s t u) (digitLarge y)
  | true, false, true, _, _ => threeDigits (digitSmall p q r) (digitLarge u) (digitSmall s t y)
  | true, true, false, _, _ => threeDigits (digitLarge r) (digitSmall s t u) (digitSmall p q y)
  | true, true, true, false, false => threeDigits (digitLarge r) (digitLarge u) (digitSmall p q y)
  | true, true, true, false, true => threeDigits (digitLarge r) (digitSmall p q u) (digitLarge y)
  | true, true, true, true, false => threeDigits (digitSmall p q r) (digitLarge u) (digitLarge y)
  | true, true, true, true, true => threeDigits (digitLarge r) (digitLarge u) (digitLarge y)

/-- `dpd_dec`: the number 0..999 of a declet (R34). -/
def dpdDec (T : BitVec 10) : Nat :=
  dpdDecBits (T.getLsbD 9) (T.getLsbD 8) (T.getLsbD 7) (T.getLsbD 6) (T.getLsbD 5) (T.getLsbD 4)
    (T.getLsbD 3) (T.getLsbD 2) (T.getLsbD 1) (T.getLsbD 0)

/-- The declet with the bits `p q r s t u v w x y`, `p` the most significant (R34). -/
def declet (p q r s t u v w x y : Bool) : BitVec 10 :=
  BitVec.ofNat 10 (512 * p.toNat + 256 * q.toNat + 128 * r.toNat + 64 * s.toNat + 32 * t.toNat +
    16 * u.toNat + 8 * v.toNat + 4 * w.toNat + 2 * x.toNat + y.toNat)

/-- `dpd_enc` on the bits of the digits `a b c d`, `e f g h`, `i j k m`: the rows of the table of R35. -/
def dpdEncBits (a b c d e f g h i j k m : Bool) : BitVec 10 :=
  match a, e, i with
  | false, false, false => declet b c d f g h false j k m
  | false, false, true => declet b c d f g h true false false m
  | false, true, false => declet b c d j k h true false true m
  | true, false, false => declet j k d f g h true true false m
  | true, true, false => declet j k d false false h true true true m
  | true, false, true => declet f g d false true h true true true m
  | false, true, true => declet b c d true false h true true true m
  | true, true, true => declet false false d true true h true true true m

/-- `dpd_enc`: the canonical declet of a number below 1000 (R35). -/
def dpdEnc (n : Nat) : BitVec 10 :=
  let d2 := n / 100 % 10
  let d1 := n / 10 % 10
  let d0 := n % 10
  dpdEncBits (d2.testBit 3) (d2.testBit 2) (d2.testBit 1) (d2.testBit 0)
    (d1.testBit 3) (d1.testBit 2) (d1.testBit 1) (d1.testBit 0)
    (d0.testBit 3) (d0.testBit 2) (d0.testBit 1) (d0.testBit 0)

/-- The field `S` (R30). -/
def fieldS (v : Word) : Bool := v.getLsbD 63

/-- The combination field `G` (R30). -/
def fieldG (v : Word) : BitVec 5 := v.extractLsb' 58 5

/-- The exponent continuation `EC` (R30). -/
def fieldEC (v : Word) : BitVec 8 := v.extractLsb' 50 8

/-- The declet `T<i>` of the coefficient continuation, `T0` the least significant (R33). -/
def fieldT (v : Word) (i : Nat) : BitVec 10 := v.extractLsb' (10 * i) 10

/-- The combination field of NaN (R31). -/
def nanTag : BitVec 5 := 0b11111#5

/-- The combination field of Infinity (R31). -/
def infTag : BitVec 5 := 0b11110#5

/-- The second Finite row of R31: `G[4:3] = 11`, a leading digit 8 or 9. -/
def largeLead (G : BitVec 5) : Bool := G.extractLsb' 3 2 == 0b11#2

/-- `E[9:8]` of a Finite pattern (R31). -/
def exponentTop (G : BitVec 5) : BitVec 2 := if largeLead G then G.extractLsb' 1 2 else G.extractLsb' 3 2

/-- The leading digit `LD` of a Finite pattern (R31). -/
def leadingDigit (G : BitVec 5) : Nat :=
  if largeLead G then 8 + (G.extractLsb' 0 1).toNat else (G.extractLsb' 0 3).toNat

/-- The biased exponent `E[9:0] = E[9:8] ∥ EC` (R32). -/
def biasedExponent (v : Word) : BitVec 10 := exponentTop (fieldG v) ++ fieldEC v

/-- The coefficient of a Finite pattern (R33). -/
def coefficient (v : Word) : Nat :=
  leadingDigit (fieldG v) * 10 ^ 15 + dpdDec (fieldT v 4) * 10 ^ 12 + dpdDec (fieldT v 3) * 10 ^ 9 +
    dpdDec (fieldT v 2) * 10 ^ 6 + dpdDec (fieldT v 1) * 10 ^ 3 + dpdDec (fieldT v 0)

/-- `decode`: the logical value of a pattern, total (R50). "Decoding special patterns takes priority". -/
def codecDecode (v : Word) : LogicalValue :=
  if fieldG v = nanTag then .nan (fieldS v)
  else if fieldG v = infTag then .inf (fieldS v)
  else .finite (fieldS v) (coefficient v) ((biasedExponent v).toNat - bias)

/-- The combination field of a leading digit and the exponent bits `E[9:8]` (R51). -/
def combination (lead : Nat) (top : BitVec 2) : BitVec 5 :=
  if lead ≤ 7 then top ++ BitVec.ofNat 3 lead else 0b11#2 ++ top ++ BitVec.ofNat 1 lead

/-- The pattern of a Finite value with leading digit, biased exponent and the number of the 15 lower digits
(R51). -/
def packFinite (s : Bool) (E : BitVec 10) (lead rest : Nat) : Word :=
  BitVec.ofBool s ++ combination lead (E.extractLsb' 8 2) ++ E.extractLsb' 0 8 ++
    dpdEnc (rest / 10 ^ 12 % 1000) ++ dpdEnc (rest / 10 ^ 9 % 1000) ++ dpdEnc (rest / 10 ^ 6 % 1000) ++
    dpdEnc (rest / 10 ^ 3 % 1000) ++ dpdEnc (rest % 1000)

/-- `encode`: the canonical pattern of a well-formed logical value; "On an ill-formed value ... `encode` has
no result: `raise Fatal(CODEC_INVARIANT)`" (R51). -/
def codecEncode (x : LogicalValue) : Except FatalCode Word :=
  match x with
  | .nan s => .ok (BitVec.ofBool s ++ nanTag ++ 0#58)
  | .inf s => .ok (BitVec.ofBool s ++ infTag ++ 0#58)
  | .finite s c e =>
    if (LogicalValue.finite s c e).isWellFormed then
      .ok (packFinite s (BitVec.ofNat 10 (e + bias).toNat) (c / 10 ^ 15) (c % 10 ^ 15))
    else .error .codecInvariant

/-- The field `kind` of a bundle for each kind of logical value (R39). -/
def kindBits : LogicalValue → BitVec 2
  | .finite _ _ _ => 0b00#2
  | .inf _ => 0b01#2
  | .nan _ => 0b10#2

/-- The LV128 bundle of a logical value: coefficient and exponent 0 for Infinity and NaN, reserved bits 0
(R39, R52). -/
def packBundle (x : LogicalValue) : Wide :=
  let coeff : BitVec 54 := match x with
    | .finite _ c _ => BitVec.ofNat 54 c
    | _ => 0
  let exp : BitVec 16 := match x with
    | .finite _ _ e => BitVec.ofInt 16 e
    | _ => 0
  0#45 ++ kindBits x ++ BitVec.ofBool x.signOf ++ exp ++ 0#10 ++ coeff

/-- The logical value of an LV128 bundle, possibly ill-formed; `none` for the reserved kind `11` (R39, R53). -/
def unpackBundle (v : Wide) : Option LogicalValue :=
  let kind := v.extractLsb' 81 2
  let s := v.getLsbD 80
  if kind = 0b11#2 then none
  else if kind = 0b10#2 then some (.nan s)
  else if kind = 0b01#2 then some (.inf s)
  else some (.finite s (v.extractLsb' 0 54).toNat (v.extractLsb' 64 16).toInt)

/-- A logical value as a result of 64 bits on `rsp_r` (R41, R75): encoded, the upper half 0. -/
def encodeResult (x : LogicalValue) : Except FatalCode Wide := (codecEncode x).map narrowResult

/-- The outcome of DEC (R52): "`x = decode(a)`; `return LV128(x)`". -/
def decOutcome (a : Word) : Except FatalCode Wide := .ok (packBundle (codecDecode a))

/-- The outcome of ENC on the bundle `b ∥ a` (R53). -/
def encOutcome (b a : Word) : Except FatalCode Wide :=
  match unpackBundle (bundleOperand b a) with
  | none => .error .codecInvariant
  | some x => encodeResult x

end Sys2Proof.Machine
end

