-- ==== Sys2Proof/Config.lean ====
section
/-! DEFINITION. What the spec leaves to the implementation, as constants with no body: nothing can be proved
of their values (spec 92_eei_decisions.md, "Open parameters, collected"). Each is a function of what the
hardware's choice may depend on and of the clock-edge counter `State.tick`, so that it may differ from one
transaction to the next. -/

namespace Sys2Proof.Config

/-- `D2I_INVALID` of R123: the 64-bit result of D2I outside its domain, for the operand `a`, at a clock
edge. It does not take the operand `b`, which R44 says has no effect. Log 4. -/
opaque d2iInvalid : Word → Nat → Word

/-- `rsp_r` of a fatal response to a request (R18, R42), at the accepting edge. Log 5. -/
opaque fatalResult : Instr → Nat → Wide

/-- `rsp_r` of a response that an internal fatal condition turned fatal (R136), by clock edge and position
in the response order. Log 9. -/
opaque poisonedResult : Nat → Nat → Wide

/-- `rsp_r` while `rsp_valid = 0` (R19), by clock edge. Log 6. -/
opaque idleResult : Nat → Wide

/-- `rsp_fatal` while `rsp_valid = 0` (R19), by clock edge. Log 6. -/
opaque idleFatal : Nat → Bool

/-- `rsp_fcode` while `rsp_valid = 0` (R19), by clock edge. Log 6. -/
opaque idleFcode : Nat → BitVec 3

/-- The upper bound of `LAT(op)`, "a constant of the implementation" (R149). Log 3. -/
opaque latencyBound : Nat

/-- `LAT(op)` before the bound is applied; it may depend on the operands (R149). Log 3. -/
opaque rawLatency : Instr → Nat → Nat

/-- Clock edges after an acceptance during which `req_ready` stays 0 (throughput, R149). Log 3. -/
opaque busyEdges : Instr → Nat → Nat

/-- The internal capacity less one: the capacity is "at least one transaction" (R147). Log 3. -/
opaque extraCapacity : Nat

/-- The synchrony part of `RESET_KIND` (R145): whether an active `rst` acts before the next clock edge. Log 7. -/
opaque resetAsync : Bool

end Sys2Proof.Config
end

