-- ==== Sys2Proof/Machine/State.lean ====
section
/-! DEFINITION. The state of CORE as plain data: the architectural state of R10, the ports of R16 and R17, the
ports of the internal blocks (R60 to R62, R70), and two fields of the model's own (spec 10_state.md). -/

namespace Sys2Proof.Machine

/-- A response, the fields of the response word `fatal ∥ fcode ∥ r` (R42). -/
structure Response where
  fatal : Bool
  fcode : BitVec 3
  r : Wide
  deriving DecidableEq, Repr

/-- An accepted transaction whose response is not delivered yet (R17): the clock edges left before
`rsp_valid` can rise for it, and its response. -/
structure Transaction where
  wait : Nat
  response : Response
  deriving DecidableEq, Repr

/-- The ports of the internal blocks: operands in, results out (R60 to R62, R70). -/
structure BlockPorts where
  mulX : Word
  mulY : Word
  mulP : Wide
  divN : Wide
  divD : Word
  divQ : Wide
  divR : Word
  cmpX : Wide
  cmpY : Wide
  cmpLt : Bool
  cmpEq : Bool
  cmpGt : Bool
  lutK : BitVec 6
  lutW : Wide
  deriving DecidableEq, Repr

/-- The machine. `lut`, `halt` and `fcode` are "the complete architectural state" (R10); `rst`, `requests`
and `rspReady` are what the host drives on the pins (R16, log 2); `inFlight` and `busy` are the transactions
in flight and the throughput of the request port (R17, R149, log 3); `call` and `blocks` are the internal
ports (log 8); `delivered` (log 2) and `tick` (log 15) are the model's own. -/
structure State where
  /-- `LUT[0..38]` (R10, R71). -/
  lut : Vector Wide 39
  /-- `HALT` (R10, R136). -/
  halt : Bool
  /-- `FCODE` (R10, R131). -/
  fcode : BitVec 3
  /-- `rst` is active (R16, R145). -/
  rst : Bool
  /-- The requests the host offers, oldest first: `req_valid = 1` while there is one, and its word is on
  `req_op`, `req_b`, `req_a` until it is accepted (R16, R17, R147 item 2). -/
  requests : List RequestWord
  /-- `rsp_ready` (R16). -/
  rspReady : Bool
  /-- The accepted transactions whose response is not delivered, oldest first (R17). -/
  inFlight : List Transaction
  /-- The responses the host has taken, oldest first: the host's record. -/
  delivered : List Response
  /-- Clock edges until the request port is ready again (R149). -/
  busy : Nat
  /-- The call presented on the internal ports (R60 to R62, R70). -/
  call : Option BlockCall
  /-- The operands and results on the internal ports. -/
  blocks : BlockPorts
  /-- The clock edges counted so far; selects the free values of `Config`. -/
  tick : Nat
  deriving DecidableEq, Repr

/-- No step of CORE ends in a fault: a fatal condition is a next state, with HALT and FCODE set (R136), and
an invalid operation is a result (R130). So there is no reason to list. -/
inductive Fault where
  deriving DecidableEq, Repr

/-- Why an instruction has no meaning. -/
inductive Refusal where
  /-- Raised by `exec` alone, for a row of the opcode table not modelled yet: none. Safe. -/
  | notModelled (mnemonic : String)
  deriving DecidableEq, Repr

/-- The internal ports of `State.reset`: operands 0 and the outputs the blocks give for them. DESIGN CHOICE, log 11;
an edge at an active `rst` leaves the ports as they were (log 24). -/
def BlockPorts.reset : BlockPorts :=
  { mulX := 0, mulY := 0, mulP := 0, divN := 0, divD := 0, divQ := 0, divR := 0, cmpX := 0, cmpY := 0,
    cmpLt := false, cmpEq := true, cmpGt := false, lutK := 0, lutW := 1 }

/-- The machine right after reset is released (R19, R145): `HALT = 0`, `FCODE = 0`, `LUT[k] = 10^k`, no
transaction in flight. The fields R19 does not name hold the values of log 11. -/
def State.reset : State :=
  { lut := lutContents, halt := false, fcode := 0, rst := false, requests := [], rspReady := false,
    inFlight := [], delivered := [], busy := 0, call := none, blocks := BlockPorts.reset, tick := 0 }

end Sys2Proof.Machine
end

