-- ==== Sys2Proof/Machine/Ops.lean ====
section
/-! DEFINITION. The shared operations on State: answering a transaction, taking a fatal condition and leaving
it by reset, the response handshake, the internal ports, and what the host does at the ports
(spec 10_state.md R16 to R19; 60_exceptions.md R131, R136, R139; 70_reset_and_hazards.md R145). -/

namespace Sys2Proof.Machine

/-- The code of a fatal condition, as `rsp_fcode` and `FCODE` carry it (R131). -/
def fatalBits : FatalCode → BitVec 3
  | .lutIndex => 1#3
  | .codecInvariant => 2#3
  | .wdivZero => 3#3
  | .illegalOp => 4#3

/-- `LAT(op)` of the request accepted at an edge: free, and bounded by a constant (R17, R149). -/
def latency (i : Instr) (tick : Nat) : Nat := min (Config.rawLatency i tick) Config.latencyBound

/-- `Result(r)`: the transaction of `i`, accepted at this edge, has the response `r` (R18, R42). -/
def State.respond (s : State) (i : Instr) (r : Wide) : State :=
  { s with
    inFlight := s.inFlight ++ [{ wait := latency i s.tick, response := { fatal := false, fcode := 0, r := r } }]
    busy := Config.busyEdges i s.tick }

/-- TAKING A FATAL CONDITION, `Fatal(code)`, at the edge that accepts `i` (R18, R136): "HALT <- 1;
FCODE <- code", and a response with `fatal = 1`, that code and an unspecified `r` behind the older ones. -/
def State.raiseFatal (s : State) (i : Instr) (code : FatalCode) : State :=
  { s with
    halt := true
    fcode := fatalBits code
    inFlight := s.inFlight ++
      [{ wait := latency i s.tick,
         response := { fatal := true, fcode := fatalBits code, r := Config.fatalResult i s.tick } }]
    busy := Config.busyEdges i s.tick }

/-- The response to an accepted request from its outcome (R18). -/
def State.complete (s : State) (i : Instr) (outcome : Except FatalCode Wide) : State :=
  match outcome with
  | .ok r => s.respond i r
  | .error code => s.raiseFatal i code

/-- The response of a transaction that an internal fatal condition caught (R136, last sentences). -/
def poisonResponse (code : FatalCode) (tick position : Nat) (t : Transaction) : Transaction :=
  { t with response := { fatal := true, fcode := fatalBits code, r := Config.poisonedResult tick position } }

/-- Poisons the transactions from position `first` on; `position` counts from the oldest. -/
def poisonFrom (code : FatalCode) (tick first : Nat) : (position : Nat) → List Transaction → List Transaction
  | _, [] => []
  | position, t :: ts =>
    (if first ≤ position then poisonResponse code tick position t else t) ::
      poisonFrom code tick first (position + 1) ts

/-- Taking a fatal condition that a block meets in the middle of a transaction (R136): "`HALT` is set when
the condition is detected, and that transaction and every younger one already accepted are answered with
`rsp_fatal = 1` and that code". DESIGN CHOICE (log 9), where R136 is silent: the latencies are unchanged; a
response of the caller that is already offered is rewritten too; if `younger` names more transactions than there
are, all are answered fatally; the result ports of the block (`w`, or `q` and `r`) keep their values. -/
def State.raiseBlockFatal (s : State) (younger : Nat) (code : FatalCode) : State :=
  { s with
    halt := true
    fcode := fatalBits code
    inFlight := poisonFrom code s.tick (s.inFlight.length - (younger + 1)) 0 s.inFlight
    call := none }

/-- The end of an internal call: the results stand on the internal ports and the call is over. -/
def State.finishCall (s : State) (blocks : BlockPorts) : State :=
  { s with blocks := blocks, call := none }

/-- The table row a call runs. Its operands are on the internal ports, so the fields of the request word
are unused and 0 (R43). -/
def callInstr (c : BlockCall) : Instr :=
  match c.fn with
  | .wmul => .wmul 0 0
  | .wdiv => .wdiv 0 0
  | .wcmp => .wcmp 0 0
  | .p10 => .p10 0 0

/-- Whether a call of the function `fn` is presented on the internal ports, and if so the number of
transactions younger than its caller; `none` if the op code came in on the request port. Log 8. -/
def State.callOf (s : State) (fn : BlockFn) : Option Nat :=
  match s.call with
  | some c => if c.fn = fn then some c.younger else none
  | none => none

/-- One clock edge at an active `rst` (R145), the only return from a fatal condition (R139): HALT and FCODE
are cleared, every transaction in flight is discarded, nothing is accepted or delivered, LUT is unchanged.
DESIGN CHOICE (log 24): a call on the internal ports is dropped and the port is not busy afterwards; the operands
and results on the internal ports, for which the spec gives no value then, stay as they were. -/
def State.resetEdge (s : State) : State :=
  { s with halt := false, fcode := 0, inFlight := [], busy := 0, call := none, tick := s.tick + 1 }

/-- `rsp_valid` (R16, R17): the oldest transaction's latency has passed; 0 while `rst` is active (R19). -/
def State.rspValid (s : State) : Bool :=
  !s.rst &&
    match s.inFlight with
    | [] => false
    | t :: _ => t.wait == 0

/-- One edge of waiting for a transaction in flight. -/
def Transaction.countDown (t : Transaction) : Transaction := { t with wait := t.wait - 1 }

/-- The transactions left in flight after an edge (R17): the oldest is delivered if `rsp_valid` and
`rsp_ready` are both 1; otherwise it is held unchanged (R147 item 3). DESIGN CHOICE (log 18): R149 leaves the
throughput of responses open; all waits run down in parallel, also while the host holds back an older response, and
the next response is offered right after its delivery if its own wait is over. -/
def State.inFlightAfter (s : State) : List Transaction :=
  (if s.rspValid && s.rspReady then s.inFlight.tail else s.inFlight).map Transaction.countDown

/-- The host's record after an edge (R17): the delivered response is added. -/
def State.deliveredAfter (s : State) : List Response :=
  if s.rspValid && s.rspReady then
    s.delivered ++ (s.inFlight.head?.map Transaction.response).toList
  else s.delivered

/-- One clock edge of everything but acceptance: the response handshake, the waiting, the throughput count
and the edge count. -/
def State.edge (s : State) : State :=
  { s with inFlight := s.inFlightAfter, delivered := s.deliveredAfter, busy := s.busy - 1, tick := s.tick + 1 }

/-- CORE has room for one more transaction (R147 item 3): its capacity is at least one, otherwise open. -/
def State.hasRoom (s : State) : Bool :=
  match s.inFlight with
  | [] => true
  | ts => decide (ts.length < 1 + Config.extraCapacity)

/-- `req_ready` (R16): 0 while `HALT = 1` or `rst` is active; 0 while the port is busy or CORE is full
(R147, R149), and while an internal call is presented (log 10). -/
def State.reqReady (s : State) : Bool :=
  !s.halt && !s.rst && s.call.isNone && (s.busy == 0) && s.hasRoom

/-- The acceptance of the oldest offered request: the edge passes and the request leaves the host (R17). -/
def State.acceptEdge (s : State) : State := { s.edge with requests := s.requests.tail }

/-- The host offers one more request (R16). -/
def State.offer (s : State) (w : RequestWord) : State := { s with requests := s.requests ++ [w] }

/-- The host drives `rsp_ready` (R16). -/
def State.driveRspReady (s : State) (level : Bool) : State := { s with rspReady := level }

/-- The platform drives `rst` to active or inactive (R145). -/
def State.driveRst (s : State) (active : Bool) : State := { s with rst := active }

/-- An arithmetic block presents a call and its operands on the internal ports (R60 to R62, R70). DESIGN CHOICE
(log 8): the result ports take the presenter's values as well, whatever they are, and hold them until the call ends;
the spec gives them no value between the two. -/
def State.presentCall (s : State) (c : BlockCall) (blocks : BlockPorts) : State :=
  { s with call := some c, blocks := blocks }

end Sys2Proof.Machine
end

