-- ==== Sys2Proof/Machine/Rounding.lean ====
section
/-! DEFINITION. The common result path: rounding, the exponent range, zeros (spec 43_rounding.md R76). -/

namespace Sys2Proof.Machine

/-- How many digits `finalize` removes: `max(d − 16, EMIN − e, 0)` (R76). -/
def dropCount (C : Nat) (e : Int) : Nat := (max (max ((digits C : Int) - precision) (eMin - e)) 0).toNat

/-- The rounding of `C`, or of `C + f` with `0 < f < 1` when `sticky`, to a multiple of `10^drop`, half to
even, divided by `10^drop` (R76). -/
def roundHalfEven (C : Nat) (sticky : Bool) (drop : Nat) : Nat :=
  if drop = 0 then C
  else
    let q := C / 10 ^ drop
    let rem := C % 10 ^ drop
    let half := 5 * 10 ^ (drop - 1)
    if rem > half ∨ (rem = half ∧ (sticky = true ∨ q % 2 = 1)) then q + 1 else q

/-- "the round-up carried into a 17th digit": `10^16` becomes `10^15` at the next exponent (R76). -/
def carryDigit (q : Nat) (e : Int) : Nat × Int := if q = 10 ^ 16 then (10 ^ 15, e + 1) else (q, e)

/-- "fold a too-large exponent into trailing zeros": at most `steps` zeros while the coefficient stays below
`10^16` (R76). -/
def foldExponent : (steps q : Nat) → (e : Int) → Nat × Int
  | 0, q, e => (q, e)
  | n + 1, q, e => if q * 10 < 10 ^ 16 then foldExponent n (q * 10) (e - 1) else (q, e)

/-- The last part of `finalize` (R76): zero, fold, overflow or the finite value. -/
def settle (s : Bool) (q : Nat) (e2 : Int) : LogicalValue :=
  if q = 0 then .finite s 0 (clamp e2)
  else
    let folded := foldExponent (e2 - eMax).toNat q e2
    if folded.2 > eMax then .inf s else .finite s folded.1 folded.2

/-- `finalize(s, C, sticky, e)` (R76): the format's value nearest to `(−1)^s · (C + f) · 10^e`, ties to even,
by a single rounding. Precondition: `sticky` implies `C ≥ 10^16`. -/
def finalize (s : Bool) (C : Nat) (sticky : Bool) (e : Int) : LogicalValue :=
  if C = 0 then .finite s 0 (clamp e)
  else
    let drop := dropCount C e
    let carried := carryDigit (roundHalfEven C sticky drop) (e + drop)
    settle s carried.1 carried.2

/-- The NaN result of R78: "the logical result is `NaN(0)`". -/
def nanResult : LogicalValue := .nan false

end Sys2Proof.Machine
end

