-- ==== Sys2Proof/Machine/Adder.lean ====
section
/-! DEFINITION. The block decimal_fp_adder: NEG, ADD, SUB (spec 44_neg_add_sub.md R85 to R90). -/

namespace Sys2Proof.Machine

/-- NEG on the packed form (R85): any NaN unchanged bit for bit, otherwise the sign bit flipped. -/
def negate (a : Word) : Word := if fieldG a = nanTag then a else a ^^^ 0x8000000000000000#64

/-- `(−1)^s · c` (R8). -/
def signedCoeff (s : Bool) (c : Nat) : Int := if s then -(c : Int) else c

/-- The finite case of `add_lv`: alignment to `min(ea, eb)`, the exact sum, its sign (R90), `finalize` (R86). -/
def addFinite (sa : Bool) (ca : Nat) (ea : Int) (sb : Bool) (cb : Nat) (eb : Int) : LogicalValue :=
  let e := min ea eb
  let A := ca * 10 ^ (ea - e).toNat
  let B := cb * 10 ^ (eb - e).toNat
  let S := signedCoeff sa A + signedCoeff sb B
  let s := if S = 0 then sa && sb else decide (S < 0)
  finalize s S.natAbs false e

/-- `add_lv` (R86), with the Infinity table of R88. -/
def addValue (x y : LogicalValue) : LogicalValue :=
  match x, y with
  | .nan _, _ => nanResult
  | _, .nan _ => nanResult
  | .inf sx, .inf sy => if sx = sy then .inf sx else nanResult
  | .inf sx, .finite _ _ _ => .inf sx
  | .finite _ _ _, .inf sy => .inf sy
  | .finite sa ca ea, .finite sb cb eb => addFinite sa ca ea sb cb eb

/-- The outcome of NEG (R85). -/
def negOutcome (a : Word) : Except FatalCode Wide := .ok (narrowResult (negate a))

/-- The outcome of ADD: `encode(add_lv(decode(a), decode(b)))` (R86). -/
def addOutcome (b a : Word) : Except FatalCode Wide := encodeResult (addValue (codecDecode a) (codecDecode b))

/-- The outcome of SUB: `ADD(a, NEG(b))` (R87). -/
def subOutcome (b a : Word) : Except FatalCode Wide := addOutcome (negate b) a

/-- NEG (R85). -/
def execNeg (b a : Word) (s : State) : Host.Outcome State Fault Refusal :=
  .next (s.complete (.neg b a) (negOutcome a))

/-- ADD (R86). -/
def execAdd (b a : Word) (s : State) : Host.Outcome State Fault Refusal :=
  .next (s.complete (.add b a) (addOutcome b a))

/-- SUB (R87). -/
def execSub (b a : Word) (s : State) : Host.Outcome State Fault Refusal :=
  .next (s.complete (.sub b a) (subOutcome b a))

end Sys2Proof.Machine
end

