-- ==== Sys2Proof/Machine/CodecOps.lean ====
section
/-! DEFINITION. The codec on the request port: DEC and ENC (spec 40_codec.md R52, R53). -/

namespace Sys2Proof.Machine

/-- DEC (R52). -/
def execDec (b a : Word) (s : State) : Host.Outcome State Fault Refusal :=
  .next (s.complete (.dec b a) (decOutcome a))

/-- ENC (R53): an ill-formed bundle is the fatal condition CODEC_INVARIANT (R133). -/
def execEnc (b a : Word) (s : State) : Host.Outcome State Fault Refusal :=
  .next (s.complete (.enc b a) (encOutcome b a))

end Sys2Proof.Machine
end

