-- ==== Sys2Proof/Machine/Convert.lean ====
section
/-! DEFINITION. The top level of CORE: I2D and D2I (spec 48_int_conversion.md R120 to R123). -/

namespace Sys2Proof.Machine

/-- The logical value of an integer: sign and magnitude, rounded by `finalize` (R120, R121). -/
def intValue (i : Int) : LogicalValue := finalize (decide (i < 0)) i.natAbs false 0

/-- The integer part of a finite magnitude: digits below the units are removed (R122). -/
def truncateMagnitude (c : Nat) (e : Int) : Nat :=
  if 0 ≤ e then c * 10 ^ e.toNat else c / 10 ^ (-e).toNat

/-- The int64 of a logical value; `none` outside the domain of D2I (R122, R123). -/
def toInt64 (x : LogicalValue) : Option Word :=
  match x with
  | .nan _ => none
  | .inf _ => none
  | .finite s c e =>
    let m := truncateMagnitude c e
    if s = false ∧ m ≤ 2 ^ 63 - 1 then some (int64Result m)
    else if s = true ∧ m ≤ 2 ^ 63 then some (int64Result (-(m : Int)))
    else none

/-- The outcome of I2D (R120). -/
def i2dOutcome (a : Word) : Except FatalCode Wide := encodeResult (intValue (int64Operand a))

/-- The outcome of D2I at a clock edge (R122): outside the domain the free value `D2I_INVALID`, in a normal
response (R123). -/
def d2iOutcome (a : Word) (tick : Nat) : Except FatalCode Wide :=
  .ok (narrowResult ((toInt64 (codecDecode a)).getD (Config.d2iInvalid a tick)))

/-- I2D (R120). -/
def execI2d (b a : Word) (s : State) : Host.Outcome State Fault Refusal :=
  .next (s.complete (.i2d b a) (i2dOutcome a))

/-- D2I (R122, R123). -/
def execD2i (b a : Word) (s : State) : Host.Outcome State Fault Refusal :=
  .next (s.complete (.d2i b a) (d2iOutcome a s.tick))

end Sys2Proof.Machine
end

