-- ==== Sys2Proof/Machine/Divider.lean ====
section
/-! DEFINITION. The block decimal_fp_divider: DIV (spec 46_divide.md R100 to R103). -/

namespace Sys2Proof.Machine

/-- "give back unused scaling": trailing zeros of an exact quotient, at most `steps` (R100). -/
def giveBack : (steps Q : Nat) → (e : Int) → Nat × Int
  | 0, Q, e => (Q, e)
  | n + 1, Q, e => if Q % 10 = 0 then giveBack n (Q / 10) (e + 1) else (Q, e)

/-- The scaling `k = 17 + digits(cb) − digits(ca)` of the dividend, 2 to 32 (R102). -/
def divScale (ca cb : Nat) : Nat := 17 + digits cb - digits ca

/-- The quotient of non-zero finite magnitudes with ideal exponent `ei` (R100, steps 3 to 5). -/
def divQuotient (s : Bool) (ca cb : Nat) (ei : Int) : LogicalValue :=
  let k := divScale ca cb
  let N := ca * 10 ^ k
  if N % cb = 0 then
    let exact := giveBack k (N / cb) (ei - k)
    finalize s exact.1 false exact.2
  else finalize s (N / cb) true (ei - k)

/-- The finite case of `div_lv` (R100): zero divisor, zero dividend, quotient. DEDUCED (log 25): the exponent of a zero
quotient is the `clamp(ea − eb)` of R100 and R101 also for a divisor `I2D(j)` with `|j| ≥ 10^16`, whose exponent is not
0 and for which item 3 of R103, read to the letter, has exponent 0. -/
def divFinite (sa : Bool) (ca : Nat) (ea : Int) (sb : Bool) (cb : Nat) (eb : Int) : LogicalValue :=
  if cb = 0 then nanResult
  else if ca = 0 then finalize (sa ^^ sb) 0 false (ea - eb)
  else divQuotient (sa ^^ sb) ca cb (ea - eb)

/-- `div_lv` (R100), in the row order of R101: NaN, zero divisor, Infinity, finite. -/
def divValue (x y : LogicalValue) : LogicalValue :=
  match x, y with
  | .nan _, _ => nanResult
  | _, .nan _ => nanResult
  | .inf sx, .finite sy cb _ => if cb = 0 then nanResult else .inf (sx ^^ sy)
  | .inf _, .inf _ => nanResult
  | .finite sx _ _, .inf sy => .finite (sx ^^ sy) 0 0
  | .finite sa ca ea, .finite sb cb eb => divFinite sa ca ea sb cb eb

/-- The outcome of DIV: `encode(div_lv(decode(a), decode(b)))` (R100). -/
def divOutcome (b a : Word) : Except FatalCode Wide := encodeResult (divValue (codecDecode a) (codecDecode b))

/-- DIV (R100). -/
def execDiv (b a : Word) (s : State) : Host.Outcome State Fault Refusal :=
  .next (s.complete (.div b a) (divOutcome b a))

end Sys2Proof.Machine
end

