-- ==== Sys2Proof/Machine/Multiplier.lean ====
section
/-! DEFINITION. The block decimal_fp_multiplier: MUL (spec 45_multiply.md R95, R96). -/

namespace Sys2Proof.Machine

/-- An Infinity times a Finite value with sign `sy` and coefficient `c`; an Infinity has no zero case (R96). -/
def mulInf (sx sy : Bool) (isZero : Bool) : LogicalValue := if isZero then nanResult else .inf (sx ^^ sy)

/-- `mul_lv` (R95), with the Infinity table of R96. -/
def mulValue (x y : LogicalValue) : LogicalValue :=
  match x, y with
  | .nan _, _ => nanResult
  | _, .nan _ => nanResult
  | .inf sx, .inf sy => mulInf sx sy false
  | .inf sx, .finite sy cy _ => mulInf sx sy (decide (cy = 0))
  | .finite sx cx _, .inf sy => mulInf sx sy (decide (cx = 0))
  | .finite sa ca ea, .finite sb cb eb => finalize (sa ^^ sb) (ca * cb) false (ea + eb)

/-- The outcome of MUL: `encode(mul_lv(decode(a), decode(b)))` (R95). -/
def mulOutcome (b a : Word) : Except FatalCode Wide := encodeResult (mulValue (codecDecode a) (codecDecode b))

/-- MUL (R95). -/
def execMul (b a : Word) (s : State) : Host.Outcome State Fault Refusal :=
  .next (s.complete (.mul b a) (mulOutcome b a))

end Sys2Proof.Machine
end

