-- ==== Sys2Proof/Machine/Flags.lean ====
section
/-! DEFINITION. The status outputs of CORE. There are no condition codes and no IEEE flags: "The only flag is
`HALT`" (spec 10_state.md R13), read on pins (R14, R16). The outputs of WCMP are results, not flags (R62). -/

namespace Sys2Proof.Machine

/-- The pin `halted` (R16). Under an active asynchronous reset it is 0 before the next edge (R145, log 7). -/
def State.haltedPin (s : State) : Bool := s.halt && !(s.rst && Config.resetAsync)

/-- The pin `fcode` (R16). -/
def State.fcodePin (s : State) : BitVec 3 := if s.rst && Config.resetAsync then 0#3 else s.fcode

/-- The pin `req_valid` (R16). -/
def State.reqValid (s : State) : Bool := !s.requests.isEmpty

/-- The response offered while `rsp_valid = 1` (R17). -/
def State.offered (s : State) : Option Response :=
  if s.rspValid then s.inFlight.head?.map Transaction.response else none

/-- The pins `rsp_r` (R16), unspecified while `rsp_valid = 0` (R19). -/
def State.rspR (s : State) : Wide := (s.offered.map Response.r).getD (Config.idleResult s.tick)

/-- The pin `rsp_fatal` (R16), unspecified while `rsp_valid = 0` (R19). -/
def State.rspFatal (s : State) : Bool := (s.offered.map Response.fatal).getD (Config.idleFatal s.tick)

/-- The pins `rsp_fcode` (R16), unspecified while `rsp_valid = 0` (R19). -/
def State.rspFcode (s : State) : BitVec 3 := (s.offered.map Response.fcode).getD (Config.idleFcode s.tick)

/-- The response word `fatal ∥ fcode ∥ r` (R42). -/
def Response.word (x : Response) : ResponseWord := BitVec.ofBool x.fatal ++ x.fcode ++ x.r

/-- The three outputs of a comparison, exactly one of which is 1 (R62). -/
structure Comparison where
  lt : Bool
  eq : Bool
  gt : Bool
  deriving DecidableEq, Repr

/-- WCMP on two magnitudes (R62): `lt = (x < y)`, `eq = (x = y)`, `gt = (x > y)`, unsigned. -/
def compareWide (x y : Wide) : Comparison :=
  { lt := decide (x.toNat < y.toNat), eq := decide (x.toNat = y.toNat), gt := decide (y.toNat < x.toNat) }

end Sys2Proof.Machine
end

