-- ==== Sys2Proof/Machine/WideInt.lean ====
section
/-! DEFINITION. The blocks wide_int_mult and wide_int_div: WMUL, WDIV, WCMP on their internal ports, and their
op codes on the request port (spec 41_wide_int.md R60 to R64; 30_encoding.md R43; 60_exceptions.md R135). -/

namespace Sys2Proof.Machine

/-- WMUL: the exact product (R60). -/
def wideMul (x y : Word) : Wide := BitVec.ofNat 128 (x.toNat * y.toNat)

/-- WDIV: quotient and remainder, or WDIV_ZERO (R61). -/
def wideDiv (n : Wide) (d : Word) : Except FatalCode (Wide × Word) :=
  if d = 0 then .error .wdivZero
  else .ok (BitVec.ofNat 128 (n.toNat / d.toNat), BitVec.ofNat 64 (n.toNat % d.toNat))

/-- An op code that names no function of the request port, on that port: ILLEGAL_OP, "The operands `a` and
`b` are ignored" (R43, R135). -/
def State.illegalRequest (s : State) (i : Instr) : State := s.complete i (.error .illegalOp)

/-- WMUL: on the internal ports `p = x · y` (R60); on the request port ILLEGAL_OP (R43). -/
def execWmul (b a : Word) (s : State) : Host.Outcome State Fault Refusal :=
  match s.callOf .wmul with
  | some _ => .next (s.finishCall { s.blocks with mulP := wideMul s.blocks.mulX s.blocks.mulY })
  | none => .next (s.illegalRequest (.wmul b a))

/-- WDIV: on the internal ports `q = n div d`, `r = n mod d`, or WDIV_ZERO (R61), where `q` and `r` keep their
values (log 9); on the request port ILLEGAL_OP (R43). -/
def execWdiv (b a : Word) (s : State) : Host.Outcome State Fault Refusal :=
  match s.callOf .wdiv with
  | some younger =>
    match wideDiv s.blocks.divN s.blocks.divD with
    | .ok (q, r) => .next (s.finishCall { s.blocks with divQ := q, divR := r })
    | .error code => .next (s.raiseBlockFatal younger code)
  | none => .next (s.illegalRequest (.wdiv b a))

/-- WCMP: on the internal ports `lt`, `eq`, `gt` (R62); on the request port ILLEGAL_OP (R43). -/
def execWcmp (b a : Word) (s : State) : Host.Outcome State Fault Refusal :=
  match s.callOf .wcmp with
  | some _ =>
    let c := compareWide s.blocks.cmpX s.blocks.cmpY
    .next (s.finishCall { s.blocks with cmpLt := c.lt, cmpEq := c.eq, cmpGt := c.gt })
  | none => .next (s.illegalRequest (.wcmp b a))

end Sys2Proof.Machine
end

