-- ==== Sys2Proof/Machine/Pow10.lean ====
section
/-! DEFINITION. The block powers_of_ten_lut: P10 on its internal port, and its op code on the request port
(spec 42_pow10_lut.md R70; 30_encoding.md R43). -/

namespace Sys2Proof.Machine

/-- P10: the entry `k` of a table, or LUT_INDEX (R70). -/
def tableRead (lut : Vector Wide 39) (k : BitVec 6) : Except FatalCode Wide :=
  if h : k.toNat < 39 then .ok (lut[k.toNat]'h) else .error .lutIndex

/-- P10: on the internal port `w = LUT[k]`, or LUT_INDEX (R70), where `w` keeps its value (log 9); on the request
port ILLEGAL_OP (R43). -/
def execP10 (b a : Word) (s : State) : Host.Outcome State Fault Refusal :=
  match s.callOf .p10 with
  | some younger =>
    match tableRead s.lut s.blocks.lutK with
    | .ok w => .next (s.finishCall { s.blocks with lutW := w })
    | .error code => .next (s.raiseBlockFatal younger code)
  | none => .next (s.illegalRequest (.p10 b a))

end Sys2Proof.Machine
end

