-- ==== Sys2Proof/Machine/Reserved.lean ====
section
/-! DEFINITION. The reserved op codes `0xE` and `0xF` (spec 30_encoding.md R43; 60_exceptions.md R135). -/

namespace Sys2Proof.Machine

/-- The reserved op code `0xE`: ILLEGAL_OP (R43, R135). -/
def execReservedE (b a : Word) (s : State) : Host.Outcome State Fault Refusal :=
  .next (s.illegalRequest (.reservedE b a))

/-- The reserved op code `0xF`: ILLEGAL_OP (R43, R135). -/
def execReservedF (b a : Word) (s : State) : Host.Outcome State Fault Refusal :=
  .next (s.illegalRequest (.reservedF b a))

end Sys2Proof.Machine
end

