-- ==== Sys2Proof/Machine/Sqrt.lean ====
section
/-! DEFINITION. The block decimal_fp_sqrt: SQRT (spec 47_sqrt.md R110 to R113). -/

namespace Sys2Proof.Machine

/-- The even scaling `j2` of a radicand of `dc` digits: the largest even number with `dc + j2 ≤ 34` (R112). -/
def sqrtScale (dc : Nat) : Nat := if (34 - dc) % 2 = 0 then 34 - dc else 33 - dc

/-- The root of a positive radicand `c' · 10^e'` with an even exponent (R110, steps 3 and 4). -/
def sqrtEven (c : Nat) (e : Int) : LogicalValue :=
  let r := isqrt c
  if r * r = c then finalize false r false (floor2 e)
  else
    let j2 := sqrtScale (digits c)
    finalize false (isqrt (c * 10 ^ j2)) true (floor2 (e - j2))

/-- The root of a positive finite value: "if e is odd: c' = c · 10; e' = e − 1" (R110). -/
def sqrtPositive (c : Nat) (e : Int) : LogicalValue :=
  if e % 2 = 1 then sqrtEven (c * 10) (e - 1) else sqrtEven c e

/-- `sqrt_lv` (R110), in the row order of R111. -/
def sqrtValue (x : LogicalValue) : LogicalValue :=
  match x with
  | .nan _ => nanResult
  | .inf s => if s then nanResult else .inf false
  | .finite s c e =>
    if c = 0 then .finite s 0 (floor2 e)
    else if s then nanResult
    else sqrtPositive c e

/-- The outcome of SQRT: `encode(sqrt_lv(decode(a)))` (R110). -/
def sqrtOutcome (a : Word) : Except FatalCode Wide := encodeResult (sqrtValue (codecDecode a))

/-- SQRT (R110). -/
def execSqrt (b a : Word) (s : State) : Host.Outcome State Fault Refusal :=
  .next (s.complete (.sqrt b a) (sqrtOutcome a))

end Sys2Proof.Machine
end

