-- ==== Sys2Proof/Machine/Dispatch.lean ====
section
/-! DEFINITION. `exec`: the meaning of each row of spec/opcode_table.json (spec 10_state.md R18; 30_encoding.md R41). -/

namespace Sys2Proof.Machine

def exec (i : Instr) (s : State) : Host.Outcome State Fault Refusal :=
  match i with
  | .neg b a => Sys2Proof.Machine.execNeg b a s
  | .add b a => Sys2Proof.Machine.execAdd b a s
  | .sub b a => Sys2Proof.Machine.execSub b a s
  | .mul b a => Sys2Proof.Machine.execMul b a s
  | .div b a => Sys2Proof.Machine.execDiv b a s
  | .sqrt b a => Sys2Proof.Machine.execSqrt b a s
  | .i2d b a => Sys2Proof.Machine.execI2d b a s
  | .d2i b a => Sys2Proof.Machine.execD2i b a s
  | .dec b a => Sys2Proof.Machine.execDec b a s
  | .enc b a => Sys2Proof.Machine.execEnc b a s
  | .wmul b a => Sys2Proof.Machine.execWmul b a s
  | .wdiv b a => Sys2Proof.Machine.execWdiv b a s
  | .wcmp b a => Sys2Proof.Machine.execWcmp b a s
  | .p10 b a => Sys2Proof.Machine.execP10 b a s
  | .reservedE b a => Sys2Proof.Machine.execReservedE b a s
  | .reservedF b a => Sys2Proof.Machine.execReservedF b a s

end Sys2Proof.Machine
end

