-- ==== Sys2Proof/Machine/Step.lean ====
section
/-! DEFINITION. One clock edge of CORE (spec 10_state.md R17, R18; 60_exceptions.md R136; 70_reset_and_hazards.md
R145, R149): an active reset, an internal call, the acceptance of a request, or neither. -/

namespace Sys2Proof.Machine

/-- One clock edge. While `rst` is active it is a reset edge (R145). Otherwise the response handshake takes
place, and: a call on the internal ports is executed unless CORE is halted (R139: "nothing executes while
`HALT = 1`", log 10), after the handshake: a response the host takes at this very edge is delivered before a fatal
condition of the call can reach it (log 9); with no call, the oldest offered request is accepted and executed if `req_ready` is 1
(R17, R18). -/
def step (s : State) : Host.Outcome State Fault Refusal :=
  if s.rst then .next s.resetEdge
  else
    match s.call with
    | some c => if s.halt then .next s.edge else exec (callInstr c) s.edge
    | none =>
      match s.requests with
      | [] => .next s.edge
      | w :: _ => if s.reqReady then exec (decodeRequest w) s.acceptEdge else .next s.edge

/-- The state in which the next step accepts and runs the request with these bits: the host offers it before
its other requests, and the conditions of acceptance hold (`rst` inactive, `HALT = 0`, no internal call, the
port ready, room for a transaction). Log 2. -/
def State.withFetchWord (s : State) (nbits w : Nat) : State :=
  { s with
    requests := BitVec.ofNat 132 (w % 2 ^ nbits) :: s.requests
    rst := false
    halt := false
    fcode := if s.halt then 0 else s.fcode
    call := none
    busy := 0
    inFlight := if s.hasRoom then s.inFlight else [] }

end Sys2Proof.Machine
end

