-- ==== Sys2Proof/Machine/Datapath.lean ====
section
/-! DEFINITION. How the blocks reach the results of the mathematical rules with the table and the wide-integer
helper: digit count, scaling, division by a power of ten, the 128-bit adder (spec 41_wide_int.md R64;
42_pow10_lut.md R72; 44_neg_add_sub.md R89). "None of this changes a result". -/

namespace Sys2Proof.Machine

/-- P10 at an index given as a number (R70). -/
def tablePower (lut : Vector Wide 39) (k : Nat) : Except FatalCode Wide :=
  if k < 64 then tableRead lut (BitVec.ofNat 6 k) else .error .lutIndex

/-- The search of `digits` over the table with WCMP, from index `d` up (R72). -/
def digitsFrom (lut : Vector Wide 39) (n : Wide) : (steps d : Nat) → Nat
  | 0, d => d
  | k + 1, d =>
    match tablePower lut d with
    | .ok w => if (compareWide n w).lt then d else digitsFrom lut n k (d + 1)
    | .error _ => d

/-- "`digits(n)` is the least `d` in 0..38 with `n < LUT[d]`", and 39 when there is none (R72). -/
def digitsByTable (lut : Vector Wide 39) (n : Wide) : Nat := digitsFrom lut n 39 0

/-- The part `k1` of a scaling by `10^k`: `min(k, 3)` in the range of R64, `c < 10^16` and `k ≤ 22`. DESIGN CHOICE
(log 23) beyond it, for the scalings of R102 and R112 that R64 gives no split for: `k − 19`, or 0 up to `k = 19`. -/
def scaleSplit (c : Word) (k : Nat) : Nat := if c.toNat < 10 ^ 16 ∧ k ≤ 22 then min k 3 else k - 19

/-- `c · 10^k` as two multiplications with the split `k = k1 + k2` (R64, R102). DESIGN CHOICE (log 23): the value has
a meaning only for `k ≤ 38` and `c · 10^(k − 19) < 2^64`, where every factor fits its 64-bit port; elsewhere, where the
spec scales nothing, a factor is cut to its low word and the answer is not `c · 10^k`. -/
def scaleByTable (lut : Vector Wide 39) (c : Word) (k : Nat) : Except FatalCode Wide := do
  let p1 ← tablePower lut (scaleSplit c k)
  let p2 ← tablePower lut (k - scaleSplit c k)
  return wideMul (wideLo (wideMul c (wideLo p1))) (wideLo p2)

/-- `n div 10^k` and `n mod 10^k` by divisors of at most 19 digits, combining the remainders (R64). DESIGN CHOICE
(log 23): R64 gives no `k1` for a division; the model takes `k1 = 19`, `k2 = k − 19`. No result depends on it. The
answer has a meaning only for `k ≤ 38`, the indices of the table; elsewhere, where the spec divides nothing, a divisor
is cut to its low word. -/
def divideByTable (lut : Vector Wide 39) (n : Wide) (k : Nat) : Except FatalCode (Wide × Wide) := do
  if k ≤ 19 then
    let p ← tablePower lut k
    let (q, r) ← wideDiv n (wideLo p)
    return (q, narrowResult r)
  else
    let p1 ← tablePower lut 19
    let p2 ← tablePower lut (k - 19)
    let (q1, r1) ← wideDiv n (wideLo p1)
    let (q, r2) ← wideDiv q1 (wideLo p2)
    return (q, wideMul r2 (wideLo p1) + narrowResult r1)

/-- The far path of the adder (R89): the smaller operand lies below the guard digits and is a sticky bit. -/
def addFarPath (sh : Bool) (ch : Nat) (eh : Int) (sl : Bool) (cl : Nat) : LogicalValue :=
  let pad := 18 - digits ch
  let C := ch * 10 ^ pad
  let e := eh - pad
  if cl = 0 then finalize sh C false e
  else if sh = sl then finalize sh C true e
  else finalize sh (C - 1) true e

/-- The 128-bit adder with the operand of the greater exponent first (R89). -/
def addOrdered (sh : Bool) (ch : Nat) (eh : Int) (sl : Bool) (cl : Nat) (el : Int) : LogicalValue :=
  let diff := (eh - el).toNat
  if ch = 0 ∨ digits ch + diff ≤ 38 then
    let S := signedCoeff sh (ch * 10 ^ diff) + signedCoeff sl cl
    let s := if S = 0 then sh && sl else decide (S < 0)
    finalize s S.natAbs false el
  else addFarPath sh ch eh sl cl

/-- The 128-bit datapath for the finite case of ADD (R89). -/
def addDatapath (sa : Bool) (ca : Nat) (ea : Int) (sb : Bool) (cb : Nat) (eb : Int) : LogicalValue :=
  if eb ≤ ea then addOrdered sa ca ea sb cb eb else addOrdered sb cb eb sa ca ea

end Sys2Proof.Machine
end

