-- ==== Sys2Proof/WellFormed.lean ====
section
/-! DEFINITION. The checks on what a host may present (spec 30_encoding.md R39, R43; 40_codec.md R53;
70_reset_and_hazards.md R147). The operand fields of `Instr` have the widths of the request word by their
types, so every term of `Instr` is a request; the checks here are the spec's own "ill-formed" and "illegal". -/

namespace Sys2Proof

/-- A bundle operand `b ∥ a` of ENC has a kind that is not reserved: `b[18:17]` is not `11` (R39). -/
def bundleKindOk (b : Word) : Bool := b.extractLsb' 17 2 != 0b11#2

/-- A Finite bundle has a coefficient of at most `10^16 − 1`; other kinds ignore the field (R39). -/
def bundleCoeffOk (b a : Word) : Bool :=
  b.extractLsb' 17 2 != 0b00#2 || decide ((a.extractLsb' 0 54).toNat ≤ Machine.cMax)

/-- A Finite bundle has an exponent in −398..369; other kinds ignore the field (R39). -/
def bundleExpOk (b : Word) : Bool :=
  b.extractLsb' 17 2 != 0b00#2 ||
    (decide (Machine.eMin ≤ (b.extractLsb' 0 16).toInt) && decide ((b.extractLsb' 0 16).toInt ≤ Machine.eMax))

/-- The well-formed bundles of ENC (R39, R53). -/
def bundleWellFormed (b a : Word) : Bool := bundleKindOk b && bundleCoeffOk b a && bundleExpOk b

/-- The op codes that name a function of the request port, `0x0` to `0x9` (R41, R43). -/
def Instr.isExternal (i : Instr) : Bool := decide (i.opcode.toNat < 10)

/-- The requests that do not halt CORE (R43, R147 items 4 and 5): a legal op code, and for ENC a well-formed
bundle. "every value of `a` and `b` is a legal operand of every legal op code ... except the ill-formed
bundles of ENC". -/
def Instr.legalRequest (i : Instr) : Bool :=
  match i with
  | .enc b a => bundleWellFormed b a
  | i => i.isExternal

end Sys2Proof
end

