-- ==== Sys2Proof/Safety.lean ====
section
/-! DEFINITION. What claims are stated in: the value of a logical value and its equalities, canonical patterns,
correct rounding stated without an algorithm, what a transaction leaves behind, and the state invariant
(spec 00_scope.md R8; 30_encoding.md R36; 46_divide.md R103; 47_sqrt.md R113; 10_state.md R10, R18). -/

namespace Sys2Proof

open Machine

/-- `value(Finite(s, c, e)) = (−1)^s · c · 10^e` (R8); 0 for the kinds that have no value. -/
def LogicalValue.value : LogicalValue → ℚ
  | .finite s c e => (if s then -1 else 1) * c * (10 : ℚ) ^ e
  | .inf _ => 0
  | .nan _ => 0

/-- Value equality of patterns, `veq` (R8): same kind; both NaN, or Infinity of one sign, or Finite of one
sign and value. -/
def veq (x y : Word) : Bool :=
  match codecDecode x, codecDecode y with
  | .nan _, .nan _ => true
  | .inf s, .inf s' => s == s'
  | .finite s c e, .finite s' c' e' =>
    s == s' && decide ((LogicalValue.finite s c e).value = (LogicalValue.finite s' c' e').value)
  | _, _ => false

/-- The declets that are not one of the 24 redundant ones, "those with `v w x = 1 1 1`, `s t = 1 1` and
`p q ≠ 0 0`" (R36). -/
def canonicalDeclet (T : BitVec 10) : Bool :=
  !(T.getLsbD 3 && T.getLsbD 2 && T.getLsbD 1 && T.getLsbD 6 && T.getLsbD 5 && (T.getLsbD 9 || T.getLsbD 8))

/-- The canonical patterns by their bits (R36): no trailing bits below a NaN or Infinity tag, no redundant
declet in a Finite pattern. -/
def canonicalPattern (p : Word) : Bool :=
  if fieldG p = nanTag ∨ fieldG p = infTag then decide (p.extractLsb' 0 58 = 0)
  else canonicalDeclet (fieldT p 4) && canonicalDeclet (fieldT p 3) && canonicalDeclet (fieldT p 2) &&
    canonicalDeclet (fieldT p 1) && canonicalDeclet (fieldT p 0)

/-- The coefficients and exponents of the format (R15). -/
def FormatPair (c : Nat) (e : Int) : Prop := c ≤ cMax ∧ eMin ≤ e ∧ e ≤ eMax

/-- The magnitude from which on a value rounds beyond the greatest finite one: half a unit above
`(10^16 − 1) · 10^369` (R76). -/
noncomputable def overflowBound : ℝ := ((10 : ℝ) ^ (16 : ℕ) - 1 / 2) * (10 : ℝ) ^ (369 : ℕ)

/-- The magnitude of a coefficient and exponent. -/
noncomputable def magnitude (c : Nat) (e : Int) : ℝ := (c : ℝ) * (10 : ℝ) ^ e

/-- A Finite result `(c, e)` of the exact magnitude `m` with the ideal exponent `ideal`: the nearest member of
the format, ties to even; exact results take the member whose exponent is closest to the ideal one, inexact
results have 16 digits or the least exponent (R76, R103). -/
def NearestPair (m : ℝ) (ideal : Int) (c : Nat) (e : Int) : Prop :=
  FormatPair c e ∧ m < overflowBound ∧
  (∀ c' e', FormatPair c' e' → |magnitude c e - m| ≤ |magnitude c' e' - m|) ∧
  (∀ c' e', FormatPair c' e' → magnitude c' e' ≠ magnitude c e →
    |magnitude c e - m| = |magnitude c' e' - m| → c % 2 = 0) ∧
  (magnitude c e = m → ∀ c' e', FormatPair c' e' → magnitude c' e' = m → |e - ideal| ≤ |e' - ideal|) ∧
  (magnitude c e ≠ m → 10 ^ 15 ≤ c ∨ e = eMin)

/-- The sign of a result agrees with the sign of the exact value, where that is not 0 (R76). -/
def SignAgrees (v : ℝ) (s : Bool) : Prop := (v < 0 → s = true) ∧ (0 < v → s = false)

/-- The logical value `Finite(sign of i, |i|, 0)` of an integer (R120). -/
def integerValue (i : Int) : LogicalValue := .finite (decide (i < 0)) i.natAbs 0

/-- The integer part of a rational, "truncation toward zero" (R122). -/
def truncateRat (v : ℚ) : Int := if 0 ≤ v then ⌊v⌋ else ⌈v⌉

/-- `x` is the one correct rounding of the exact value `v` with the ideal exponent `ideal` (R76, R103, R113):
never NaN, an Infinity exactly from the overflow bound on. -/
def RoundsTo (v : ℝ) (ideal : Int) : LogicalValue → Prop
  | .finite s c e => SignAgrees v s ∧ NearestPair |v| ideal c e
  | .inf s => SignAgrees v s ∧ overflowBound ≤ |v|
  | .nan _ => False

namespace Machine

/-- What a transaction on the request port never changes: the table, the pins and requests of the host, the
host's record, the internal ports, the edge count. -/
def SameElsewhere (s t : State) : Prop :=
  t.lut = s.lut ∧ t.rst = s.rst ∧ t.requests = s.requests ∧ t.rspReady = s.rspReady ∧
  t.delivered = s.delivered ∧ t.call = s.call ∧ t.blocks = s.blocks ∧ t.tick = s.tick

/-- `t` is `s` after a transaction with the normal response `r` (R18): HALT and FCODE as before, the response
behind the older ones with a bounded latency, everything else but the port's busy time unchanged. -/
def Answered (s t : State) (r : Wide) : Prop :=
  t.halt = s.halt ∧ t.fcode = s.fcode ∧
  (∃ w, w ≤ Config.latencyBound ∧
    t.inFlight = s.inFlight ++ [{ wait := w, response := { fatal := false, fcode := 0, r := r } }]) ∧
  SameElsewhere s t

/-- `t` is `s` after a transaction that met the fatal condition with this code (R18, R136): HALT set, FCODE the
code, a fatal response of unspecified `r` behind the older ones, everything else but the port's busy time (free, R149)
unchanged. -/
def FatallyAnswered (s t : State) (code : BitVec 3) : Prop :=
  t.halt = true ∧ t.fcode = code ∧
  (∃ w r, w ≤ Config.latencyBound ∧
    t.inFlight = s.inFlight ++ [{ wait := w, response := { fatal := true, fcode := code, r := r } }]) ∧
  SameElsewhere s t

/-- A normal response with the canonical pattern of a logical value, the upper half of `rsp_r` 0 (R41, R75). -/
def AnsweredValue (s t : State) (z : LogicalValue) : Prop :=
  ∃ p, codecEncode z = .ok p ∧ Answered s t (narrowResult p)

/-- What an internal call changes besides the result ports it writes: the call is over (R60 to R62, R70). -/
def CallOver (s t : State) : Prop :=
  t.call = none ∧ t.lut = s.lut ∧ t.halt = s.halt ∧ t.fcode = s.fcode ∧ t.rst = s.rst ∧
  t.requests = s.requests ∧ t.rspReady = s.rspReady ∧ t.inFlight = s.inFlight ∧
  t.delivered = s.delivered ∧ t.busy = s.busy ∧ t.tick = s.tick

/-- A response as R42 allows it: code 0 when normal, one of the codes 1 to 4 when fatal (R131). -/
def Response.Sane (x : Response) : Prop :=
  (x.fatal = false → x.fcode = 0) ∧ (x.fatal = true → 1 ≤ x.fcode.toNat ∧ x.fcode.toNat ≤ 4)

/-- The invariant of the machine: the table holds the powers of ten (R73); FCODE is 0 exactly while HALT is 0,
and never a reserved code (R131, R136); responses are as R42 allows, none in flight is fatal while HALT is 0,
and a fatal one in flight carries FCODE (R136); latencies and capacity stay in their bounds (R147, R149);
exactly one output of WCMP is 1 (R62). -/
def State.Sane (s : State) : Prop :=
  s.lut = lutContents ∧
  (s.halt = false ↔ s.fcode = 0) ∧ s.fcode.toNat ≤ 4 ∧
  (∀ t ∈ s.inFlight, t.response.Sane ∧ t.wait ≤ Config.latencyBound) ∧
  (∀ x ∈ s.delivered, x.Sane) ∧
  (∀ t ∈ s.inFlight, t.response.fatal = true → s.halt = true ∧ t.response.fcode = s.fcode) ∧
  s.inFlight.length ≤ 1 + Config.extraCapacity ∧
  (s.blocks.cmpLt.toNat + s.blocks.cmpEq.toNat + s.blocks.cmpGt.toNat = 1)

/-- A run that keeps the hazards 4 and 5 of R147: CORE is not halted, no internal call is presented, and every
request the host offers is legal. -/
def State.HostSafe (s : State) : Prop :=
  s.halt = false ∧ s.call = none ∧ ∀ w ∈ s.requests, (decodeRequest w).legalRequest = true

end Machine

end Sys2Proof
end

