-- ==== Sys2Proof/Certificates/Slice0/Obligations.lean ====
section
/-! DEFINITION. The statements for the provers, in the order of OBLIGATIONS.json: encodings and codec, the functions
of the request port, the internal functions, the machine, chains of functions, datapaths. -/

open Sys2Proof Sys2Proof.Machine

/-- R41: the request word is `op ∥ b ∥ a`. Decoding the word of an instruction gives it back with every bit of both
operand fields, also through `decodeTableWord`, and encoding what a word decodes to gives the word back. -/
def Obligations.RequestWordRoundTrip : Prop :=
  (∀ i : Instr, decodeRequest i.encode = i ∧ decodeTableWord 136 i.encode.toNat = some i) ∧
  (∀ w : RequestWord, (decodeRequest w).encode = w)

/-- Request words written out by hand from R41 (95_test_vectors.md section 3) decode to their instructions. That a
set bit above the 132 is rejected (last clause) is the model's choice, notes/assumptions/14.md. -/
def Obligations.RequestWordsOfTheSpecDecode : Prop :=
  decodeTableWord 136 0x600000000000000000000000000000003 = some (.i2d 0 3) ∧
  decodeTableWord 136 0x422380000000000102238000000000001 = some (.div 0x2238000000000010 0x2238000000000001) ∧
  decodeTableWord 136 0x26DF8FF3FCFF3FCFF2238000000000001 = some (.sub 0x6DF8FF3FCFF3FCFF 0x2238000000000001) ∧
  decodeTableWord 136 0x900000000000500000000000000000000 = some (.enc 0x0000000000050000 0) ∧
  decodeTableWord 136 0xEA238000000000005A238000000000005 = some (.reservedE 0xA238000000000005 0xA238000000000005) ∧
  decodeTableWord 136 (2 ^ 132) = none

/-- R34 to R36: `dpd_dec(dpd_enc(n)) = n` for all 1000 numbers, every declet decodes below 1000, and re-encoding a
declet gives it back exactly when it is not one of the redundant ones. -/
def Obligations.DecletsRoundTrip : Prop :=
  (∀ n < 1000, dpdDec (dpdEnc n) = n) ∧
  (∀ T : BitVec 10, dpdDec T < 1000 ∧ (dpdEnc (dpdDec T) = T ↔ canonicalDeclet T = true))

/-- R54, first law: `decode(encode(x)) = x` for every well-formed logical value, and the pattern is canonical. -/
def Obligations.DecodeInvertsEncode : Prop :=
  ∀ x : LogicalValue, x.isWellFormed = true →
    ∃ p, codecEncode x = .ok p ∧ codecDecode p = x ∧ canonicalPattern p = true

/-- R54, second law, with R36: `encode(decode(p)) = p` exactly when `p` is canonical, and in every case
`encode(decode(p))` is a pattern of the same logical value. -/
def Obligations.EncodeInvertsDecodeOnCanonical : Prop :=
  ∀ p : Word, (∃ q, codecEncode (codecDecode p) = .ok q ∧ codecDecode q = codecDecode p) ∧
    (codecEncode (codecDecode p) = .ok p ↔ canonicalPattern p = true)

/-- R50, R15: "every 64-bit pattern decodes to some logical value", and it is well-formed. -/
def Obligations.DecodeIsWellFormed : Prop := ∀ p : Word, (codecDecode p).isWellFormed = true

/-- R85: NEG returns a NaN pattern bit for bit and otherwise inverts bit 63 and nothing else; it always completes
(the port's busy time, free by R149, is not spoken of),
and applied twice it is the identity. -/
def Obligations.NegFlipsOnlyTheSignBit : Prop :=
  (∀ (b a : Word) (s : State), ∃ t, exec (.neg b a) s = .next t ∧ Answered s t (narrowResult
    (if a.extractLsb' 58 5 = 0b11111#5 then a else (BitVec.ofBool (!a.getLsbD 63) ++ a.extractLsb' 0 63 : Word)))) ∧
  (∀ a : Word, negate (negate a) = a)

/-- R86, R76: for Finite operands ADD completes with the correct rounding of the exact sum, ideal exponent
`min(ea, eb)`. -/
def Obligations.AddFiniteCorrectlyRounded : Prop :=
  ∀ (b a : Word) (s : State) (sa sb : Bool) (ca cb : Nat) (ea eb : Int),
    codecDecode a = .finite sa ca ea → codecDecode b = .finite sb cb eb →
    ∃ t z, exec (.add b a) s = .next t ∧ AnsweredValue s t z ∧
      RoundsTo ((codecDecode a).value + (codecDecode b).value : ℚ) (min ea eb) z

/-- R90: the sign and exponent of a zero sum: minus exactly when both operands are negative. -/
def Obligations.AddZeroSumSign : Prop :=
  ∀ (b a : Word) (s : State) (sa sb : Bool) (ca cb : Nat) (ea eb : Int),
    codecDecode a = .finite sa ca ea → codecDecode b = .finite sb cb eb →
    (codecDecode a).value + (codecDecode b).value = 0 →
    ∃ t, exec (.add b a) s = .next t ∧ AnsweredValue s t (.finite (sa && sb) 0 (min ea eb))

/-- R88: the NaN and Infinity rows of ADD. -/
def Obligations.AddSpecialOperands : Prop :=
  ∀ (b a : Word) (s : State),
    (∀ n, codecDecode a = .nan n ∨ codecDecode b = .nan n →
      ∃ t, exec (.add b a) s = .next t ∧ AnsweredValue s t (.nan false)) ∧
    (∀ sx, codecDecode a = .inf sx → codecDecode b = .inf sx →
      ∃ t, exec (.add b a) s = .next t ∧ AnsweredValue s t (.inf sx)) ∧
    (∀ sx, codecDecode a = .inf sx → codecDecode b = .inf (!sx) →
      ∃ t, exec (.add b a) s = .next t ∧ AnsweredValue s t (.nan false)) ∧
    (∀ sx sb cb eb, codecDecode a = .inf sx → codecDecode b = .finite sb cb eb →
      ∃ t, exec (.add b a) s = .next t ∧ AnsweredValue s t (.inf sx)) ∧
    (∀ sa ca ea sy, codecDecode a = .finite sa ca ea → codecDecode b = .inf sy →
      ∃ t, exec (.add b a) s = .next t ∧ AnsweredValue s t (.inf sy))

/-- R87, R76: for Finite operands SUB completes with the correct rounding of the exact difference. -/
def Obligations.SubFiniteCorrectlyRounded : Prop :=
  ∀ (b a : Word) (s : State) (sa sb : Bool) (ca cb : Nat) (ea eb : Int),
    codecDecode a = .finite sa ca ea → codecDecode b = .finite sb cb eb →
    ∃ t z, exec (.sub b a) s = .next t ∧ AnsweredValue s t z ∧
      RoundsTo ((codecDecode a).value - (codecDecode b).value : ℚ) (min ea eb) z

/-- R87: SUB completes with the response of `ADD(a, NEG(b))`, where a NaN `b` is left unchanged. -/
def Obligations.SubIsAddOfNegated : Prop :=
  ∀ (b a : Word) (s : State), ∃ t t' r,
    exec (.sub b a) s = .next t ∧ Answered s t r ∧
    exec (.add (if b.extractLsb' 58 5 = 0b11111#5 then b
      else (BitVec.ofBool (!b.getLsbD 63) ++ b.extractLsb' 0 63 : Word)) a) s = .next t' ∧ Answered s t' r

/-- R88, R90 read for SUB: NaN and Infinity operands, and the sign of a zero difference. -/
def Obligations.SubSpecialOperands : Prop :=
  ∀ (b a : Word) (s : State),
    (∀ n, codecDecode a = .nan n ∨ codecDecode b = .nan n →
      ∃ t, exec (.sub b a) s = .next t ∧ AnsweredValue s t (.nan false)) ∧
    (∀ sx, codecDecode a = .inf sx → codecDecode b = .inf sx →
      ∃ t, exec (.sub b a) s = .next t ∧ AnsweredValue s t (.nan false)) ∧
    (∀ sx, codecDecode a = .inf sx → codecDecode b = .inf (!sx) →
      ∃ t, exec (.sub b a) s = .next t ∧ AnsweredValue s t (.inf sx)) ∧
    (∀ sx sb cb eb, codecDecode a = .inf sx → codecDecode b = .finite sb cb eb →
      ∃ t, exec (.sub b a) s = .next t ∧ AnsweredValue s t (.inf sx)) ∧
    (∀ sa ca ea sy, codecDecode a = .finite sa ca ea → codecDecode b = .inf sy →
      ∃ t, exec (.sub b a) s = .next t ∧ AnsweredValue s t (.inf !sy)) ∧
    (∀ sa ca ea sb cb eb, codecDecode a = .finite sa ca ea → codecDecode b = .finite sb cb eb →
      (codecDecode a).value = (codecDecode b).value →
      ∃ t, exec (.sub b a) s = .next t ∧ AnsweredValue s t (.finite (sa && !sb) 0 (min ea eb)))

/-- R95, R76: for Finite operands MUL completes with the correct rounding of the exact product, ideal exponent
`ea + eb`, and the exclusive or of the signs, zeros included. -/
def Obligations.MulFiniteCorrectlyRounded : Prop :=
  ∀ (b a : Word) (s : State) (sa sb : Bool) (ca cb : Nat) (ea eb : Int),
    codecDecode a = .finite sa ca ea → codecDecode b = .finite sb cb eb →
    ∃ t z, exec (.mul b a) s = .next t ∧ AnsweredValue s t z ∧ z.signOf = (sa ^^ sb) ∧
      RoundsTo ((codecDecode a).value * (codecDecode b).value : ℚ) (ea + eb) z

/-- R96: the NaN and Infinity rows of MUL. -/
def Obligations.MulSpecialOperands : Prop :=
  ∀ (b a : Word) (s : State),
    (∀ n, codecDecode a = .nan n ∨ codecDecode b = .nan n →
      ∃ t, exec (.mul b a) s = .next t ∧ AnsweredValue s t (.nan false)) ∧
    (∀ sx sy, codecDecode a = .inf sx → codecDecode b = .inf sy →
      ∃ t, exec (.mul b a) s = .next t ∧ AnsweredValue s t (.inf (sx ^^ sy))) ∧
    (∀ sx sy cy ey, codecDecode a = .inf sx → codecDecode b = .finite sy cy ey →
      ∃ t, exec (.mul b a) s = .next t ∧ AnsweredValue s t (if cy = 0 then .nan false else .inf (sx ^^ sy))) ∧
    (∀ sx cx ex sy, codecDecode a = .finite sx cx ex → codecDecode b = .inf sy →
      ∃ t, exec (.mul b a) s = .next t ∧ AnsweredValue s t (if cx = 0 then .nan false else .inf (sx ^^ sy)))

/-- R100, R102, R103: for Finite operands and a non-zero divisor DIV completes with the correct rounding of the exact
quotient, ideal exponent `ea − eb`, and the exclusive or of the signs, zero dividends included. -/
def Obligations.DivFiniteCorrectlyRounded : Prop :=
  ∀ (b a : Word) (s : State) (sa sb : Bool) (ca cb : Nat) (ea eb : Int),
    codecDecode a = .finite sa ca ea → codecDecode b = .finite sb cb eb → cb ≠ 0 →
    ∃ t z, exec (.div b a) s = .next t ∧ AnsweredValue s t z ∧ z.signOf = (sa ^^ sb) ∧
      RoundsTo ((codecDecode a).value / (codecDecode b).value : ℚ) (ea - eb) z

/-- R101: the NaN, zero-divisor and Infinity rows of DIV; a zero divisor gives NaN for every dividend. -/
def Obligations.DivSpecialOperands : Prop :=
  ∀ (b a : Word) (s : State),
    (∀ n, codecDecode a = .nan n ∨ codecDecode b = .nan n →
      ∃ t, exec (.div b a) s = .next t ∧ AnsweredValue s t (.nan false)) ∧
    (∀ sb eb, codecDecode b = .finite sb 0 eb →
      ∃ t, exec (.div b a) s = .next t ∧ AnsweredValue s t (.nan false)) ∧
    (∀ sx sy, codecDecode a = .inf sx → codecDecode b = .inf sy →
      ∃ t, exec (.div b a) s = .next t ∧ AnsweredValue s t (.nan false)) ∧
    (∀ sx sy cb eb, codecDecode a = .inf sx → codecDecode b = .finite sy cb eb → cb ≠ 0 →
      ∃ t, exec (.div b a) s = .next t ∧ AnsweredValue s t (.inf (sx ^^ sy))) ∧
    (∀ sx cx ex sy, codecDecode a = .finite sx cx ex → codecDecode b = .inf sy →
      ∃ t, exec (.div b a) s = .next t ∧ AnsweredValue s t (.finite (sx ^^ sy) 0 0))

/-- R110, R112, R113: for a positive Finite operand SQRT completes with the correct rounding of the exact root; an
exact root has the exponent `floor2(e)`. -/
def Obligations.SqrtPositiveCorrectlyRounded : Prop :=
  ∀ (b a : Word) (s : State) (c : Nat) (e : Int), codecDecode a = .finite false c e → c ≠ 0 →
    ∃ t c' e', exec (.sqrt b a) s = .next t ∧ AnsweredValue s t (.finite false c' e') ∧
      RoundsTo (Real.sqrt ((codecDecode a).value : ℝ)) (floor2 e) (.finite false c' e') ∧
      (magnitude c' e' = Real.sqrt ((codecDecode a).value : ℝ) → e' = floor2 e)

/-- R111: the NaN, Infinity, zero and negative rows of SQRT; a negative zero keeps its sign. -/
def Obligations.SqrtSpecialOperands : Prop :=
  ∀ (b a : Word) (s : State),
    (∀ n, codecDecode a = .nan n → ∃ t, exec (.sqrt b a) s = .next t ∧ AnsweredValue s t (.nan false)) ∧
    (codecDecode a = .inf false → ∃ t, exec (.sqrt b a) s = .next t ∧ AnsweredValue s t (.inf false)) ∧
    (codecDecode a = .inf true → ∃ t, exec (.sqrt b a) s = .next t ∧ AnsweredValue s t (.nan false)) ∧
    (∀ sg e, codecDecode a = .finite sg 0 e →
      ∃ t, exec (.sqrt b a) s = .next t ∧ AnsweredValue s t (.finite sg 0 (floor2 e))) ∧
    (∀ c e, codecDecode a = .finite true c e → c ≠ 0 →
      ∃ t, exec (.sqrt b a) s = .next t ∧ AnsweredValue s t (.nan false))

/-- R120, R121: I2D completes for every int64 with the correct rounding of the integer, ideal exponent 0; below
`10^16` in magnitude the result is exact, with coefficient `|i|` and exponent 0. -/
def Obligations.I2dCorrectlyRounded : Prop :=
  ∀ (b a : Word) (s : State),
    (∃ t z, exec (.i2d b a) s = .next t ∧ AnsweredValue s t z ∧ z.signOf = decide (a.toInt < 0) ∧
      RoundsTo (a.toInt : ℝ) 0 z) ∧
    (a.toInt.natAbs < 10 ^ 16 → ∃ t, exec (.i2d b a) s = .next t ∧ AnsweredValue s t (integerValue a.toInt))

/-- R122: on a Finite operand whose integer part fits an int64, D2I completes with the truncation toward zero. -/
def Obligations.D2iTruncatesTowardZero : Prop :=
  ∀ (b a : Word) (s : State) (sg : Bool) (c : Nat) (e : Int), codecDecode a = .finite sg c e →
    -2 ^ 63 ≤ truncateRat (codecDecode a).value → truncateRat (codecDecode a).value ≤ 2 ^ 63 - 1 →
    ∃ t, exec (.d2i b a) s = .next t ∧
      Answered s t (narrowResult (BitVec.ofInt 64 (truncateRat (codecDecode a).value)))

/-- R123: on NaN, Infinity, or an integer part outside int64, D2I completes with a normal response whose upper half
is 0; nothing is said of the 64 bits. -/
def Obligations.D2iOutsideDomainIsNormal : Prop :=
  ∀ (b a : Word) (s : State),
    ((∃ n, codecDecode a = .nan n) ∨ (∃ n, codecDecode a = .inf n) ∨
      truncateRat (codecDecode a).value < -2 ^ 63 ∨ 2 ^ 63 ≤ truncateRat (codecDecode a).value) →
    ∃ t w, exec (.d2i b a) s = .next t ∧ Answered s t (narrowResult w)

/-- R52, R39: DEC completes for every pattern with the bundle of its logical value: kind, sign, exponent and
coefficient in their fields, 0 in both for Infinity and NaN, reserved bits 0. -/
def Obligations.DecGivesTheBundle : Prop :=
  ∀ (b a : Word) (s : State), ∃ t r, exec (.dec b a) s = .next t ∧ Answered s t r ∧
    r.extractLsb' 83 45 = 0 ∧ r.extractLsb' 54 10 = 0 ∧ r.getLsbD 80 = (codecDecode a).signOf ∧
    (∀ n, codecDecode a = .nan n →
      r.extractLsb' 81 2 = 0b10#2 ∧ r.extractLsb' 64 16 = 0 ∧ r.extractLsb' 0 54 = 0) ∧
    (∀ n, codecDecode a = .inf n →
      r.extractLsb' 81 2 = 0b01#2 ∧ r.extractLsb' 64 16 = 0 ∧ r.extractLsb' 0 54 = 0) ∧
    (∀ n c e, codecDecode a = .finite n c e →
      r.extractLsb' 81 2 = 0b00#2 ∧ (r.extractLsb' 64 16).toInt = e ∧ (r.extractLsb' 0 54).toNat = c)

/-- R53: on a well-formed bundle ENC completes with the canonical pattern of its logical value; for the kinds
Infinity and QuietNaN the other fields are ignored. -/
def Obligations.EncEncodesWellFormedBundles : Prop :=
  ∀ (b a : Word) (s : State), bundleWellFormed b a = true →
    (b.extractLsb' 17 2 = 0b10#2 →
      ∃ t, exec (.enc b a) s = .next t ∧ AnsweredValue s t (.nan (b.getLsbD 16))) ∧
    (b.extractLsb' 17 2 = 0b01#2 →
      ∃ t, exec (.enc b a) s = .next t ∧ AnsweredValue s t (.inf (b.getLsbD 16))) ∧
    (b.extractLsb' 17 2 = 0b00#2 →
      ∃ t, exec (.enc b a) s = .next t ∧
        AnsweredValue s t (.finite (b.getLsbD 16) (a.extractLsb' 0 54).toNat (b.extractLsb' 0 16).toInt))

/-- R133: ENC meets CODEC_INVARIANT when the bundle has kind 11, or kind 00 with a coefficient above
9999999999999999 or an exponent outside −398..369. -/
def Obligations.EncIllFormedBundleIsFatal : Prop :=
  ∀ (b a : Word) (s : State),
    (b.extractLsb' 17 2 = 0b11#2 ∨ (b.extractLsb' 17 2 = 0b00#2 ∧ (9999999999999999 < (a.extractLsb' 0 54).toNat ∨
      (b.extractLsb' 0 16).toInt < -398 ∨ 369 < (b.extractLsb' 0 16).toInt))) →
    ∃ t, exec (.enc b a) s = .next t ∧ FatallyAnswered s t 2#3

/-- R147 item 4: "`ENC(DEC(p))` is always safe and gives the canonical form of `p`". -/
def Obligations.EncOfDecIsCanonical : Prop :=
  ∀ (p b : Word) (s s' : State), ∃ t r, exec (.dec b p) s = .next t ∧ Answered s t r ∧
    ∃ t' q, exec (.enc (wideHi r) (wideLo r)) s' = .next t' ∧ Answered s' t' (narrowResult q) ∧
      codecDecode q = codecDecode p ∧ canonicalPattern q = true

/-- R60: WMUL gives the exact product. That a call is presented on the internal ports, ends at the step that runs it
and leaves every port but `mulP` as it was is the model's choice, log 8. -/
def Obligations.WmulGivesTheProduct : Prop :=
  ∀ (b a : Word) (s : State) (n : Nat), s.call = some { fn := .wmul, younger := n } →
    ∃ t, exec (.wmul b a) s = .next t ∧ CallOver s t ∧ t.blocks = { s.blocks with mulP := t.blocks.mulP } ∧
      t.blocks.mulP.toNat = s.blocks.mulX.toNat * s.blocks.mulY.toNat

/-- R61: WDIV with a non-zero divisor gives `n = q·d + r`, `r < d`. That a call is presented on the internal ports,
ends at the step that runs it and leaves every port but `divQ`, `divR` as it was is the model's choice, log 8. -/
def Obligations.WdivGivesQuotientAndRemainder : Prop :=
  ∀ (b a : Word) (s : State) (n : Nat), s.call = some { fn := .wdiv, younger := n } → s.blocks.divD ≠ 0 →
    ∃ t, exec (.wdiv b a) s = .next t ∧ CallOver s t ∧
      t.blocks = { s.blocks with divQ := t.blocks.divQ, divR := t.blocks.divR } ∧
      s.blocks.divN.toNat = t.blocks.divQ.toNat * s.blocks.divD.toNat + t.blocks.divR.toNat ∧
      t.blocks.divR.toNat < s.blocks.divD.toNat

/-- R62: WCMP gives the three outputs of the unsigned comparison, exactly one of them 1. That a call is presented on
the internal ports, ends at the step that runs it and leaves every other port as it was is the model's choice, log 8. -/
def Obligations.WcmpComparesMagnitudes : Prop :=
  ∀ (b a : Word) (s : State) (n : Nat), s.call = some { fn := .wcmp, younger := n } →
    ∃ t, exec (.wcmp b a) s = .next t ∧ CallOver s t ∧
      t.blocks = { s.blocks with cmpLt := t.blocks.cmpLt, cmpEq := t.blocks.cmpEq, cmpGt := t.blocks.cmpGt } ∧
      (t.blocks.cmpLt = true ↔ s.blocks.cmpX.toNat < s.blocks.cmpY.toNat) ∧
      (t.blocks.cmpEq = true ↔ s.blocks.cmpX = s.blocks.cmpY) ∧
      (t.blocks.cmpGt = true ↔ s.blocks.cmpY.toNat < s.blocks.cmpX.toNat) ∧
      t.blocks.cmpLt.toNat + t.blocks.cmpEq.toNat + t.blocks.cmpGt.toNat = 1

/-- R70: P10 with an index below 39 gives the entry of the table, which is `10^k` where the table is that of R71.
That a call is presented on the internal port, ends at the step that runs it and leaves every port but `lutW` as it
was is the model's choice, log 8. -/
def Obligations.P10ReadsTheTable : Prop :=
  ∀ (b a : Word) (s : State) (n : Nat), s.call = some { fn := .p10, younger := n } →
    ∀ h : s.blocks.lutK.toNat < 39,
    ∃ t, exec (.p10 b a) s = .next t ∧ CallOver s t ∧ t.blocks = { s.blocks with lutW := t.blocks.lutW } ∧
      t.blocks.lutW = s.lut[s.blocks.lutK.toNat] ∧
      (s.lut = lutContents → t.blocks.lutW.toNat = 10 ^ s.blocks.lutK.toNat)

/-- R136, last sentences, with R132 and R134: WDIV by 0 and a table index of 39 or more, met in an internal call,
set HALT and FCODE; the calling transaction and every younger one are answered fatally with the code, the older
ones are unchanged. The model's choices of log 8 and 9: the presented call and its end, the number `n` of younger
transactions it carries, all transactions answered fatally if there are not more than `n`, the latencies and the
ports unchanged, an offered response rewritten too. -/
def Obligations.InternalFatalPoisonsYounger : Prop :=
  ∀ (b a : Word) (s : State) (n : Nat) (i : Instr) (code : BitVec 3),
    ((i = .wdiv b a ∧ s.call = some { fn := .wdiv, younger := n } ∧ s.blocks.divD = 0 ∧ code = 3#3) ∨
      (i = .p10 b a ∧ s.call = some { fn := .p10, younger := n } ∧ 39 ≤ s.blocks.lutK.toNat ∧ code = 1#3)) →
    ∃ t, exec i s = .next t ∧ t.halt = true ∧ t.fcode = code ∧ t.call = none ∧ t.lut = s.lut ∧
      t.blocks = s.blocks ∧ t.requests = s.requests ∧ t.delivered = s.delivered ∧ t.rst = s.rst ∧
      t.rspReady = s.rspReady ∧ t.busy = s.busy ∧ t.tick = s.tick ∧ t.inFlight.length = s.inFlight.length ∧
      (∀ k, k + (n + 1) < s.inFlight.length → t.inFlight[k]? = s.inFlight[k]?) ∧
      (∀ k u, s.inFlight.length ≤ k + (n + 1) → s.inFlight[k]? = some u →
        ∃ r, t.inFlight[k]? = some { wait := u.wait, response := { fatal := true, fcode := code, r := r } })

/-- R135, R43: on the request port the six op codes `0xA` to `0xF` are answered with ILLEGAL_OP, whatever the
operands (the effect is that of R136 and R18, which leave the port's busy time open, R149); the two reserved ones in
every state. -/
def Obligations.IllegalOpCodesAreFatal : Prop :=
  ∀ (b a : Word) (s : State),
    (s.call = none →
      (∃ t, exec (.wmul b a) s = .next t ∧ FatallyAnswered s t 4#3) ∧
      (∃ t, exec (.wdiv b a) s = .next t ∧ FatallyAnswered s t 4#3) ∧
      (∃ t, exec (.wcmp b a) s = .next t ∧ FatallyAnswered s t 4#3) ∧
      (∃ t, exec (.p10 b a) s = .next t ∧ FatallyAnswered s t 4#3)) ∧
    (∃ t, exec (.reservedE b a) s = .next t ∧ FatallyAnswered s t 4#3) ∧
    (∃ t, exec (.reservedF b a) s = .next t ∧ FatallyAnswered s t 4#3)

/-- R76: `finalize` is the correct rounding of `(−1)^s · (C + f) · 10^e`, ties to even, for every coefficient and
exponent of any size; with `sticky` for every fraction `0 < f < 1` under the precondition `C ≥ 10^16`; it keeps the
sign. -/
def Obligations.FinalizeCorrectlyRounded : Prop :=
  ∀ (s : Bool) (C : Nat) (sticky : Bool) (e : Int) (f : ℝ),
    (sticky = true → 10 ^ 16 ≤ C ∧ 0 < f ∧ f < 1) → (sticky = false → f = 0) →
    RoundsTo ((if s then -1 else 1) * (((C : ℝ) + f) * (10 : ℝ) ^ e)) e (finalize s C sticky e) ∧
      (finalize s C sticky e).signOf = s

/-- R75: every pattern ADD, SUB, MUL, DIV, SQRT or I2D answers is canonical. -/
def Obligations.ArithmeticResultsAreCanonical : Prop :=
  ∀ (b a p : Word) (i : Instr) (s t : State),
    i ∈ [Instr.add b a, .sub b a, .mul b a, .div b a, .sqrt b a, .i2d b a] →
    exec i s = .next t → Answered s t (narrowResult p) → canonicalPattern p = true

/-- R86, R95: "ADD is commutative on logical values", and so is MUL: the responses of both operand orders agree. -/
def Obligations.AddAndMulCommute : Prop :=
  ∀ (b a : Word) (s : State),
    (∃ t t' r, exec (.add b a) s = .next t ∧ exec (.add a b) s = .next t' ∧ Answered s t r ∧ Answered s t' r) ∧
    (∃ t t' r, exec (.mul b a) s = .next t ∧ exec (.mul a b) s = .next t' ∧ Answered s t r ∧ Answered s t' r)

/-- R44: for NEG, SQRT, I2D and DEC, and for D2I inside its domain, any value of `b` gives the same response; for
ENC the bits `a[63:54]` and `b[63:19]` have no effect. Outside the domain of D2I the free value of R123 (log 4) is not
compared. -/
def Obligations.IgnoredFieldsHaveNoEffect : Prop :=
  (∀ (b b' a : Word) (s : State) (i i' : Instr),
    (i, i') ∈ [(Instr.neg b a, Instr.neg b' a), (.sqrt b a, .sqrt b' a), (.i2d b a, .i2d b' a),
      (.dec b a, .dec b' a)] →
    ∃ t t' r, exec i s = .next t ∧ exec i' s = .next t' ∧ Answered s t r ∧ Answered s t' r) ∧
  (∀ (b b' a : Word) (s : State), (toInt64 (codecDecode a)).isSome = true →
    ∃ t t' r, exec (.d2i b a) s = .next t ∧ exec (.d2i b' a) s = .next t' ∧ Answered s t r ∧ Answered s t' r) ∧
  (∀ (b b' a a' : Word) (s : State), b.extractLsb' 0 19 = b'.extractLsb' 0 19 → a.extractLsb' 0 54 = a'.extractLsb' 0 54 →
    ∃ t t', exec (.enc b a) s = .next t ∧ exec (.enc b' a') s = .next t' ∧
      ((∃ r, Answered s t r ∧ Answered s t' r) ∨ (FatallyAnswered s t 2#3 ∧ FatallyAnswered s t' 2#3)))

/-- R43, R133, R135, R147 items 4 and 5: a request halts CORE exactly when it is not legal. -/
def Obligations.OnlyIllegalRequestsHalt : Prop :=
  ∀ (i : Instr) (s : State), s.call = none →
    ∃ t, exec i s = .next t ∧ (t.halt = true ↔ s.halt = true ∨ i.legalRequest = false)

/-- R24: the response of a transaction is a function of its own op, a, b: two machines with different histories
answer a request alike, but for the values the spec leaves open (`r` of a fatal response, D2I_INVALID). -/
def Obligations.ResponseIndependentOfHistory : Prop :=
  ∀ (i : Instr) (s₁ s₂ : State), s₁.call = none → s₂.call = none →
    ∃ t₁ t₂ w₁ w₂ x₁ x₂, exec i s₁ = .next t₁ ∧ exec i s₂ = .next t₂ ∧
      t₁.inFlight = s₁.inFlight ++ [{ wait := w₁, response := x₁ }] ∧
      t₂.inFlight = s₂.inFlight ++ [{ wait := w₂, response := x₂ }] ∧
      x₁.fatal = x₂.fatal ∧ x₁.fcode = x₂.fcode ∧
      (x₁.fatal = false → (∀ b a, i = .d2i b a → (toInt64 (codecDecode a)).isSome = true) → x₁.r = x₂.r)

/-- R18, R17, R12: when the oldest offered request is the word of `i` and `req_ready` is 1, the step is `exec` of
`i` after the edge's response handshake with the request taken from the host; with nothing in flight that is the
state with the request taken and the edge counted. That a call on the internal ports is a step of its own that runs
its table row (second clause) is the model's choice, notes/assumptions/8.md, and so is that no request is accepted at
that edge, notes/assumptions/10.md. -/
def Obligations.StepRunsTheDecodedRequest : Prop :=
  (∀ (s : State) (i : Instr) (rest : List RequestWord), s.requests = i.encode :: rest → s.reqReady = true →
    step s = exec i s.acceptEdge ∧
    (s.inFlight = [] → s.acceptEdge = { s with requests := rest, tick := s.tick + 1 })) ∧
  (∀ (s : State) (c : BlockCall), s.rst = false → s.halt = false → s.call = some c → step s = exec (callInstr c) s.edge)

/-- The host's placing of a request (log 2): whatever the state, the next step runs exactly that request, and the
other offered requests stay behind it. -/
def Obligations.PlacedRequestRunsNext : Prop :=
  ∀ (s : State) (i : Instr),
    step (s.withFetchWord 136 i.encode.toNat) = exec i (s.withFetchWord 136 i.encode.toNat).acceptEdge ∧
    (s.withFetchWord 136 i.encode.toNat).acceptEdge.requests = s.requests ∧
    (s.withFetchWord 136 i.encode.toNat).lut = s.lut

/-- R19, R145: the values reset leaves that the spec gives: HALT and FCODE 0, `LUT[k] = 10^k`, nothing in flight. -/
def Obligations.ResetState : Prop :=
  State.reset.halt = false ∧ State.reset.fcode = 0 ∧ State.reset.inFlight = [] ∧
  (∀ k, ∀ h : k < 39, State.reset.lut[k].toNat = 10 ^ k)

/-- R145: an edge at an active reset clears HALT and FCODE, discards every transaction in flight, delivers and
accepts nothing and leaves the table; meanwhile `req_ready` and `rsp_valid` are 0. -/
def Obligations.ResetEdgeClears : Prop :=
  ∀ s : State, s.rst = true → s.reqReady = false ∧ s.rspValid = false ∧
    ∃ t, step s = .next t ∧ t.halt = false ∧ t.fcode = 0 ∧ t.inFlight = [] ∧ t.lut = s.lut ∧
      t.requests = s.requests ∧ t.delivered = s.delivered ∧ t.rst = s.rst ∧ t.rspReady = s.rspReady

/-- R136, R10, R16: while HALT is 1 and `rst` is inactive `req_ready` is 0 and the pins `halted` and `fcode` show HALT
and FCODE; a step keeps all that and accepts nothing: it can only deliver a response. -/
def Obligations.HaltHoldsUntilReset : Prop :=
  ∀ s : State, s.halt = true → s.rst = false →
    s.reqReady = false ∧ s.haltedPin = true ∧ s.fcodePin = s.fcode ∧
    ∃ t, step s = .next t ∧ t.halt = true ∧ t.fcode = s.fcode ∧
      t.reqReady = false ∧ t.haltedPin = true ∧ t.fcodePin = s.fcode ∧ t.requests = s.requests ∧ t.lut = s.lut ∧
      t.rst = false ∧ t.delivered ++ t.inFlight.map Transaction.response =
        s.delivered ++ s.inFlight.map Transaction.response

/-- R136: after the fatal response is delivered, "`rsp_valid = 0` for ever": a halted machine with nothing in flight
never offers or delivers a response again, for any number of edges without reset. -/
def Obligations.HaltedMachineStaysSilent : Prop :=
  ∀ (n : Nat) (s : State), s.halt = true → s.rst = false → s.inFlight = [] →
    ∃ t, Host.Core.run core n s = .next t ∧ t.halt = true ∧ t.fcode = s.fcode ∧ t.rspValid = false ∧
      t.delivered = s.delivered ∧ t.requests = s.requests

/-- R17: "Responses are delivered in the order the requests were accepted": without reset and internal call, an edge
moves the oldest response from in flight to delivered, exactly when `rsp_valid` and `rsp_ready` are 1, and nothing
else; it adds one response at the end exactly when it takes the oldest offered request. -/
def Obligations.ResponsesKeepRequestOrder : Prop :=
  ∀ s : State, s.rst = false → s.call = none →
    ∃ t new, step s = .next t ∧
      (((s.rspValid && s.rspReady) = false ∧ t.delivered = s.delivered) ∨
        (s.rspValid = true ∧ s.rspReady = true ∧
          ∃ x rest, s.inFlight = x :: rest ∧ t.delivered = s.delivered ++ [x.response])) ∧
      t.delivered ++ t.inFlight.map Transaction.response =
        s.delivered ++ s.inFlight.map Transaction.response ++ new ∧
      ((t.requests = s.requests ∧ new = []) ∨ (new.length = 1 ∧ ∃ w, s.requests = w :: t.requests))

/-- R147 item 3: CORE holds `rsp_valid` and the response word unchanged until `rsp_ready`. -/
def Obligations.OfferedResponseIsHeld : Prop :=
  ∀ s : State, s.rspValid = true → s.rspReady = false → s.call = none →
    ∃ t, step s = .next t ∧ t.rspValid = true ∧ t.rspR = s.rspR ∧ t.rspFatal = s.rspFatal ∧
      t.rspFcode = s.rspFcode ∧ t.delivered = s.delivered

/-- R17, R149: the oldest transaction in flight is answered within its latency: with `rsp_ready` 1 and no reset, its
response is delivered after `wait + 1` edges, as the first one, while further requests may be accepted. The exact
count is that of the model's own edges (its choice, log 18; `wait` is free, log 3), and the pins `rst` and `rsp_ready`
keep their values over the run (log 2). -/
def Obligations.ResponseDeliveredWithinLatency : Prop :=
  ∀ (s : State) (x : Transaction) (rest : List Transaction),
    s.inFlight = x :: rest → s.rst = false → s.rspReady = true → s.call = none →
    ∃ t, Host.Core.run core (x.wait + 1) s = .next t ∧ t.delivered = s.delivered ++ [x.response]

/-- R147 items 4 and 5: however long it runs, with or without reset, CORE does not halt while the host offers legal
requests only. -/
def Obligations.HostSafeRunsNeverHalt : Prop :=
  ∀ (n : Nat) (s : State), s.HostSafe → ∃ t, Host.Core.run core n s = .next t ∧ t.HostSafe

/-- R10, R73, R131, R136, R147, R149, R62: every step from a sane state leads to a sane state. That the WCMP outputs
hold over a reset edge and over the other internal calls is the model's choice, log 24 and log 8. -/
def Obligations.StepKeepsSane : Prop := ∀ s t : State, s.Sane → step s = .next t → t.Sane

/-- R19, R10: the state after reset is sane. The clause that exactly one WCMP output is 1 rests on the reset values of
the internal ports, for which the spec gives none: the model's choice, notes/assumptions/11.md. -/
def Obligations.ResetIsSane : Prop := State.reset.Sane

/-- R122, R120: `D2I(I2D(i)) = i` for every integer below `10^16` in magnitude, through the two requests. -/
def Obligations.D2iInvertsI2d : Prop :=
  ∀ (i : Int) (b b' : Word) (s s' : State), i.natAbs < 10 ^ 16 →
    ∃ t p, exec (.i2d b (BitVec.ofInt 64 i)) s = .next t ∧ Answered s t (narrowResult p) ∧
      ∃ t', exec (.d2i b' p) s' = .next t' ∧ Answered s' t' (narrowResult (BitVec.ofInt 64 i))

/-- R86, R87, R95: ADD, SUB and MUL are exact on patterns of integers with exponent 0 while the result stays below
`10^16` in magnitude; the sign of a zero product is the exclusive or. -/
def Obligations.IntegerArithmeticIsExact : Prop :=
  ∀ (i j : Int) (b a : Word) (s : State), codecDecode a = integerValue i → codecDecode b = integerValue j →
    ((i + j).natAbs < 10 ^ 16 → ∃ t, exec (.add b a) s = .next t ∧ AnsweredValue s t (integerValue (i + j))) ∧
    ((i - j).natAbs < 10 ^ 16 → ∃ t, exec (.sub b a) s = .next t ∧ AnsweredValue s t (integerValue (i - j))) ∧
    ((i * j).natAbs < 10 ^ 16 → ∃ t, exec (.mul b a) s = .next t ∧
      AnsweredValue s t (.finite (decide (i < 0) ^^ decide (j < 0)) (i * j).natAbs 0))

/-- R103 item 3: for integers with `|i·j| < 10^16`, `j ≠ 0`, the quotient of the patterns of `i·j` and `j` is the
pattern of `i`, and for `i = 0` the zero with the sign of `j`. The patterns have exponent 0, so `|j| < 10^16`: for
`i = 0` and a greater `|j|` the model follows R100 and R101 (log 25), and DivFiniteCorrectlyRounded says so. -/
def Obligations.IntegerDivisionIsExact : Prop :=
  ∀ (i j : Int) (b a : Word) (s : State), j ≠ 0 → codecDecode a = integerValue (i * j) →
    codecDecode b = integerValue j →
    ∃ t, exec (.div b a) s = .next t ∧
      AnsweredValue s t (if i = 0 then .finite (decide (j < 0)) 0 0 else integerValue i)

/-- R113: for every integer `1 ≤ i ≤ 10^8`, `SQRT(I2D(i·i))` is bit-equal to `I2D(i)`, through the three requests. -/
def Obligations.SqrtOfSquareIsExact : Prop :=
  ∀ (i : Nat) (b b' b'' : Word) (s s' s'' : State), 1 ≤ i → i ≤ 10 ^ 8 →
    ∃ t p t' t'' q, exec (.i2d b (BitVec.ofNat 64 (i * i))) s = .next t ∧ Answered s t (narrowResult p) ∧
      exec (.sqrt b' p) s' = .next t' ∧ Answered s' t' (narrowResult q) ∧
      exec (.i2d b'' (BitVec.ofNat 64 i)) s'' = .next t'' ∧ Answered s'' t'' (narrowResult q)

/-- R89: the 128-bit adder datapath gives the result of the exact definition of R86 for all well-formed operands. -/
def Obligations.AddDatapathAgrees : Prop :=
  ∀ (sa sb : Bool) (ca cb : Nat) (ea eb : Int), FormatPair ca ea → FormatPair cb eb →
    addDatapath sa ca ea sb cb eb = addFinite sa ca ea sb cb eb

/-- R72: the digit count read from the table with WCMP is `digits(n)` for every 128-bit integer. -/
def Obligations.DigitsByTableAgree : Prop := ∀ n : Wide, digitsByTable lutContents n = digits n.toNat

/-- R64, R102: scaling with the table and two WMUL multiplications, and dividing by a power of ten with one or two
WDIV divisions, give the mathematical results. The splits R64 does not give, and the range of the second clause, are
the model's choice, log 23. -/
def Obligations.TableScalingAgrees : Prop :=
  (∀ (c : Word) (k : Nat), c.toNat < 10 ^ 16 → k ≤ 22 →
    ∃ w, scaleByTable lutContents c k = .ok w ∧ w.toNat = c.toNat * 10 ^ k) ∧
  (∀ (c : Word) (k : Nat), k ≤ 38 → c.toNat * 10 ^ (k - 19) < 2 ^ 64 →
    ∃ w, scaleByTable lutContents c k = .ok w ∧ w.toNat = c.toNat * 10 ^ k) ∧
  (∀ (n : Wide) (k : Nat), k ≤ 38 →
    ∃ q r, divideByTable lutContents n k = .ok (q, r) ∧ q.toNat = n.toNat / 10 ^ k ∧ r.toNat = n.toNat % 10 ^ k)
end

