-- ==== Sys2Proof/Laws/Search.lean ====
section
/-! SUPPORT. What the integer functions of R6 compute: the bitwise search, `isqrt`, `digits`, `clamp`, `floor2`. -/

namespace Sys2Proof.Machine

/-- The search ends at the last admitted number, if its range holds an admitted start and a refused end. -/
theorem searchBits_spec (ok : Nat → Bool) : ∀ (bits acc : Nat), ok acc = true → ok (acc + 2 ^ bits) = false →
    ok (searchBits ok bits acc) = true ∧ ok (searchBits ok bits acc + 1) = false := by
  intro bits
  induction bits with
  | zero => intro acc h0 h1; exact ⟨h0, by simpa [searchBits] using h1⟩
  | succ k ih =>
    intro acc h0 h1
    have hpow : acc + 2 ^ (k + 1) = acc + 2 ^ k + 2 ^ k := by rw [pow_succ]; omega
    rw [searchBits]
    by_cases h : ok (acc + 2 ^ k) = true
    · rw [if_pos h]; exact ih _ h (hpow ▸ h1)
    · rw [if_neg h]; exact ih _ h0 (by simpa using h)

/-- `isqrt(n)` is the greatest integer with `r·r ≤ n` (R6). -/
theorem isqrt_spec (n : Nat) : isqrt n * isqrt n ≤ n ∧ n < (isqrt n + 1) * (isqrt n + 1) := by
  have hend : n < 2 ^ (Nat.log2 n + 1) * 2 ^ (Nat.log2 n + 1) :=
    lt_of_lt_of_le Nat.lt_log2_self (Nat.le_mul_of_pos_left _ (by positivity))
  have h := searchBits_spec (fun r => decide (r * r ≤ n)) (Nat.log2 n + 1) 0 (by simp) (by simpa using hend)
  simp only [decide_eq_true_eq, decide_eq_false_iff_not, not_le] at h
  exact h

theorem isqrt_le_self (n : Nat) : isqrt n ≤ n := le_trans (Nat.le_mul_self _) (isqrt_spec n).1

/-- A number that meets the two bounds is `isqrt(n)`. -/
theorem isqrt_unique {n r : Nat} (h : r * r ≤ n) (h' : n < (r + 1) * (r + 1)) : isqrt n = r := by
  have hs := isqrt_spec n
  have h1 : isqrt n < r + 1 := by
    by_contra hc
    exact absurd (Nat.mul_le_mul (not_lt.mp hc) (not_lt.mp hc)) (by omega)
  have h2 : r < isqrt n + 1 := by
    by_contra hc
    exact absurd (Nat.mul_le_mul (not_lt.mp hc) (not_lt.mp hc)) (by omega)
  omega

/-- The exact root of a square (R110). -/
theorem isqrt_square (r : Nat) : isqrt (r * r) = r := isqrt_unique le_rfl (by nlinarith)

@[simp] theorem digits_zero : digits 0 = 0 := rfl

/-- `digits(n)` is the `d ≥ 1` with `10^(d−1) ≤ n < 10^d` (R6). -/
theorem digits_spec {n : Nat} (hn : n ≠ 0) : 1 ≤ digits n ∧ 10 ^ (digits n - 1) ≤ n ∧ n < 10 ^ digits n := by
  have hlog : Nat.log2 n + 1 ≤ 2 ^ (Nat.log2 (Nat.log2 n) + 1) := Nat.lt_log2_self
  have hend : n < 10 ^ 2 ^ (Nat.log2 (Nat.log2 n) + 1) :=
    calc n < 2 ^ (Nat.log2 n + 1) := Nat.lt_log2_self
      _ ≤ 2 ^ 2 ^ (Nat.log2 (Nat.log2 n) + 1) := Nat.pow_le_pow_right (by norm_num) hlog
      _ ≤ 10 ^ 2 ^ (Nat.log2 (Nat.log2 n) + 1) := Nat.pow_le_pow_left (by norm_num) _
  have h := searchBits_spec (fun d => decide (10 ^ d ≤ n)) (Nat.log2 (Nat.log2 n) + 1) 0
    (by simpa using Nat.one_le_iff_ne_zero.mpr hn) (by simpa using hend)
  simp only [decide_eq_true_eq, decide_eq_false_iff_not, not_le] at h
  rw [digits, if_neg hn]
  exact ⟨by omega, by simpa using h.1, h.2⟩

theorem lt_pow_digits (n : Nat) : n < 10 ^ digits n := by
  rcases eq_or_ne n 0 with rfl | hn
  · simp
  · exact (digits_spec hn).2.2

/-- `digits n ≤ d` exactly when `n < 10^d`. -/
theorem digits_le_iff {n d : Nat} : digits n ≤ d ↔ n < 10 ^ d := by
  constructor
  · intro h; exact lt_of_lt_of_le (lt_pow_digits n) (Nat.pow_le_pow_right (by norm_num) h)
  · intro h
    rcases eq_or_ne n 0 with rfl | hn
    · simp
    · obtain ⟨h1, h2, -⟩ := digits_spec hn
      have := (Nat.pow_lt_pow_iff_right (a := 10) (by norm_num)).mp (lt_of_le_of_lt h2 h)
      omega

/-- A number between two consecutive powers of ten has the larger one's exponent as its digit count (R6). -/
theorem digits_unique {n d : Nat} (h : 10 ^ d ≤ n) (h' : n < 10 ^ (d + 1)) : digits n = d + 1 := by
  have h1 := digits_le_iff.mpr h'
  have h2 : ¬ digits n ≤ d := fun hc => absurd (digits_le_iff.mp hc) (by omega)
  omega

/-- `clamp(e)` lies in the exponent range and is `e` inside it (R6). -/
theorem clamp_spec (e : Int) : eMin ≤ clamp e ∧ clamp e ≤ eMax ∧ (eMin ≤ e → e ≤ eMax → clamp e = e) := by
  simp only [clamp, eMin, eMax]; omega

/-- `floor2(e)` is the integer with `2·r ≤ e < 2·r + 2` (R6). -/
theorem floor2_spec (e : Int) : 2 * floor2 e ≤ e ∧ e < 2 * floor2 e + 2 := by
  simp only [floor2]; omega

end Sys2Proof.Machine
end

