-- ==== Sys2Proof/Laws/Codec.lean ====
section
/-! SUPPORT. The parts of the codec: what `encode` answers, the ranges of the decoded fields, the bundle fields
(R31 to R39, R50 to R53). -/

namespace Sys2Proof.Machine

/-- `encode` answers a pattern exactly on well-formed values, and CODEC_INVARIANT otherwise (R51, R133). -/
theorem codecEncode_cases (x : LogicalValue) :
    (x.isWellFormed = true ∧ ∃ p, codecEncode x = .ok p) ∨
      (x.isWellFormed = false ∧ codecEncode x = .error .codecInvariant) := by
  cases x with
  | nan s => exact .inl ⟨rfl, _, rfl⟩
  | inf s => exact .inl ⟨rfl, _, rfl⟩
  | finite s c e =>
    rw [codecEncode]
    split
    · next h => exact .inl ⟨h, _, rfl⟩
    · next h => exact .inr ⟨by simpa using h, rfl⟩

/-- A well-formed value as a result: never fatal, the upper half 0 (R41, R51). -/
theorem encodeResult_of_wellFormed {x : LogicalValue} (hx : x.isWellFormed = true) :
    ∃ p, codecEncode x = .ok p ∧ encodeResult x = .ok (narrowResult p) := by
  rcases codecEncode_cases x with ⟨-, p, h⟩ | ⟨h, -⟩
  · exact ⟨p, h, by rw [encodeResult, h]; rfl⟩
  · rw [hx] at h; exact absurd h (by decide)

/-- A narrow result has the value of its 64 bits (R41). -/
theorem narrowResult_toNat (w : Word) : (narrowResult w).toNat = w.toNat := by
  have h : (narrowResult w).toNat = (0#64).toNat <<< 64 ||| w.toNat := BitVec.toNat_append 0#64 w
  simpa using h

theorem narrowResult_injective {p q : Word} (h : narrowResult p = narrowResult q) : p = q :=
  BitVec.eq_of_toNat_eq (by rw [← narrowResult_toNat, h, narrowResult_toNat])

/-- Every declet decodes to a number below 1000 (R34). -/
theorem dpdDec_lt (T : BitVec 10) : dpdDec T < 1000 := by
  have hs : ∀ x y z, digitSmall x y z ≤ 9 := by decide
  have hl : ∀ z, digitLarge z ≤ 9 := by decide
  have h3 : ∀ d2 d1 d0, d2 ≤ 9 → d1 ≤ 9 → d0 ≤ 9 → threeDigits d2 d1 d0 < 1000 := by
    intro d2 d1 d0 _ _ _; rw [threeDigits]; omega
  rw [dpdDec, dpdDecBits.eq_def]
  split <;> exact h3 _ _ _ (by first | apply hs | apply hl) (by first | apply hs | apply hl) (by first | apply hs | apply hl)

/-- The leading digit is a digit (R31). -/
theorem leadingDigit_le : ∀ G : BitVec 5, leadingDigit G ≤ 9 := by decide

/-- "In both Finite rows the two exponent bits are never `11`" (R31). -/
theorem exponentTop_ne : ∀ G : BitVec 5, G ≠ nanTag → G ≠ infTag → exponentTop G ≠ 0b11#2 := by decide

/-- "no Finite pattern decodes to an out-of-range coefficient" (R33). -/
theorem coefficient_lt (v : Word) : coefficient v < 10 ^ 16 := by
  have hl := leadingDigit_le (fieldG v)
  have h4 := dpdDec_lt (fieldT v 4)
  have h3 := dpdDec_lt (fieldT v 3)
  have h2 := dpdDec_lt (fieldT v 2)
  have h1 := dpdDec_lt (fieldT v 1)
  have h0 := dpdDec_lt (fieldT v 0)
  rw [coefficient]
  omega

/-- Concatenation as arithmetic (R6). -/
theorem toNat_concat {m n : Nat} (x : BitVec m) (y : BitVec n) : (x ++ y).toNat = x.toNat * 2 ^ n + y.toNat := by
  rw [BitVec.toNat_append, ← Nat.shiftLeft_add_eq_or_of_lt y.isLt, Nat.shiftLeft_eq]

/-- The fields of a word built as `s ∥ G ∥ EC ∥ T4 ∥ T3 ∥ T2 ∥ T1 ∥ T0` (R30, R33). -/
theorem packed_fields (s : BitVec 1) (G : BitVec 5) (ec : BitVec 8) (t4 t3 t2 t1 t0 : BitVec 10) :
    let v : Word := s ++ G ++ ec ++ t4 ++ t3 ++ t2 ++ t1 ++ t0
    v.extractLsb' 63 1 = s ∧ fieldG v = G ∧ fieldEC v = ec ∧ fieldT v 4 = t4 ∧ fieldT v 3 = t3 ∧ fieldT v 2 = t2 ∧
      fieldT v 1 = t1 ∧ fieldT v 0 = t0 := by
  intro v
  have hv : v.toNat = ((((((s.toNat * 2 ^ 5 + G.toNat) * 2 ^ 8 + ec.toNat) * 2 ^ 10 + t4.toNat) * 2 ^ 10 + t3.toNat) *
      2 ^ 10 + t2.toNat) * 2 ^ 10 + t1.toNat) * 2 ^ 10 + t0.toNat := by
    rw [← toNat_concat, ← toNat_concat, ← toNat_concat, ← toNat_concat, ← toNat_concat, ← toNat_concat, ← toNat_concat]
  have := s.isLt
  have := G.isLt
  have := ec.isLt
  have := t4.isLt
  have := t3.isLt
  have := t2.isLt
  have := t1.isLt
  have := t0.isLt
  refine ⟨?_, ?_, ?_, ?_, ?_, ?_, ?_, ?_⟩ <;> apply BitVec.eq_of_toNat_eq <;>
    simp only [fieldG, fieldEC, fieldT, BitVec.extractLsb'_toNat, hv, Nat.shiftRight_eq_div_pow] <;> omega

/-- What `decode` answers, by the combination field (R50). -/
theorem codecDecode_cases (v : Word) :
    (fieldG v = nanTag ∧ codecDecode v = .nan (fieldS v)) ∨
    (fieldG v = infTag ∧ codecDecode v = .inf (fieldS v)) ∨
    (fieldG v ≠ nanTag ∧ fieldG v ≠ infTag ∧
      codecDecode v = .finite (fieldS v) (coefficient v) ((biasedExponent v).toNat - bias)) := by
  rw [codecDecode]
  split
  · next h => exact .inl ⟨h, rfl⟩
  · next h =>
    split
    · next h' => exact .inr (.inl ⟨h', rfl⟩)
    · next h' => exact .inr (.inr ⟨h, h', rfl⟩)

/-- What the bundle operand of ENC stands for, by its kind (R39, R53). -/
theorem unpackBundle_cases (v : Wide) :
    (v.extractLsb' 81 2 = 0b11#2 ∧ unpackBundle v = none) ∨
    (v.extractLsb' 81 2 = 0b10#2 ∧ unpackBundle v = some (.nan (v.getLsbD 80))) ∨
    (v.extractLsb' 81 2 = 0b01#2 ∧ unpackBundle v = some (.inf (v.getLsbD 80))) ∨
    (v.extractLsb' 81 2 = 0b00#2 ∧
      unpackBundle v = some (.finite (v.getLsbD 80) (v.extractLsb' 0 54).toNat (v.extractLsb' 64 16).toInt)) := by
  have hk : ∀ k : BitVec 2, k = 0b11#2 ∨ k = 0b10#2 ∨ k = 0b01#2 ∨ k = 0b00#2 := by decide
  simp only [unpackBundle]
  rcases hk (v.extractLsb' 81 2) with h | h | h | h <;> simp [h]

end Sys2Proof.Machine
end

