-- ==== Sys2Proof/Laws/State.lean ====
section
/-! SUPPORT. One lemma for each field of State under each of its updates (Machine/Ops.lean, Machine/Step.lean), all
true by rfl, so that no later proof unfolds a record update; and the two cases of `State.complete`. -/

namespace Sys2Proof.Machine

@[simp] theorem State.respond_lut (s : State) (i : Instr) (r : Wide) : (s.respond i r).lut = s.lut := rfl
@[simp] theorem State.respond_halt (s : State) (i : Instr) (r : Wide) : (s.respond i r).halt = s.halt := rfl
@[simp] theorem State.respond_fcode (s : State) (i : Instr) (r : Wide) : (s.respond i r).fcode = s.fcode := rfl
@[simp] theorem State.respond_rst (s : State) (i : Instr) (r : Wide) : (s.respond i r).rst = s.rst := rfl
@[simp] theorem State.respond_requests (s : State) (i : Instr) (r : Wide) : (s.respond i r).requests = s.requests := rfl
@[simp] theorem State.respond_rspReady (s : State) (i : Instr) (r : Wide) : (s.respond i r).rspReady = s.rspReady := rfl
@[simp] theorem State.respond_inFlight (s : State) (i : Instr) (r : Wide) : (s.respond i r).inFlight =
    s.inFlight ++ [{ wait := latency i s.tick, response := { fatal := false, fcode := 0, r := r } }] := rfl
@[simp] theorem State.respond_delivered (s : State) (i : Instr) (r : Wide) : (s.respond i r).delivered = s.delivered := rfl
@[simp] theorem State.respond_busy (s : State) (i : Instr) (r : Wide) : (s.respond i r).busy = Config.busyEdges i s.tick := rfl
@[simp] theorem State.respond_call (s : State) (i : Instr) (r : Wide) : (s.respond i r).call = s.call := rfl
@[simp] theorem State.respond_blocks (s : State) (i : Instr) (r : Wide) : (s.respond i r).blocks = s.blocks := rfl
@[simp] theorem State.respond_tick (s : State) (i : Instr) (r : Wide) : (s.respond i r).tick = s.tick := rfl

@[simp] theorem State.raiseFatal_lut (s : State) (i : Instr) (c : FatalCode) : (s.raiseFatal i c).lut = s.lut := rfl
@[simp] theorem State.raiseFatal_halt (s : State) (i : Instr) (c : FatalCode) : (s.raiseFatal i c).halt = true := rfl
@[simp] theorem State.raiseFatal_fcode (s : State) (i : Instr) (c : FatalCode) : (s.raiseFatal i c).fcode = fatalBits c := rfl
@[simp] theorem State.raiseFatal_rst (s : State) (i : Instr) (c : FatalCode) : (s.raiseFatal i c).rst = s.rst := rfl
@[simp] theorem State.raiseFatal_requests (s : State) (i : Instr) (c : FatalCode) : (s.raiseFatal i c).requests = s.requests := rfl
@[simp] theorem State.raiseFatal_rspReady (s : State) (i : Instr) (c : FatalCode) : (s.raiseFatal i c).rspReady = s.rspReady := rfl
@[simp] theorem State.raiseFatal_inFlight (s : State) (i : Instr) (c : FatalCode) : (s.raiseFatal i c).inFlight =
    s.inFlight ++
      [{ wait := latency i s.tick,
         response := { fatal := true, fcode := fatalBits c, r := Config.fatalResult i s.tick } }] := rfl
@[simp] theorem State.raiseFatal_delivered (s : State) (i : Instr) (c : FatalCode) : (s.raiseFatal i c).delivered = s.delivered := rfl
@[simp] theorem State.raiseFatal_busy (s : State) (i : Instr) (c : FatalCode) : (s.raiseFatal i c).busy = Config.busyEdges i s.tick := rfl
@[simp] theorem State.raiseFatal_call (s : State) (i : Instr) (c : FatalCode) : (s.raiseFatal i c).call = s.call := rfl
@[simp] theorem State.raiseFatal_blocks (s : State) (i : Instr) (c : FatalCode) : (s.raiseFatal i c).blocks = s.blocks := rfl
@[simp] theorem State.raiseFatal_tick (s : State) (i : Instr) (c : FatalCode) : (s.raiseFatal i c).tick = s.tick := rfl

@[simp] theorem State.raiseBlockFatal_lut (s : State) (n : Nat) (c : FatalCode) : (s.raiseBlockFatal n c).lut = s.lut := rfl
@[simp] theorem State.raiseBlockFatal_halt (s : State) (n : Nat) (c : FatalCode) : (s.raiseBlockFatal n c).halt = true := rfl
@[simp] theorem State.raiseBlockFatal_fcode (s : State) (n : Nat) (c : FatalCode) : (s.raiseBlockFatal n c).fcode = fatalBits c := rfl
@[simp] theorem State.raiseBlockFatal_rst (s : State) (n : Nat) (c : FatalCode) : (s.raiseBlockFatal n c).rst = s.rst := rfl
@[simp] theorem State.raiseBlockFatal_requests (s : State) (n : Nat) (c : FatalCode) : (s.raiseBlockFatal n c).requests = s.requests := rfl
@[simp] theorem State.raiseBlockFatal_rspReady (s : State) (n : Nat) (c : FatalCode) : (s.raiseBlockFatal n c).rspReady = s.rspReady := rfl
@[simp] theorem State.raiseBlockFatal_inFlight (s : State) (n : Nat) (c : FatalCode) : (s.raiseBlockFatal n c).inFlight =
    poisonFrom c s.tick (s.inFlight.length - (n + 1)) 0 s.inFlight := rfl
@[simp] theorem State.raiseBlockFatal_delivered (s : State) (n : Nat) (c : FatalCode) : (s.raiseBlockFatal n c).delivered = s.delivered := rfl
@[simp] theorem State.raiseBlockFatal_busy (s : State) (n : Nat) (c : FatalCode) : (s.raiseBlockFatal n c).busy = s.busy := rfl
@[simp] theorem State.raiseBlockFatal_call (s : State) (n : Nat) (c : FatalCode) : (s.raiseBlockFatal n c).call = none := rfl
@[simp] theorem State.raiseBlockFatal_blocks (s : State) (n : Nat) (c : FatalCode) : (s.raiseBlockFatal n c).blocks = s.blocks := rfl
@[simp] theorem State.raiseBlockFatal_tick (s : State) (n : Nat) (c : FatalCode) : (s.raiseBlockFatal n c).tick = s.tick := rfl

@[simp] theorem State.finishCall_lut (s : State) (p : BlockPorts) : (s.finishCall p).lut = s.lut := rfl
@[simp] theorem State.finishCall_halt (s : State) (p : BlockPorts) : (s.finishCall p).halt = s.halt := rfl
@[simp] theorem State.finishCall_fcode (s : State) (p : BlockPorts) : (s.finishCall p).fcode = s.fcode := rfl
@[simp] theorem State.finishCall_rst (s : State) (p : BlockPorts) : (s.finishCall p).rst = s.rst := rfl
@[simp] theorem State.finishCall_requests (s : State) (p : BlockPorts) : (s.finishCall p).requests = s.requests := rfl
@[simp] theorem State.finishCall_rspReady (s : State) (p : BlockPorts) : (s.finishCall p).rspReady = s.rspReady := rfl
@[simp] theorem State.finishCall_inFlight (s : State) (p : BlockPorts) : (s.finishCall p).inFlight = s.inFlight := rfl
@[simp] theorem State.finishCall_delivered (s : State) (p : BlockPorts) : (s.finishCall p).delivered = s.delivered := rfl
@[simp] theorem State.finishCall_busy (s : State) (p : BlockPorts) : (s.finishCall p).busy = s.busy := rfl
@[simp] theorem State.finishCall_call (s : State) (p : BlockPorts) : (s.finishCall p).call = none := rfl
@[simp] theorem State.finishCall_blocks (s : State) (p : BlockPorts) : (s.finishCall p).blocks = p := rfl
@[simp] theorem State.finishCall_tick (s : State) (p : BlockPorts) : (s.finishCall p).tick = s.tick := rfl

@[simp] theorem State.resetEdge_lut (s : State) : (s.resetEdge).lut = s.lut := rfl
@[simp] theorem State.resetEdge_halt (s : State) : (s.resetEdge).halt = false := rfl
@[simp] theorem State.resetEdge_fcode (s : State) : (s.resetEdge).fcode = 0 := rfl
@[simp] theorem State.resetEdge_rst (s : State) : (s.resetEdge).rst = s.rst := rfl
@[simp] theorem State.resetEdge_requests (s : State) : (s.resetEdge).requests = s.requests := rfl
@[simp] theorem State.resetEdge_rspReady (s : State) : (s.resetEdge).rspReady = s.rspReady := rfl
@[simp] theorem State.resetEdge_inFlight (s : State) : (s.resetEdge).inFlight = [] := rfl
@[simp] theorem State.resetEdge_delivered (s : State) : (s.resetEdge).delivered = s.delivered := rfl
@[simp] theorem State.resetEdge_busy (s : State) : (s.resetEdge).busy = 0 := rfl
@[simp] theorem State.resetEdge_call (s : State) : (s.resetEdge).call = none := rfl
@[simp] theorem State.resetEdge_blocks (s : State) : (s.resetEdge).blocks = s.blocks := rfl
@[simp] theorem State.resetEdge_tick (s : State) : (s.resetEdge).tick = s.tick + 1 := rfl

@[simp] theorem State.edge_lut (s : State) : (s.edge).lut = s.lut := rfl
@[simp] theorem State.edge_halt (s : State) : (s.edge).halt = s.halt := rfl
@[simp] theorem State.edge_fcode (s : State) : (s.edge).fcode = s.fcode := rfl
@[simp] theorem State.edge_rst (s : State) : (s.edge).rst = s.rst := rfl
@[simp] theorem State.edge_requests (s : State) : (s.edge).requests = s.requests := rfl
@[simp] theorem State.edge_rspReady (s : State) : (s.edge).rspReady = s.rspReady := rfl
@[simp] theorem State.edge_inFlight (s : State) : (s.edge).inFlight = s.inFlightAfter := rfl
@[simp] theorem State.edge_delivered (s : State) : (s.edge).delivered = s.deliveredAfter := rfl
@[simp] theorem State.edge_busy (s : State) : (s.edge).busy = s.busy - 1 := rfl
@[simp] theorem State.edge_call (s : State) : (s.edge).call = s.call := rfl
@[simp] theorem State.edge_blocks (s : State) : (s.edge).blocks = s.blocks := rfl
@[simp] theorem State.edge_tick (s : State) : (s.edge).tick = s.tick + 1 := rfl

@[simp] theorem State.acceptEdge_lut (s : State) : (s.acceptEdge).lut = s.lut := rfl
@[simp] theorem State.acceptEdge_halt (s : State) : (s.acceptEdge).halt = s.halt := rfl
@[simp] theorem State.acceptEdge_fcode (s : State) : (s.acceptEdge).fcode = s.fcode := rfl
@[simp] theorem State.acceptEdge_rst (s : State) : (s.acceptEdge).rst = s.rst := rfl
@[simp] theorem State.acceptEdge_requests (s : State) : (s.acceptEdge).requests = s.requests.tail := rfl
@[simp] theorem State.acceptEdge_rspReady (s : State) : (s.acceptEdge).rspReady = s.rspReady := rfl
@[simp] theorem State.acceptEdge_inFlight (s : State) : (s.acceptEdge).inFlight = s.inFlightAfter := rfl
@[simp] theorem State.acceptEdge_delivered (s : State) : (s.acceptEdge).delivered = s.deliveredAfter := rfl
@[simp] theorem State.acceptEdge_busy (s : State) : (s.acceptEdge).busy = s.busy - 1 := rfl
@[simp] theorem State.acceptEdge_call (s : State) : (s.acceptEdge).call = s.call := rfl
@[simp] theorem State.acceptEdge_blocks (s : State) : (s.acceptEdge).blocks = s.blocks := rfl
@[simp] theorem State.acceptEdge_tick (s : State) : (s.acceptEdge).tick = s.tick + 1 := rfl

@[simp] theorem State.offer_lut (s : State) (w : RequestWord) : (s.offer w).lut = s.lut := rfl
@[simp] theorem State.offer_halt (s : State) (w : RequestWord) : (s.offer w).halt = s.halt := rfl
@[simp] theorem State.offer_fcode (s : State) (w : RequestWord) : (s.offer w).fcode = s.fcode := rfl
@[simp] theorem State.offer_rst (s : State) (w : RequestWord) : (s.offer w).rst = s.rst := rfl
@[simp] theorem State.offer_requests (s : State) (w : RequestWord) : (s.offer w).requests = s.requests ++ [w] := rfl
@[simp] theorem State.offer_rspReady (s : State) (w : RequestWord) : (s.offer w).rspReady = s.rspReady := rfl
@[simp] theorem State.offer_inFlight (s : State) (w : RequestWord) : (s.offer w).inFlight = s.inFlight := rfl
@[simp] theorem State.offer_delivered (s : State) (w : RequestWord) : (s.offer w).delivered = s.delivered := rfl
@[simp] theorem State.offer_busy (s : State) (w : RequestWord) : (s.offer w).busy = s.busy := rfl
@[simp] theorem State.offer_call (s : State) (w : RequestWord) : (s.offer w).call = s.call := rfl
@[simp] theorem State.offer_blocks (s : State) (w : RequestWord) : (s.offer w).blocks = s.blocks := rfl
@[simp] theorem State.offer_tick (s : State) (w : RequestWord) : (s.offer w).tick = s.tick := rfl

@[simp] theorem State.driveRspReady_lut (s : State) (x : Bool) : (s.driveRspReady x).lut = s.lut := rfl
@[simp] theorem State.driveRspReady_halt (s : State) (x : Bool) : (s.driveRspReady x).halt = s.halt := rfl
@[simp] theorem State.driveRspReady_fcode (s : State) (x : Bool) : (s.driveRspReady x).fcode = s.fcode := rfl
@[simp] theorem State.driveRspReady_rst (s : State) (x : Bool) : (s.driveRspReady x).rst = s.rst := rfl
@[simp] theorem State.driveRspReady_requests (s : State) (x : Bool) : (s.driveRspReady x).requests = s.requests := rfl
@[simp] theorem State.driveRspReady_rspReady (s : State) (x : Bool) : (s.driveRspReady x).rspReady = x := rfl
@[simp] theorem State.driveRspReady_inFlight (s : State) (x : Bool) : (s.driveRspReady x).inFlight = s.inFlight := rfl
@[simp] theorem State.driveRspReady_delivered (s : State) (x : Bool) : (s.driveRspReady x).delivered = s.delivered := rfl
@[simp] theorem State.driveRspReady_busy (s : State) (x : Bool) : (s.driveRspReady x).busy = s.busy := rfl
@[simp] theorem State.driveRspReady_call (s : State) (x : Bool) : (s.driveRspReady x).call = s.call := rfl
@[simp] theorem State.driveRspReady_blocks (s : State) (x : Bool) : (s.driveRspReady x).blocks = s.blocks := rfl
@[simp] theorem State.driveRspReady_tick (s : State) (x : Bool) : (s.driveRspReady x).tick = s.tick := rfl

@[simp] theorem State.driveRst_lut (s : State) (x : Bool) : (s.driveRst x).lut = s.lut := rfl
@[simp] theorem State.driveRst_halt (s : State) (x : Bool) : (s.driveRst x).halt = s.halt := rfl
@[simp] theorem State.driveRst_fcode (s : State) (x : Bool) : (s.driveRst x).fcode = s.fcode := rfl
@[simp] theorem State.driveRst_rst (s : State) (x : Bool) : (s.driveRst x).rst = x := rfl
@[simp] theorem State.driveRst_requests (s : State) (x : Bool) : (s.driveRst x).requests = s.requests := rfl
@[simp] theorem State.driveRst_rspReady (s : State) (x : Bool) : (s.driveRst x).rspReady = s.rspReady := rfl
@[simp] theorem State.driveRst_inFlight (s : State) (x : Bool) : (s.driveRst x).inFlight = s.inFlight := rfl
@[simp] theorem State.driveRst_delivered (s : State) (x : Bool) : (s.driveRst x).delivered = s.delivered := rfl
@[simp] theorem State.driveRst_busy (s : State) (x : Bool) : (s.driveRst x).busy = s.busy := rfl
@[simp] theorem State.driveRst_call (s : State) (x : Bool) : (s.driveRst x).call = s.call := rfl
@[simp] theorem State.driveRst_blocks (s : State) (x : Bool) : (s.driveRst x).blocks = s.blocks := rfl
@[simp] theorem State.driveRst_tick (s : State) (x : Bool) : (s.driveRst x).tick = s.tick := rfl

@[simp] theorem State.presentCall_lut (s : State) (c : BlockCall) (p : BlockPorts) : (s.presentCall c p).lut = s.lut := rfl
@[simp] theorem State.presentCall_halt (s : State) (c : BlockCall) (p : BlockPorts) : (s.presentCall c p).halt = s.halt := rfl
@[simp] theorem State.presentCall_fcode (s : State) (c : BlockCall) (p : BlockPorts) : (s.presentCall c p).fcode = s.fcode := rfl
@[simp] theorem State.presentCall_rst (s : State) (c : BlockCall) (p : BlockPorts) : (s.presentCall c p).rst = s.rst := rfl
@[simp] theorem State.presentCall_requests (s : State) (c : BlockCall) (p : BlockPorts) : (s.presentCall c p).requests = s.requests := rfl
@[simp] theorem State.presentCall_rspReady (s : State) (c : BlockCall) (p : BlockPorts) : (s.presentCall c p).rspReady = s.rspReady := rfl
@[simp] theorem State.presentCall_inFlight (s : State) (c : BlockCall) (p : BlockPorts) : (s.presentCall c p).inFlight = s.inFlight := rfl
@[simp] theorem State.presentCall_delivered (s : State) (c : BlockCall) (p : BlockPorts) : (s.presentCall c p).delivered = s.delivered := rfl
@[simp] theorem State.presentCall_busy (s : State) (c : BlockCall) (p : BlockPorts) : (s.presentCall c p).busy = s.busy := rfl
@[simp] theorem State.presentCall_call (s : State) (c : BlockCall) (p : BlockPorts) : (s.presentCall c p).call = some c := rfl
@[simp] theorem State.presentCall_blocks (s : State) (c : BlockCall) (p : BlockPorts) : (s.presentCall c p).blocks = p := rfl
@[simp] theorem State.presentCall_tick (s : State) (c : BlockCall) (p : BlockPorts) : (s.presentCall c p).tick = s.tick := rfl

@[simp] theorem State.withFetchWord_lut (s : State) (n w : Nat) : (s.withFetchWord n w).lut = s.lut := rfl
@[simp] theorem State.withFetchWord_halt (s : State) (n w : Nat) : (s.withFetchWord n w).halt = false := rfl
@[simp] theorem State.withFetchWord_fcode (s : State) (n w : Nat) : (s.withFetchWord n w).fcode = if s.halt then 0 else s.fcode := rfl
@[simp] theorem State.withFetchWord_rst (s : State) (n w : Nat) : (s.withFetchWord n w).rst = false := rfl
@[simp] theorem State.withFetchWord_requests (s : State) (n w : Nat) : (s.withFetchWord n w).requests =
    BitVec.ofNat 132 (w % 2 ^ n) :: s.requests := rfl
@[simp] theorem State.withFetchWord_rspReady (s : State) (n w : Nat) : (s.withFetchWord n w).rspReady = s.rspReady := rfl
@[simp] theorem State.withFetchWord_inFlight (s : State) (n w : Nat) : (s.withFetchWord n w).inFlight = if s.hasRoom then s.inFlight else [] := rfl
@[simp] theorem State.withFetchWord_delivered (s : State) (n w : Nat) : (s.withFetchWord n w).delivered = s.delivered := rfl
@[simp] theorem State.withFetchWord_busy (s : State) (n w : Nat) : (s.withFetchWord n w).busy = 0 := rfl
@[simp] theorem State.withFetchWord_call (s : State) (n w : Nat) : (s.withFetchWord n w).call = none := rfl
@[simp] theorem State.withFetchWord_blocks (s : State) (n w : Nat) : (s.withFetchWord n w).blocks = s.blocks := rfl
@[simp] theorem State.withFetchWord_tick (s : State) (n w : Nat) : (s.withFetchWord n w).tick = s.tick := rfl

@[simp] theorem State.complete_ok (s : State) (i : Instr) (r : Wide) : s.complete i (.ok r) = s.respond i r := rfl
@[simp] theorem State.complete_error (s : State) (i : Instr) (c : FatalCode) :
    s.complete i (.error c) = s.raiseFatal i c := rfl
@[simp] theorem State.illegalRequest_eq (s : State) (i : Instr) : s.illegalRequest i = s.raiseFatal i .illegalOp := rfl

end Sys2Proof.Machine
end

