-- ==== Sys2Proof/Laws/Table.lean ====
section
/-! SUPPORT. The powers-of-ten table as transcribed, and what the block functions answer (R60 to R62, R70, R71). -/

namespace Sys2Proof.Machine

/-- A table read answers the entry, or LUT_INDEX from index 39 on (R70). -/
theorem tableRead_cases (lut : Vector Wide 39) (k : BitVec 6) :
    (∃ h : k.toNat < 39, tableRead lut k = .ok lut[k.toNat]) ∨ (39 ≤ k.toNat ∧ tableRead lut k = .error .lutIndex) := by
  rw [tableRead]
  split
  · next h => exact .inl ⟨h, rfl⟩
  · next h => exact .inr ⟨by omega, rfl⟩

/-- The product is exact: "the product never overflows" (R60). -/
theorem wideMul_toNat (x y : Word) : (wideMul x y).toNat = x.toNat * y.toNat := by
  have hx := x.isLt
  have hy := y.isLt
  rw [wideMul, BitVec.toNat_ofNat, Nat.mod_eq_of_lt]
  nlinarith

/-- A wide division answers WDIV_ZERO exactly for divisor 0, and otherwise quotient and remainder (R61). -/
theorem wideDiv_cases (n : Wide) (d : Word) :
    (d = 0 ∧ wideDiv n d = .error .wdivZero) ∨
    (d ≠ 0 ∧ ∃ q r, wideDiv n d = .ok (q, r) ∧ q.toNat = n.toNat / d.toNat ∧ r.toNat = n.toNat % d.toNat) := by
  rw [wideDiv]
  split
  · next h => exact .inl ⟨h, rfl⟩
  · next h =>
    have hn := n.isLt
    have hd := d.isLt
    have hd0 : 0 < d.toNat := Nat.pos_of_ne_zero (fun hc => h (BitVec.eq_of_toNat_eq (by simpa using hc)))
    refine .inr ⟨h, _, _, rfl, ?_, ?_⟩
    · rw [BitVec.toNat_ofNat, Nat.mod_eq_of_lt (lt_of_le_of_lt (Nat.div_le_self _ _) hn)]
    · rw [BitVec.toNat_ofNat, Nat.mod_eq_of_lt (lt_trans (Nat.mod_lt _ hd0) hd)]

/-- Exactly one output of a comparison is 1 (R62). -/
theorem compareWide_cases (x y : Wide) :
    (x.toNat < y.toNat ∧ compareWide x y = { lt := true, eq := false, gt := false }) ∨
    (x.toNat = y.toNat ∧ compareWide x y = { lt := false, eq := true, gt := false }) ∨
    (y.toNat < x.toNat ∧ compareWide x y = { lt := false, eq := false, gt := true }) := by
  rcases lt_trichotomy x.toNat y.toNat with h | h | h
  · exact .inl ⟨h, by simp [compareWide]; omega⟩
  · exact .inr (.inl ⟨h, by simp [compareWide]; omega⟩)
  · exact .inr (.inr ⟨h, by simp [compareWide]; omega⟩)

end Sys2Proof.Machine
end

