-- ==== Sys2Proof/Laws/Rounding.lean ====
section
/-! SUPPORT. What each part of `finalize` (R76) does, and that it always returns a well-formed value. -/

namespace Sys2Proof.Machine

/-- The number of dropped digits meets its three lower bounds and equals one of them (R76). -/
theorem dropCount_spec (C : Nat) (e : Int) :
    (digits C : Int) - 16 ≤ dropCount C e ∧ eMin - e ≤ dropCount C e ∧
      ((dropCount C e : Int) = digits C - 16 ∨ (dropCount C e : Int) = eMin - e ∨ dropCount C e = 0) := by
  simp only [dropCount, precision]; omega

/-- Rounding takes the quotient or the next number (R76). -/
theorem roundHalfEven_cases (C : Nat) (sticky : Bool) (drop : Nat) :
    roundHalfEven C sticky drop = C / 10 ^ drop ∨ (0 < drop ∧ roundHalfEven C sticky drop = C / 10 ^ drop + 1) := by
  rw [roundHalfEven]
  split
  · next h => left; simp [h]
  · next h =>
    dsimp only
    split
    · exact .inr ⟨Nat.pos_of_ne_zero h, rfl⟩
    · exact .inl rfl

/-- Nothing is rounded where no digit is dropped. -/
theorem roundHalfEven_zero (C : Nat) (sticky : Bool) : roundHalfEven C sticky 0 = C := by simp [roundHalfEven]

/-- A rounded coefficient has at most 16 digits, or is `10^16` (R76). -/
theorem roundHalfEven_le (C : Nat) (sticky : Bool) (e : Int) :
    roundHalfEven C sticky (dropCount C e) ≤ 10 ^ 16 := by
  have hd := (dropCount_spec C e).1
  have hC : C < 10 ^ 16 * 10 ^ dropCount C e := by
    rw [← pow_add]
    exact lt_of_lt_of_le (lt_pow_digits C) (Nat.pow_le_pow_right (by norm_num) (by omega))
  have hq : C / 10 ^ dropCount C e < 10 ^ 16 := Nat.div_lt_of_lt_mul (by rw [mul_comm]; exact hC)
  rcases roundHalfEven_cases C sticky (dropCount C e) with h | ⟨-, h⟩ <;> omega

/-- The carry leaves a coefficient below `10^16` and the same value (R76). -/
theorem carryDigit_spec {q : Nat} (e : Int) (hq : q ≤ 10 ^ 16) :
    ((carryDigit q e).1 < 10 ^ 16) ∧ e ≤ (carryDigit q e).2 ∧
      ((q < 10 ^ 16 ∧ carryDigit q e = (q, e)) ∨ (q = 10 ^ 16 ∧ carryDigit q e = (10 ^ 15, e + 1))) := by
  rw [carryDigit]
  split
  · next h => exact ⟨by norm_num, by simp, .inr ⟨h, rfl⟩⟩
  · next h =>
    have hlt := lt_of_le_of_ne hq h
    exact ⟨hlt, le_rfl, .inl ⟨hlt, rfl⟩⟩

/-- Folding adds `j ≤ n` zeros, lowers the exponent by `j`, keeps the coefficient below `10^16`, and stops early
only where one more zero would not fit (R76). -/
theorem foldExponent_spec : ∀ (n q : Nat) (e : Int), q < 10 ^ 16 →
    ∃ j ≤ n, (foldExponent n q e).1 = q * 10 ^ j ∧ (foldExponent n q e).2 = e - j ∧
      (foldExponent n q e).1 < 10 ^ 16 ∧ (j = n ∨ 10 ^ 16 ≤ (foldExponent n q e).1 * 10) := by
  intro n
  induction n with
  | zero => intro q e hq; exact ⟨0, le_rfl, by simp [foldExponent], by simp [foldExponent], by simpa [foldExponent] using hq, .inl rfl⟩
  | succ n ih =>
    intro q e hq
    rw [foldExponent]
    split
    · next h =>
      obtain ⟨j, hj, h1, h2, h3, h4⟩ := ih (q * 10) (e - 1) h
      refine ⟨j + 1, by omega, ?_, ?_, h3, ?_⟩
      · rw [h1, pow_succ]; ring
      · rw [h2]; push_cast; ring
      · rcases h4 with h4 | h4
        · left; omega
        · exact .inr h4
    · next h => exact ⟨0, by omega, by simp, by simp, hq, .inr (by simpa using h)⟩

/-- The three ends of `finalize`: a zero, a finite value with `j` folded zeros, an Infinity (R76). -/
theorem settle_cases (s : Bool) {q : Nat} (e2 : Int) (hq : q < 10 ^ 16) :
    (q = 0 ∧ settle s q e2 = .finite s 0 (clamp e2)) ∨
    (q ≠ 0 ∧ ∃ j : Nat, settle s q e2 = .finite s (q * 10 ^ j) (e2 - j) ∧ q * 10 ^ j < 10 ^ 16 ∧
      e2 - j ≤ eMax ∧ (j = 0 ∨ e2 - j = eMax)) ∨
    (q ≠ 0 ∧ settle s q e2 = .inf s ∧ ∃ j : Nat, q * 10 ^ j < 10 ^ 16 ∧ 10 ^ 16 ≤ q * 10 ^ j * 10 ∧ eMax < e2 - j) := by
  rw [settle]
  split
  · next h => exact .inl ⟨h, rfl⟩
  · next h =>
    right
    obtain ⟨j, hj, h1, h2, h3, h4⟩ := foldExponent_spec (e2 - eMax).toNat q e2 hq
    dsimp only
    split
    · next hgt =>
      refine .inr ⟨h, rfl, j, h1 ▸ h3, ?_, by omega⟩
      rcases h4 with h4 | h4
      · omega
      · exact h1 ▸ h4
    · next hle =>
      refine .inl ⟨h, j, by rw [h1, h2], h1 ▸ h3, by omega, by omega⟩

/-- A Finite value is well-formed when its coefficient and exponent are in range (R15). -/
theorem isWellFormed_finite {s : Bool} {c : Nat} {e : Int} (hc : c < 10 ^ 16) (h1 : eMin ≤ e) (h2 : e ≤ eMax) :
    (LogicalValue.finite s c e).isWellFormed = true := by
  simp only [LogicalValue.isWellFormed, Bool.and_eq_true, decide_eq_true_eq]
  exact ⟨⟨by rw [cMax]; omega, h1⟩, h2⟩

/-- What `finalize` answers once the rounded and carried coefficient `q` and its exponent are known. -/
theorem finalize_eq_settle (s : Bool) {C : Nat} (sticky : Bool) (e : Int) (hC : C ≠ 0) :
    finalize s C sticky e =
      settle s (carryDigit (roundHalfEven C sticky (dropCount C e)) (e + dropCount C e)).1
        (carryDigit (roundHalfEven C sticky (dropCount C e)) (e + dropCount C e)).2 := by
  rw [finalize, if_neg hC]

theorem finalize_zero (s sticky : Bool) (e : Int) : finalize s 0 sticky e = .finite s 0 (clamp e) := by simp [finalize]

/-- "Every return is a well-formed logical value" (R76), and never NaN, and it keeps the sign. -/
theorem finalize_wellFormed (s : Bool) (C : Nat) (sticky : Bool) (e : Int) :
    (finalize s C sticky e).isWellFormed = true ∧
      ((∃ c e', finalize s C sticky e = .finite s c e') ∨ finalize s C sticky e = .inf s) := by
  have hclamp (x : Int) : (LogicalValue.finite s 0 (clamp x)).isWellFormed = true :=
    isWellFormed_finite (by norm_num) (clamp_spec x).1 (clamp_spec x).2.1
  rcases eq_or_ne C 0 with rfl | hC
  · rw [finalize_zero]; exact ⟨hclamp e, .inl ⟨0, _, rfl⟩⟩
  · rw [finalize_eq_settle s sticky e hC]
    obtain ⟨h1, h2, -⟩ := carryDigit_spec (e + dropCount C e) (roundHalfEven_le C sticky e)
    have hd := (dropCount_spec C e).2.1
    generalize carryDigit (roundHalfEven C sticky (dropCount C e)) (e + dropCount C e) = p at h1 h2
    rcases settle_cases s p.2 h1 with ⟨-, h⟩ | ⟨-, j, h, hlt, hmax, hj⟩ | ⟨-, h, -⟩
    · rw [h]; exact ⟨hclamp _, .inl ⟨0, _, rfl⟩⟩
    · rw [h]
      refine ⟨isWellFormed_finite hlt ?_ hmax, .inl ⟨_, _, rfl⟩⟩
      simp only [eMin, eMax] at *; omega
    · rw [h]; exact ⟨rfl, .inr rfl⟩

/-- The common case: a coefficient of at most 16 digits at an exponent in range is kept as it is (R76). -/
theorem finalize_exact (s sticky : Bool) {C : Nat} {e : Int} (hC : C < 10 ^ 16) (h1 : eMin ≤ e) (h2 : e ≤ eMax) :
    finalize s C sticky e = .finite s C e := by
  rcases eq_or_ne C 0 with rfl | hC0
  · rw [finalize_zero, (clamp_spec e).2.2 h1 h2]
  · have hd : dropCount C e = 0 := by
      have := digits_le_iff.mpr hC
      obtain ⟨-, -, h⟩ := dropCount_spec C e
      simp only [dropCount, precision]; omega
    rw [finalize_eq_settle s sticky e hC0, hd, roundHalfEven_zero]
    have hcarry : carryDigit C (e + (0 : Nat)) = (C, e) := by
      rw [carryDigit, if_neg (by omega)]; simp
    rw [hcarry, settle, if_neg hC0]
    have hfold : (e - eMax).toNat = 0 := by omega
    rw [hfold, foldExponent]
    dsimp only
    rw [if_neg (by omega)]

end Sys2Proof.Machine
end

