-- ==== Sys2Proof/Laws/Values.lean ====
section
/-! SUPPORT. Each arithmetic function on logical values returns a well-formed value for well-formed operands
("Every arithmetic function returns a well-formed value", R15), so that its result is encoded and not fatal;
and what the loops of DIV and the scalings of DIV and SQRT do (R100, R102, R112). -/

namespace Sys2Proof.Machine

theorem nanResult_wellFormed : nanResult.isWellFormed = true := rfl

/-- A well-formed Finite value has its coefficient and exponent in range (R15). -/
theorem finite_bounds {s : Bool} {c : Nat} {e : Int} (h : (LogicalValue.finite s c e).isWellFormed = true) :
    c < 10 ^ 16 ∧ eMin ≤ e ∧ e ≤ eMax := by
  simp only [LogicalValue.isWellFormed, Bool.and_eq_true, decide_eq_true_eq] at h
  obtain ⟨⟨hc, h1⟩, h2⟩ := h
  rw [cMax] at hc
  exact ⟨by omega, h1, h2⟩

theorem addValue_wellFormed (x y : LogicalValue) : (addValue x y).isWellFormed = true := by
  rw [addValue.eq_def]
  split
  · rfl
  · rfl
  · split <;> rfl
  · rfl
  · rfl
  · exact (finalize_wellFormed _ _ _ _).1

theorem mulValue_wellFormed (x y : LogicalValue) : (mulValue x y).isWellFormed = true := by
  have hinf : ∀ a b z, (mulInf a b z).isWellFormed = true := by intro a b z; rw [mulInf]; split <;> rfl
  rw [mulValue.eq_def]
  split
  · rfl
  · rfl
  · exact hinf _ _ _
  · exact hinf _ _ _
  · exact hinf _ _ _
  · exact (finalize_wellFormed _ _ _ _).1

theorem divQuotient_wellFormed (s : Bool) (ca cb : Nat) (ei : Int) : (divQuotient s ca cb ei).isWellFormed = true := by
  rw [divQuotient]
  dsimp only
  split <;> exact (finalize_wellFormed _ _ _ _).1

theorem divValue_wellFormed (x y : LogicalValue) : (divValue x y).isWellFormed = true := by
  rw [divValue.eq_def]
  split
  · rfl
  · rfl
  · split <;> rfl
  · rfl
  · rfl
  · rw [divFinite]
    split
    · rfl
    · split
      · exact (finalize_wellFormed _ _ _ _).1
      · exact divQuotient_wellFormed _ _ _ _

theorem sqrtPositive_wellFormed (c : Nat) (e : Int) : (sqrtPositive c e).isWellFormed = true := by
  have heven : ∀ c e, (sqrtEven c e).isWellFormed = true := by
    intro c e
    rw [sqrtEven]
    dsimp only
    split <;> exact (finalize_wellFormed _ _ _ _).1
  rw [sqrtPositive]
  split <;> exact heven _ _

/-- The root of a well-formed value is well-formed: half of an exponent in range is in range (R110). -/
theorem sqrtValue_wellFormed {x : LogicalValue} (hx : x.isWellFormed = true) : (sqrtValue x).isWellFormed = true := by
  cases x with
  | nan s => rfl
  | inf s => rw [sqrtValue.eq_def]; dsimp only; split <;> rfl
  | finite s c e =>
    rw [sqrtValue.eq_def]
    dsimp only
    split
    · obtain ⟨-, h1, h2⟩ := finite_bounds hx
      have hf := floor2_spec e
      simp only [eMin, eMax] at h1 h2
      exact isWellFormed_finite (by norm_num) (by simp only [eMin]; omega) (by simp only [eMax]; omega)
    · split
      · rfl
      · exact sqrtPositive_wellFormed _ _

theorem intValue_wellFormed (i : Int) : (intValue i).isWellFormed = true := (finalize_wellFormed _ _ _ _).1

/-- Giving back `j ≤ n` trailing zeros keeps the value, and stops early only at a last digit that is not 0 (R100). -/
theorem giveBack_spec : ∀ (n Q : Nat) (e : Int), ∃ j ≤ n,
    Q = (giveBack n Q e).1 * 10 ^ j ∧ (giveBack n Q e).2 = e + j ∧ (j = n ∨ (giveBack n Q e).1 % 10 ≠ 0) := by
  intro n
  induction n with
  | zero => intro Q e; exact ⟨0, le_rfl, by simp [giveBack], by simp [giveBack], .inl rfl⟩
  | succ n ih =>
    intro Q e
    rw [giveBack]
    split
    · next h =>
      obtain ⟨j, hj, h1, h2, h3⟩ := ih (Q / 10) (e + 1)
      refine ⟨j + 1, by omega, ?_, ?_, ?_⟩
      · rw [pow_succ, ← mul_assoc, ← h1]; omega
      · rw [h2]; push_cast; ring
      · rcases h3 with h3 | h3
        · left; omega
        · exact .inr h3
    · next h => exact ⟨0, by omega, by simp, by simp, .inr h⟩

/-- "the scaling `k = 17 + db − da` is in 2..32" (R102). -/
theorem divScale_bounds {ca cb : Nat} (ha : ca ≠ 0) (hb : cb ≠ 0) (ha' : ca < 10 ^ 16) (hb' : cb < 10 ^ 16) :
    2 ≤ divScale ca cb ∧ divScale ca cb ≤ 32 ∧ divScale ca cb + digits ca = 17 + digits cb := by
  have h1 := digits_le_iff.mpr ha'
  have h2 := digits_le_iff.mpr hb'
  have h3 := (digits_spec ha).1
  have h4 := (digits_spec hb).1
  rw [divScale]; omega

/-- The scaled dividend: "`10^16 < Q < 10^18`" (R102). -/
theorem divScale_quotient {ca cb : Nat} (ha : ca ≠ 0) (hb : cb ≠ 0) (ha' : ca < 10 ^ 16) (hb' : cb < 10 ^ 16) :
    10 ^ 16 ≤ ca * 10 ^ divScale ca cb / cb ∧ ca * 10 ^ divScale ca cb / cb < 10 ^ 18 := by
  obtain ⟨-, -, hk⟩ := divScale_bounds ha hb ha' hb'
  obtain ⟨hda, hla, hua⟩ := digits_spec ha
  obtain ⟨hdb, hlb, hub⟩ := digits_spec hb
  constructor
  · rw [Nat.le_div_iff_mul_le (Nat.pos_of_ne_zero hb)]
    calc 10 ^ 16 * cb ≤ 10 ^ 16 * 10 ^ digits cb := by gcongr
      _ = 10 ^ (digits ca - 1) * 10 ^ divScale ca cb := by rw [← pow_add, ← pow_add]; congr 1; omega
      _ ≤ ca * 10 ^ divScale ca cb := by gcongr
  · rw [Nat.div_lt_iff_lt_mul (Nat.pos_of_ne_zero hb)]
    calc ca * 10 ^ divScale ca cb < 10 ^ digits ca * 10 ^ divScale ca cb := by gcongr
      _ = 10 ^ 18 * 10 ^ (digits cb - 1) := by rw [← pow_add, ← pow_add]; congr 1; omega
      _ ≤ 10 ^ 18 * cb := by gcongr

/-- "`j2` is the largest even number with `dc + j2 ≤ 34`" (R112). -/
theorem sqrtScale_spec {dc : Nat} (h : dc ≤ 33) : sqrtScale dc % 2 = 0 ∧ dc + sqrtScale dc ≤ 34 ∧ 33 ≤ dc + sqrtScale dc := by
  rw [sqrtScale]; split <;> omega

end Sys2Proof.Machine
end

