-- ==== Sys2Proof/Laws/Exec.lean ====
section
/-! SUPPORT. What `exec` answers: one lemma for each instruction that names its outcome, the outcomes that are
never fatal, and the two cases of each internal function (R18, R43, R60 to R62, R70, R136). -/

namespace Sys2Proof.Machine

/-- The latency of a transaction is bounded (R149). -/
theorem latency_le (i : Instr) (tick : Nat) : latency i tick ≤ Config.latencyBound := Nat.min_le_right _ _

theorem exec_neg (b a : Word) (s : State) : exec (.neg b a) s = .next (s.complete (.neg b a) (negOutcome a)) := rfl
theorem exec_add (b a : Word) (s : State) : exec (.add b a) s = .next (s.complete (.add b a) (addOutcome b a)) := rfl
theorem exec_sub (b a : Word) (s : State) : exec (.sub b a) s = .next (s.complete (.sub b a) (subOutcome b a)) := rfl
theorem exec_mul (b a : Word) (s : State) : exec (.mul b a) s = .next (s.complete (.mul b a) (mulOutcome b a)) := rfl
theorem exec_div (b a : Word) (s : State) : exec (.div b a) s = .next (s.complete (.div b a) (divOutcome b a)) := rfl
theorem exec_sqrt (b a : Word) (s : State) : exec (.sqrt b a) s = .next (s.complete (.sqrt b a) (sqrtOutcome a)) := rfl
theorem exec_i2d (b a : Word) (s : State) : exec (.i2d b a) s = .next (s.complete (.i2d b a) (i2dOutcome a)) := rfl
theorem exec_d2i (b a : Word) (s : State) :
    exec (.d2i b a) s = .next (s.complete (.d2i b a) (d2iOutcome a s.tick)) := rfl
theorem exec_dec (b a : Word) (s : State) : exec (.dec b a) s = .next (s.complete (.dec b a) (decOutcome a)) := rfl
theorem exec_enc (b a : Word) (s : State) : exec (.enc b a) s = .next (s.complete (.enc b a) (encOutcome b a)) := rfl
theorem exec_reservedE (b a : Word) (s : State) :
    exec (.reservedE b a) s = .next (s.illegalRequest (.reservedE b a)) := rfl
theorem exec_reservedF (b a : Word) (s : State) :
    exec (.reservedF b a) s = .next (s.illegalRequest (.reservedF b a)) := rfl

/-- A call is presented for at most the function it names (log 8). -/
theorem callOf_cases (s : State) (fn : BlockFn) :
    (∃ n, s.call = some { fn := fn, younger := n } ∧ s.callOf fn = some n) ∨ s.callOf fn = none := by
  rw [State.callOf]
  split
  · next c h =>
    split
    · next hf => exact .inl ⟨c.younger, by rw [h, ← hf], rfl⟩
    · exact .inr rfl
  · exact .inr rfl

/-- On the request port no call is presented (R43). -/
theorem callOf_none {s : State} (h : s.call = none) (fn : BlockFn) : s.callOf fn = none := by
  rw [State.callOf, h]

/-- WMUL: the internal call, or ILLEGAL_OP (R60, R43). -/
theorem exec_wmul_cases (b a : Word) (s : State) :
    (∃ n, s.callOf .wmul = some n ∧
      exec (.wmul b a) s = .next (s.finishCall { s.blocks with mulP := wideMul s.blocks.mulX s.blocks.mulY })) ∨
    (s.callOf .wmul = none ∧ exec (.wmul b a) s = .next (s.illegalRequest (.wmul b a))) := by
  show (∃ n, _ ∧ execWmul b a s = _) ∨ (_ ∧ execWmul b a s = _)
  rw [execWmul]
  split
  · next n h => exact .inl ⟨n, h, rfl⟩
  · next h => exact .inr ⟨h, rfl⟩

/-- WDIV: the internal call with its quotient and remainder, WDIV_ZERO, or ILLEGAL_OP (R61, R43, R134). -/
theorem exec_wdiv_cases (b a : Word) (s : State) :
    (∃ n q r, s.callOf .wdiv = some n ∧ wideDiv s.blocks.divN s.blocks.divD = .ok (q, r) ∧
      exec (.wdiv b a) s = .next (s.finishCall { s.blocks with divQ := q, divR := r })) ∨
    (∃ n, s.callOf .wdiv = some n ∧ s.blocks.divD = 0 ∧
      exec (.wdiv b a) s = .next (s.raiseBlockFatal n .wdivZero)) ∨
    (s.callOf .wdiv = none ∧ exec (.wdiv b a) s = .next (s.illegalRequest (.wdiv b a))) := by
  show (∃ n q r, _ ∧ _ ∧ execWdiv b a s = _) ∨ (∃ n, _ ∧ _ ∧ execWdiv b a s = _) ∨ (_ ∧ execWdiv b a s = _)
  rw [execWdiv]
  split
  · next n h =>
    rcases wideDiv_cases s.blocks.divN s.blocks.divD with ⟨hd, he⟩ | ⟨-, q, r, he, -, -⟩
    · exact .inr (.inl ⟨n, h, hd, by rw [he]⟩)
    · exact .inl ⟨n, q, r, h, he, by rw [he]⟩
  · next h => exact .inr (.inr ⟨h, rfl⟩)

/-- WCMP: the internal call, or ILLEGAL_OP (R62, R43). -/
theorem exec_wcmp_cases (b a : Word) (s : State) :
    (∃ n, s.callOf .wcmp = some n ∧
      exec (.wcmp b a) s = .next (s.finishCall { s.blocks with
        cmpLt := (compareWide s.blocks.cmpX s.blocks.cmpY).lt, cmpEq := (compareWide s.blocks.cmpX s.blocks.cmpY).eq,
        cmpGt := (compareWide s.blocks.cmpX s.blocks.cmpY).gt })) ∨
    (s.callOf .wcmp = none ∧ exec (.wcmp b a) s = .next (s.illegalRequest (.wcmp b a))) := by
  show (∃ n, _ ∧ execWcmp b a s = _) ∨ (_ ∧ execWcmp b a s = _)
  rw [execWcmp]
  split
  · next n h => exact .inl ⟨n, h, rfl⟩
  · next h => exact .inr ⟨h, rfl⟩

/-- P10: the internal call with the table entry, LUT_INDEX, or ILLEGAL_OP (R70, R43, R132). -/
theorem exec_p10_cases (b a : Word) (s : State) :
    (∃ n w, s.callOf .p10 = some n ∧ tableRead s.lut s.blocks.lutK = .ok w ∧
      exec (.p10 b a) s = .next (s.finishCall { s.blocks with lutW := w })) ∨
    (∃ n, s.callOf .p10 = some n ∧ 39 ≤ s.blocks.lutK.toNat ∧
      exec (.p10 b a) s = .next (s.raiseBlockFatal n .lutIndex)) ∨
    (s.callOf .p10 = none ∧ exec (.p10 b a) s = .next (s.illegalRequest (.p10 b a))) := by
  show (∃ n w, _ ∧ _ ∧ execP10 b a s = _) ∨ (∃ n, _ ∧ _ ∧ execP10 b a s = _) ∨ (_ ∧ execP10 b a s = _)
  rw [execP10]
  split
  · next n h =>
    rcases tableRead_cases s.lut s.blocks.lutK with ⟨_, he⟩ | ⟨hk, he⟩
    · exact .inl ⟨n, _, h, he, by rw [he]⟩
    · exact .inr (.inl ⟨n, h, hk, by rw [he]⟩)
  · next h => exact .inr (.inr ⟨h, rfl⟩)

/-- What any instruction can do: finish an internal call, meet a fatal condition in one, or answer a request
with a result or with a fatal condition (R18, R136). -/
theorem exec_cases (i : Instr) (s : State) :
    (∃ r, exec i s = .next (s.respond i r)) ∨ (∃ c, exec i s = .next (s.raiseFatal i c)) ∨
    (∃ p, s.call.isSome ∧ exec i s = .next (s.finishCall p)) ∨
    (∃ n c, s.call.isSome ∧ exec i s = .next (s.raiseBlockFatal n c)) := by
  have hcomplete (o : Except FatalCode Wide) (h : exec i s = .next (s.complete i o)) :
      (∃ r, exec i s = .next (s.respond i r)) ∨ (∃ c, exec i s = .next (s.raiseFatal i c)) := by
    cases o with
    | ok r => exact .inl ⟨r, h⟩
    | error c => exact .inr ⟨c, h⟩
  have hcall {fn n} (h : s.callOf fn = some n) : s.call.isSome := by
    rcases callOf_cases s fn with ⟨m, hm, -⟩ | hm
    · rw [hm]; rfl
    · rw [h] at hm; exact absurd hm (by simp)
  have hdone (o : Except FatalCode Wide) (h : exec i s = .next (s.complete i o)) := (hcomplete o h).imp_right (Or.inl (b :=
    (∃ p, s.call.isSome ∧ exec i s = .next (s.finishCall p)) ∨
    (∃ n c, s.call.isSome ∧ exec i s = .next (s.raiseBlockFatal n c))))
  cases i with
  | wmul b a =>
    rcases exec_wmul_cases b a s with ⟨n, h, he⟩ | ⟨-, he⟩
    · exact .inr (.inr (.inl ⟨_, hcall h, he⟩))
    · exact .inr (.inl ⟨_, he⟩)
  | wdiv b a =>
    rcases exec_wdiv_cases b a s with ⟨n, q, r, h, -, he⟩ | ⟨n, h, -, he⟩ | ⟨-, he⟩
    · exact .inr (.inr (.inl ⟨_, hcall h, he⟩))
    · exact .inr (.inr (.inr ⟨_, _, hcall h, he⟩))
    · exact .inr (.inl ⟨_, he⟩)
  | wcmp b a =>
    rcases exec_wcmp_cases b a s with ⟨n, h, he⟩ | ⟨-, he⟩
    · exact .inr (.inr (.inl ⟨_, hcall h, he⟩))
    · exact .inr (.inl ⟨_, he⟩)
  | p10 b a =>
    rcases exec_p10_cases b a s with ⟨n, w, h, -, he⟩ | ⟨n, h, -, he⟩ | ⟨-, he⟩
    · exact .inr (.inr (.inl ⟨_, hcall h, he⟩))
    · exact .inr (.inr (.inr ⟨_, _, hcall h, he⟩))
    · exact .inr (.inl ⟨_, he⟩)
  | neg b a => exact hdone _ (exec_neg b a s)
  | add b a => exact hdone _ (exec_add b a s)
  | sub b a => exact hdone _ (exec_sub b a s)
  | mul b a => exact hdone _ (exec_mul b a s)
  | div b a => exact hdone _ (exec_div b a s)
  | sqrt b a => exact hdone _ (exec_sqrt b a s)
  | i2d b a => exact hdone _ (exec_i2d b a s)
  | d2i b a => exact hdone _ (exec_d2i b a s)
  | dec b a => exact hdone _ (exec_dec b a s)
  | enc b a => exact hdone _ (exec_enc b a s)
  | reservedE b a => exact hdone _ (exec_reservedE b a s)
  | reservedF b a => exact hdone _ (exec_reservedF b a s)

end Sys2Proof.Machine
end

