-- ==== Sys2Proof/Laws/PerInstr.lean ====
section
/-! SUPPORT. The family `RequestFields`: for each instruction, the fields of its request word are its op code and
its two operand fields (R41). -/

namespace Sys2Proof.Laws

/-- The three fields of a word built as `op ∥ b ∥ a` (R41). -/
theorem request_fields (op : BitVec 4) (b a : Word) :
    requestOp (op ++ b ++ a) = op ∧ requestB (op ++ b ++ a) = b ∧ requestA (op ++ b ++ a) = a := by
  have h : (op ++ b ++ a : RequestWord).toNat = (op.toNat * 2 ^ 64 + b.toNat) * 2 ^ 64 + a.toNat := by
    have h1 : (op ++ b ++ a : RequestWord).toNat = (op ++ b).toNat <<< 64 ||| a.toNat := BitVec.toNat_append _ _
    have h2 : (op ++ b).toNat = op.toNat <<< 64 ||| b.toNat := BitVec.toNat_append _ _
    rw [h1, h2, ← Nat.shiftLeft_add_eq_or_of_lt a.isLt, ← Nat.shiftLeft_add_eq_or_of_lt b.isLt,
      Nat.shiftLeft_eq, Nat.shiftLeft_eq]
  have ha := a.isLt
  have hb := b.isLt
  have ho := op.isLt
  refine ⟨BitVec.eq_of_toNat_eq ?_, BitVec.eq_of_toNat_eq ?_, BitVec.eq_of_toNat_eq ?_⟩
  · rw [requestOp, BitVec.extractLsb'_toNat, h, Nat.shiftRight_eq_div_pow]; omega
  · rw [requestB, BitVec.extractLsb'_toNat, h, Nat.shiftRight_eq_div_pow]; omega
  · rw [requestA, BitVec.extractLsb'_toNat, h, Nat.shiftRight_eq_div_pow]; omega

/-- The request word of an instruction holds its op code and its operand fields. -/
def RequestFields.Statement (i : Instr) : Prop :=
  requestOp i.encode = i.opcode ∧ requestB i.encode = i.fieldB ∧ requestA i.encode = i.fieldA

theorem RequestFields.neg (b a : Word) : RequestFields.Statement (.neg b a) := request_fields _ b a
theorem RequestFields.add (b a : Word) : RequestFields.Statement (.add b a) := request_fields _ b a
theorem RequestFields.sub (b a : Word) : RequestFields.Statement (.sub b a) := request_fields _ b a
theorem RequestFields.mul (b a : Word) : RequestFields.Statement (.mul b a) := request_fields _ b a
theorem RequestFields.div (b a : Word) : RequestFields.Statement (.div b a) := request_fields _ b a
theorem RequestFields.sqrt (b a : Word) : RequestFields.Statement (.sqrt b a) := request_fields _ b a
theorem RequestFields.i2d (b a : Word) : RequestFields.Statement (.i2d b a) := request_fields _ b a
theorem RequestFields.d2i (b a : Word) : RequestFields.Statement (.d2i b a) := request_fields _ b a
theorem RequestFields.dec (b a : Word) : RequestFields.Statement (.dec b a) := request_fields _ b a
theorem RequestFields.enc (b a : Word) : RequestFields.Statement (.enc b a) := request_fields _ b a
theorem RequestFields.wmul (b a : Word) : RequestFields.Statement (.wmul b a) := request_fields _ b a
theorem RequestFields.wdiv (b a : Word) : RequestFields.Statement (.wdiv b a) := request_fields _ b a
theorem RequestFields.wcmp (b a : Word) : RequestFields.Statement (.wcmp b a) := request_fields _ b a
theorem RequestFields.p10 (b a : Word) : RequestFields.Statement (.p10 b a) := request_fields _ b a
theorem RequestFields.reservedE (b a : Word) : RequestFields.Statement (.reservedE b a) := request_fields _ b a
theorem RequestFields.reservedF (b a : Word) : RequestFields.Statement (.reservedF b a) := request_fields _ b a

end Sys2Proof.Laws
end

