-- ==== Sys2Proof/Laws/Step.lean ====
section
/-! SUPPORT. What a clock edge can do (R17, R18, R136, R145), and the response handshake of one edge. -/

namespace Sys2Proof.Machine

theorem step_rst {s : State} (h : s.rst = true) : step s = .next s.resetEdge := by rw [step, if_pos h]

theorem step_call {s : State} {c : BlockCall} (hr : s.rst = false) (hh : s.halt = false) (hc : s.call = some c) :
    step s = exec (callInstr c) s.edge := by simp [step, hr, hh, hc]

theorem step_accept {s : State} {w : RequestWord} {rest : List RequestWord} (hr : s.reqReady = true)
    (hq : s.requests = w :: rest) : step s = exec (decodeRequest w) s.acceptEdge := by
  have hr' := hr
  simp only [State.reqReady, Bool.and_eq_true, Bool.not_eq_true', Option.isNone_iff_eq_none] at hr'
  simp [step, hr'.1.1.1.2, hr'.1.1.2, hq, hr]

/-- The four kinds of clock edge: reset, internal call, acceptance, and an edge of the response handshake alone. -/
theorem step_cases (s : State) :
    (s.rst = true ∧ step s = .next s.resetEdge) ∨
    (s.rst = false ∧ s.halt = false ∧ ∃ c, s.call = some c ∧ step s = exec (callInstr c) s.edge) ∨
    (s.rst = false ∧ s.reqReady = true ∧ ∃ w rest, s.requests = w :: rest ∧
      step s = exec (decodeRequest w) s.acceptEdge) ∨
    (s.rst = false ∧ step s = .next s.edge) := by
  rw [step]
  split
  · next h => exact .inl ⟨h, rfl⟩
  · next h =>
    have hr : s.rst = false := by simpa using h
    split
    · next c hc =>
      split
      · exact .inr (.inr (.inr ⟨hr, rfl⟩))
      · next hh => exact .inr (.inl ⟨hr, by simpa using hh, c, hc, rfl⟩)
    · split
      · exact .inr (.inr (.inr ⟨hr, rfl⟩))
      · next w rest hq =>
        split
        · next hrr => exact .inr (.inr (.inl ⟨hr, hrr, w, rest, hq, rfl⟩))
        · exact .inr (.inr (.inr ⟨hr, rfl⟩))

/-- `req_ready` is 0 while HALT is 1, while `rst` is active and while an internal call is presented (R16). -/
theorem reqReady_spec {s : State} (h : s.reqReady = true) :
    s.halt = false ∧ s.rst = false ∧ s.call = none ∧ s.busy = 0 ∧ s.hasRoom = true := by
  simp only [State.reqReady, Bool.and_eq_true, Bool.not_eq_true', Option.isNone_iff_eq_none, beq_iff_eq] at h
  exact ⟨h.1.1.1.1, h.1.1.1.2, h.1.1.2, h.1.2, h.2⟩

/-- The response handshake of one edge: the oldest response is delivered, or all stay (R17, R147). -/
theorem edge_cases (s : State) :
    (∃ t rest, s.inFlight = t :: rest ∧ t.wait = 0 ∧ s.rst = false ∧ s.rspReady = true ∧
      s.inFlightAfter = rest.map Transaction.countDown ∧ s.deliveredAfter = s.delivered ++ [t.response]) ∨
    ((s.rspValid && s.rspReady) = false ∧ s.inFlightAfter = s.inFlight.map Transaction.countDown ∧
      s.deliveredAfter = s.delivered) := by
  rw [State.inFlightAfter, State.deliveredAfter]
  split
  · next h =>
    left
    rw [Bool.and_eq_true, State.rspValid, Bool.and_eq_true, Bool.not_eq_true'] at h
    obtain ⟨⟨hr, hv⟩, hrdy⟩ := h
    split at hv
    · exact absurd hv (by simp)
    · next t rest hq => exact ⟨t, rest, hq, by simpa using hv, hr, hrdy, by simp [hq], by simp [hq]⟩
  · next h => exact .inr ⟨by simpa using h, rfl, rfl⟩

/-- Waiting changes no response. -/
theorem countDown_response (t : Transaction) : t.countDown.response = t.response := rfl

/-- An internal fatal condition changes no number of transactions and no latency (R136). -/
theorem poisonFrom_spec (c : FatalCode) (tick first : Nat) : ∀ (pos : Nat) (ts : List Transaction),
    (poisonFrom c tick first pos ts).length = ts.length ∧
    (poisonFrom c tick first pos ts).map Transaction.wait = ts.map Transaction.wait ∧
    (∀ t ∈ poisonFrom c tick first pos ts,
      t ∈ ts ∨ (t.response.fatal = true ∧ t.response.fcode = fatalBits c)) := by
  intro pos ts
  induction ts generalizing pos with
  | nil => exact ⟨rfl, rfl, fun t ht => absurd ht (by simp [poisonFrom])⟩
  | cons t ts ih =>
    obtain ⟨h1, h2, h3⟩ := ih (pos + 1)
    refine ⟨by simp [poisonFrom, h1], ?_, ?_⟩
    · rw [poisonFrom, List.map_cons, List.map_cons, h2]; split <;> rfl
    · intro u hu
      rw [poisonFrom, List.mem_cons] at hu
      rcases hu with hu | hu
      · split at hu
        · rw [hu]; exact .inr ⟨rfl, rfl⟩
        · exact .inl (by simp [hu])
      · exact (h3 u hu).imp (fun h => List.mem_cons_of_mem _ h) id

end Sys2Proof.Machine
end

