-- ==== Sys2Proof/Machine/Notation.lean ====
section
/-! DEFINITION. The notation for requests and programs: lines a host executes, its temporaries, and the request
word of a line (spec 30_encoding.md R45, R41). The temporaries are the host's, not hardware state (10_state.md R11). -/

namespace Sys2Proof.Machine

/-- An operand of a line (R45). -/
inductive HostOperand where
  /-- A host temporary. -/
  | temp (name : String)
  /-- A hexadecimal pattern `0x...`. -/
  | pattern (bits : Wide)
  /-- A signed decimal integer `#-5`, an int64. -/
  | integer (i : Int)
  /-- A decimal literal `[-]cEe`, `QNAN`, `+INF` or `-INF`: the canonical pattern of the value. -/
  | literal (x : LogicalValue)
  deriving DecidableEq, Repr

/-- One line `<dest> = <MNEMONIC> <operand> [, <operand>]`, the mnemonic given by its op code (R41, R45). -/
structure HostLine where
  dest : String
  op : BitVec 4
  operands : List HostOperand
  deriving DecidableEq, Repr

/-- The bits of an operand, where it has any: the temporary is bound, the literal is well-formed (R45). -/
def HostOperand.bits (temps : List (String × Wide)) : HostOperand → Option Wide
  | .temp name => temps.lookup name
  | .pattern bits => some bits
  | .integer i => some (narrowResult (int64Result i))
  | .literal x => (codecEncode x).toOption.map narrowResult

/-- The request word of a line (R41, R45): `t2 = MUL t0, t1` is `0x3 ∥ t1 ∥ t0`; a line with one operand puts
its low half on `a` and its high half on `b`, which only ENC reads (R44). -/
def HostLine.request (temps : List (String × Wide)) (line : HostLine) : Option RequestWord :=
  match line.operands.map (HostOperand.bits temps) with
  | [some x] => some (line.op ++ wideHi x ++ wideLo x)
  | [some x, some y] => some (line.op ++ wideLo y ++ wideLo x)
  | _ => none

/-- The temporaries after the response of a line (R45): a normal response binds the destination to the result; a fatal
one has no result (R18) and binds nothing, so a new destination stays unbound (95_test_vectors.md 3.5, 3.6). DESIGN
CHOICE (log 22): a destination that was bound before keeps its old value at a fatal response, on which the spec is
silent. -/
def HostLine.bind (temps : List (String × Wide)) (line : HostLine) (x : Response) : List (String × Wide) :=
  if x.fatal then temps else (line.dest, x.r) :: temps

/-- The host presents a line on the request port: "One line is one transaction" (R45). -/
def HostLine.issue (temps : List (String × Wide)) (line : HostLine) (s : State) : Option State :=
  (line.request temps).map s.offer

end Sys2Proof.Machine
end

