-- ==== Sys2Proof/Tests/Slice0.lean ====
section
/-! SUPPORT. Tests on single steps with expected values from spec 95_test_vectors.md (section in each comment), the
refused ill-formed terms, decoded words, and for each obligation with hypotheses a state and operands that meet them. -/

namespace Sys2Proof.Tests

open Sys2Proof Sys2Proof.Machine

-- Checked one after another: each kernel evaluation below would otherwise hold a thread of its own.
set_option Elab.async false

/-! ### Helpers -/

/-- The state after a step, if there is one. -/
def after : Host.Outcome State Fault Refusal → Option State
  | .next t => some t
  | .fault _ => none
  | .refused _ => none

/-- What the step that accepts a request word right after reset leaves: HALT, FCODE and the newest response. -/
def accepted (w : Nat) : Option (Bool × BitVec 3 × Option Response) :=
  (after (step (State.reset.withFetchWord 136 w))).map
    fun t => (t.halt, t.fcode, t.inFlight.getLast?.map Transaction.response)

/-- The accepted request was answered with the normal response `r`, and CORE is not halted. -/
def answers (w : Nat) (r : Wide) : Bool :=
  accepted w == some (false, 0#3, some { fatal := false, fcode := 0#3, r := r })

/-- The accepted request was answered with a fatal response of this code, and HALT and FCODE are set. -/
def answersFatally (w : Nat) (code : BitVec 3) : Bool :=
  match accepted w with
  | some (halt, fcode, some x) => halt && fcode == code && x.fatal && x.fcode == code
  | _ => false

/-- A state right after reset with an internal call presented and one transaction in flight, the caller. -/
def calling (fn : BlockFn) (ports : BlockPorts) : State :=
  { State.reset with
    call := some { fn := fn, younger := 0 }, blocks := ports,
    inFlight := [{ wait := 3, response := { fatal := false, fcode := 0, r := 5 } }] }

/-- A call with three transactions in flight: an older one, the caller, and a younger one. -/
def callingAmong (fn : BlockFn) (ports : BlockPorts) : State :=
  { calling fn ports with
    call := some { fn := fn, younger := 1 },
    inFlight := [5, 6, 7].map fun r => { wait := 3, response := { fatal := false, fcode := 0, r := r } } }

/-- The internal ports after a step, with HALT. -/
def portsAfter (s : State) : Option (BlockPorts × Bool) := (after (step s)).map fun t => (t.blocks, t.halt)

/-- A state with responses of latency 0 in flight. -/
def offering (ready : Bool) : State :=
  { State.reset with
    rspReady := ready,
    inFlight := [{ wait := 0, response := { fatal := false, fcode := 0, r := 7 } },
      { wait := 0, response := { fatal := false, fcode := 0, r := 8 } }] }

/-- A halted state whose fatal response has been delivered. -/
def halted : State := { State.reset with halt := true, fcode := 2 }

/-! ### The checks of WellFormed refuse ill-formed terms (sections 2.1, 2.12) -/

theorem test_kind_11_refused : bundleKindOk 0x60000#64 = false := by decide
theorem test_coefficient_refused : bundleCoeffOk 0 0x2386F26FC10000#64 = false := by decide
theorem test_exponent_370_refused : bundleExpOk 0x172#64 = false := by decide
theorem test_exponent_neg399_refused : bundleExpOk 0xFE71#64 = false := by decide
theorem test_bundle_refused : bundleWellFormed 0x60000#64 0 = false := by decide
theorem test_bundle_bounds_accepted :
    bundleWellFormed 0x171#64 0x2386F26FC0FFFF#64 = true ∧ bundleWellFormed 0x1FE72#64 0 = true ∧
    bundleWellFormed 0x2FFFF#64 0xFFFFFFFFFFFFFFFF#64 = true := by decide
theorem test_internal_op_refused : (Instr.wmul 0 0).isExternal = false ∧ (Instr.p10 0 0).isExternal = false := by decide
theorem test_request_refused :
    (Instr.reservedF 0 0).legalRequest = false ∧ (Instr.enc 0x60000 0).legalRequest = false ∧
    (Instr.enc 0 1).legalRequest = true := by decide
theorem test_value_refused :
    (LogicalValue.finite false 10000000000000000 0).isWellFormed = false ∧
    (LogicalValue.finite false 1 370).isWellFormed = false ∧
    (LogicalValue.finite true 1 (-399)).isWellFormed = false := by decide

/-! ### Request words written out from R41: op, then b, then a (sections 2.12, 3) -/

theorem test_decode_neg :
    decodeTableWord 136 0x0FFFFFFFFFFFFFFFF2238000000000001 = some (.neg 0xFFFFFFFFFFFFFFFF 0x2238000000000001) := by decide
theorem test_decode_add :
    decodeTableWord 136 0x122380000000000162238000000000009 = some (.add 0x2238000000000016 0x2238000000000009) := by decide
theorem test_decode_sub :
    decodeTableWord 136 0x26DF8FF3FCFF3FCFF2238000000000001 = some (.sub 0x6DF8FF3FCFF3FCFF 0x2238000000000001) := by decide
theorem test_decode_mul :
    decodeTableWord 136 0x322380000000000102234000000000003 = some (.mul 0x2238000000000010 0x2234000000000003) := by decide
theorem test_decode_div :
    decodeTableWord 136 0x422380000000000102238000000000001 = some (.div 0x2238000000000010 0x2238000000000001) := by decide
theorem test_decode_sqrt :
    decodeTableWord 136 0x500000000000000002238000000000025 = some (.sqrt 0 0x2238000000000025) := by decide
theorem test_decode_i2d : decodeTableWord 136 0x60000000000000000000000000000000A = some (.i2d 0 0xA) := by decide
theorem test_decode_d2i :
    decodeTableWord 136 0x700000000000000002234000000000030 = some (.d2i 0 0x2234000000000030) := by decide
theorem test_decode_dec :
    decodeTableWord 136 0x80000000000000000A2300000000003D0 = some (.dec 0 0xA2300000000003D0) := by decide
theorem test_decode_enc :
    decodeTableWord 136 0x9000000000001FFFE00000000000002EE = some (.enc 0x1FFFE 0x2EE) := by decide
theorem test_decode_wmul :
    decodeTableWord 136 0xA22380000000000022238000000000001 = some (.wmul 0x2238000000000002 0x2238000000000001) := by decide
theorem test_decode_wdiv :
    decodeTableWord 136 0xB22380000000000022238000000000001 = some (.wdiv 0x2238000000000002 0x2238000000000001) := by decide
theorem test_decode_wcmp :
    decodeTableWord 136 0xC22380000000000022238000000000001 = some (.wcmp 0x2238000000000002 0x2238000000000001) := by decide
theorem test_decode_p10 :
    decodeTableWord 136 0xD22380000000000022238000000000001 = some (.p10 0x2238000000000002 0x2238000000000001) := by decide
theorem test_decode_reservedE :
    decodeTableWord 136 0xE22380000000000022238000000000001 = some (.reservedE 0x2238000000000002 0x2238000000000001) := by decide
theorem test_decode_reservedF :
    decodeTableWord 136 0xF22380000000000022238000000000001 = some (.reservedF 0x2238000000000002 0x2238000000000001) := by decide
theorem test_decode_rejects_bit_132 :
    decodeBits 136 (2 ^ 132) = .error .bitsBeyondRequest ∧ decodeTableWord 136 (2 ^ 135 + 3) = none := by decide
theorem test_encode_operand_order :
    (Instr.div 0x2238000000000010 0x2238000000000001).encode = 0x422380000000000102238000000000001#132 := by decide

/-! ### The functions of the request port, one step each right after reset (sections 2.1, 2.5 to 2.12) -/

theorem test_neg_ignores_b : answers 0x0FFFFFFFFFFFFFFFF2238000000000001 0xA238000000000001 = true := by decide +kernel
theorem test_neg_nan_payload_kept : answers 0x00000000000000000FC00000000000001 0xFC00000000000001 = true := by decide +kernel
theorem test_add_tie_to_even : answers 0x12234000000000005263934B9C1E28E57 0x263934B9C1E28E58 = true := by decide +kernel
theorem test_add_minimum_exponent : answers 0x122300000000000252234000000000015 0x22300000000000F5 = true := by decide +kernel
theorem test_sub_operand_order : answers 0x222380000000000042238000000000003 0xA238000000000001 = true := by decide +kernel
theorem test_sub_zero_sign : answers 0x22238000000000000A238000000000000 0xA238000000000000 = true := by decide +kernel
theorem test_mul_32_digits : answers 0x36E38FF3FCFF3FCFF6E38FF3FCFF3FCFF 0x6E78FF3FCFF3FCFE = true := by decide +kernel
theorem test_mul_underflow_keeps_sign :
    answers 0x3831C0000000000010318000000000005 0x8000000000000000 = true := by decide +kernel
theorem test_div_inexact : answers 0x422380000000000032238000000000002 0x39FB66D9B66D9B67 = true := by decide +kernel
theorem test_div_infinity_by_zero : answers 0x422380000000000007800000000000000 0x7C00000000000000 = true := by decide +kernel
theorem test_sqrt_odd_exponent : answers 0x50000000000000000223C000000000001 0x2DFCE25DF603A1F9 = true := by decide +kernel
theorem test_sqrt_negative_zero : answers 0x50000000000000000A244000000000000 0xA23C000000000000 = true := by decide +kernel
theorem test_i2d_least_integer : answers 0x600000000000000008000000000000000 0xEE45237C836973F6 = true := by decide +kernel
theorem test_i2d_tie_odd_up : answers 0x60000000000000000002386F26FC1000F 0x263C000000000002 = true := by decide +kernel
theorem test_d2i_truncates_toward_zero :
    answers 0x70000000000000000A234000000000075 0xFFFFFFFFFFFFFFF9 = true := by decide +kernel
theorem test_d2i_positive_exponent : answers 0x700000000000000002244000000000012 0x2EE0 = true := by decide +kernel
theorem test_dec_negative : answers 0x80000000000000000A2300000000003D0 0x000000000001FFFE00000000000002EE = true := by decide +kernel
theorem test_dec_leading_digit_9 :
    answers 0x800000000000000006C38000000000000 0x000000000000FF80001FF973CAFA8000 = true := by decide +kernel
theorem test_enc_negative : answers 0x9000000000001FFFE00000000000002EE 0xA2300000000003D0 = true := by decide +kernel
theorem test_enc_coefficient_too_large : answersFatally 0x90000000000000000002386F26FC10000 2 = true := by decide +kernel
theorem test_wmul_on_request_port : answersFatally 0xA22380000000000022238000000000001 4 = true := by decide +kernel
theorem test_wdiv_on_request_port : answersFatally 0xB22380000000000022238000000000001 4 = true := by decide +kernel
theorem test_wcmp_on_request_port : answersFatally 0xC22380000000000022238000000000001 4 = true := by decide +kernel
theorem test_p10_on_request_port : answersFatally 0xD22380000000000022238000000000001 4 = true := by decide +kernel
theorem test_reservedE : answersFatally 0xE22380000000000022238000000000001 4 = true := by decide +kernel
theorem test_reservedF : answersFatally 0xF22380000000000022238000000000001 4 = true := by decide +kernel

/-! ### The functions of the internal ports (sections 2.2, 2.3) -/

theorem test_wmul_full_product :
    portsAfter (calling .wmul { BlockPorts.reset with mulX := 0xFFFFFFFFFFFFFFFF, mulY := 0xFFFFFFFFFFFFFFFF }) =
      some ({ BlockPorts.reset with
        mulX := 0xFFFFFFFFFFFFFFFF, mulY := 0xFFFFFFFFFFFFFFFF, mulP := 0xFFFFFFFFFFFFFFFE0000000000000001 }, false) := by
  decide +kernel
theorem test_wdiv_quotient_remainder :
    portsAfter (calling .wdiv { BlockPorts.reset with
        divN := 0x80000000000000000000000000000000, divD := 0x8AC7230489E80000 }) =
      some ({ BlockPorts.reset with
        divN := 0x80000000000000000000000000000000, divD := 0x8AC7230489E80000,
        divQ := 0xEC1E4A7DB69561A5, divR := 0x176A81CA35780000 }, false) := by decide +kernel
theorem test_wcmp_unsigned :
    portsAfter (calling .wcmp { BlockPorts.reset with
        cmpX := 0x80000000000000000000000000000000, cmpY := 0xFFFFFFFFFFFFFFFFFFFFFFFFFFFFFFFF }) =
      some ({ BlockPorts.reset with
        cmpX := 0x80000000000000000000000000000000, cmpY := 0xFFFFFFFFFFFFFFFFFFFFFFFFFFFFFFFF,
        cmpLt := true, cmpEq := false, cmpGt := false }, false) := by decide +kernel
theorem test_p10_entry_33 :
    portsAfter (calling .p10 { BlockPorts.reset with lutK := 33 }) =
      some ({ BlockPorts.reset with lutK := 33, lutW := 0x314DC6448D9338C15B0A00000000 }, false) := by decide +kernel
theorem test_p10_index_39_halts :
    (after (step (calling .p10 { BlockPorts.reset with lutK := 39 }))).map
      (fun t => (t.halt, t.fcode, t.inFlight.map fun x => (x.wait, x.response.fatal, x.response.fcode))) =
      some (true, 1, [(2, true, 1)]) := by decide +kernel
theorem test_wdiv_zero_halts :
    (after (step (calling .wdiv { BlockPorts.reset with divN := 7 }))).map
      (fun t => (t.halt, t.fcode, t.inFlight.map fun x => (x.wait, x.response.fatal, x.response.fcode))) =
      some (true, 3, [(2, true, 3)]) := by decide +kernel

/-- R136: the older transaction keeps its normal response, the caller and the younger one are answered fatally. -/
theorem test_older_response_kept :
    (after (exec (.p10 0 0) (callingAmong .p10 { BlockPorts.reset with lutK := 63 }))).map
      (fun t => (t.inFlight.head?.map fun x => x.response.r, t.inFlight.map fun x => (x.response.fatal, x.response.fcode))) =
      some (some 5, [(false, 0), (true, 1), (true, 1)]) := by decide +kernel

/-! ### The port protocol, reset and the notation -/

/-- R17: one response is delivered at an edge, the oldest. -/
theorem test_oldest_delivered :
    (after (step (offering true))).map (fun t => (t.delivered.map Response.r, t.inFlight.length)) = some ([7], 1) := by
  decide +kernel
/-- R136: a request offered while HALT is 1 is not accepted (section 2.12). -/
theorem test_not_accepted_while_halted :
    (after (step (halted.offer 0x600000000000000000000000000000003#132))).map
      (fun t => (t.requests.length, t.inFlight.length, t.halt, t.fcode)) = some (1, 0, true, 2) := by decide +kernel
/-- R139, R145: reset clears HALT and FCODE. -/
theorem test_reset_clears_halt :
    (after (step (halted.driveRst true))).map (fun t => (t.halt, t.fcode)) = some (false, 0) := by decide +kernel
/-- R42: the response word of a fatal condition with code 4 has the leading digit `0xC` (section 2.12). -/
theorem test_response_word_digit :
    ({ fatal := true, fcode := 4, r := 0 } : Response).word.extractLsb' 128 4 = 0xC#4 := by decide
/-- R45: the lines `t4 = MUL t0, t3` and `q = DIV ..` of program P1, and an ENC line (sections 3.1, 2.1). -/
theorem test_notation_words :
    ({ dest := "t4", op := 3, operands := [.temp "t0", .temp "t3"] } : HostLine).request
      [("t0", 0x2238000000000003), ("t3", 0x2234000000000001)] = some 0x322340000000000012238000000000003#132 ∧
    ({ dest := "t0", op := 6, operands := [.integer (-7)] } : HostLine).request [] =
      some 0x60000000000000000FFFFFFFFFFFFFFF9#132 ∧
    ({ dest := "q", op := 9, operands := [.pattern 0x000000000001FFFE00000000000002EE] } : HostLine).request [] =
      some 0x9000000000001FFFE00000000000002EE#132 := by decide +kernel

/-! ### For each obligation with hypotheses: a state and operands that meet all of them

Patterns from sections 1 and 2; the state is the one after reset where a statement is about every state. -/

theorem witness_DecletsRoundTrip : 999 < 1000 ∧ dpdEnc 999 = 0x0FF#10 ∧ dpdDec 0x3FF#10 = 999 ∧
    canonicalDeclet 0x3FF#10 = false := by decide
theorem witness_DecodeInvertsEncode :
    (LogicalValue.finite true 9999999999999999 369).isWellFormed = true ∧
    (LogicalValue.finite false 0 (-398)).isWellFormed = true ∧ (LogicalValue.nan true).isWellFormed = true := by decide
theorem witness_AddFiniteCorrectlyRounded :
    codecDecode 0x77FCFF3FCFF3FCFF = .finite false 9999999999999999 369 ∧
    codecDecode 0x8000000000000001 = .finite true 1 (-398) := by decide +kernel
theorem witness_AddZeroSumSign :
    (codecDecode 0xA22C000000000000 = .finite true 0 (-3) ∧ codecDecode 0xA240000000000000 = .finite true 0 2 ∧
      (codecDecode 0xA22C000000000000).value + (codecDecode 0xA240000000000000).value = 0) ∧
    (codecDecode 0x2238000000000005 = .finite false 5 0 ∧ codecDecode 0xA238000000000005 = .finite true 5 0 ∧
      (codecDecode 0x2238000000000005).value + (codecDecode 0xA238000000000005).value = 0) := by
  have h1 : codecDecode 0xA22C000000000000 = .finite true 0 (-3) := by decide +kernel
  have h2 : codecDecode 0xA240000000000000 = .finite true 0 2 := by decide +kernel
  have h3 : codecDecode 0x2238000000000005 = .finite false 5 0 := by decide +kernel
  have h4 : codecDecode 0xA238000000000005 = .finite true 5 0 := by decide +kernel
  rw [h1, h2, h3, h4]
  norm_num [LogicalValue.value]
/-- One pair of operands for each clause. -/
theorem witness_AddSpecialOperands :
    codecDecode 0xFE00000000000123 = .nan true ∧
    (codecDecode 0x7800000000000000 = .inf false ∧ codecDecode 0x7BFFFFFFFFFFFFFF = .inf false) ∧
    (codecDecode 0x7800000000000000 = .inf false ∧ codecDecode 0xF800000000000000 = .inf (!false)) ∧
    (codecDecode 0xF800000000000000 = .inf true ∧
      codecDecode 0x77FCFF3FCFF3FCFF = .finite false 9999999999999999 369) ∧
    (codecDecode 0x77FCFF3FCFF3FCFF = .finite false 9999999999999999 369 ∧
      codecDecode 0xF800000000000000 = .inf true) := by decide +kernel
theorem witness_SubFiniteCorrectlyRounded :
    codecDecode 0x2278000000000001 = .finite false 1 16 ∧ codecDecode 0x2238000000000001 = .finite false 1 0 := by
  decide +kernel
/-- The clauses for NaN and Infinity have the operands of `witness_AddSpecialOperands`; this is the zero difference. -/
theorem witness_SubSpecialOperands :
    codecDecode 0xA238000000000000 = .finite true 0 0 ∧ codecDecode 0x2238000000000000 = .finite false 0 0 ∧
    (codecDecode 0xA238000000000000).value = (codecDecode 0x2238000000000000).value := by
  have h1 : codecDecode 0xA238000000000000 = .finite true 0 0 := by decide +kernel
  have h2 : codecDecode 0x2238000000000000 = .finite false 0 0 := by decide +kernel
  rw [h1, h2]
  norm_num [LogicalValue.value]
theorem witness_MulFiniteCorrectlyRounded :
    codecDecode 0x0188000000000000 = .finite false 0 (-300) ∧ codecDecode 0x8188000000000000 = .finite true 0 (-300) := by
  decide +kernel
/-- Infinity with a zero and with a non-zero factor on either side; NaN as for ADD. -/
theorem witness_MulSpecialOperands :
    codecDecode 0xFC00000000000000 = .nan true ∧ codecDecode 0x7800000000000000 = .inf false ∧
    codecDecode 0xF800000000000000 = .inf true ∧ codecDecode 0x2238000000000000 = .finite false 0 0 ∧
    codecDecode 0x0000000000000001 = .finite false 1 (-398) := by decide +kernel
theorem witness_DivFiniteCorrectlyRounded :
    codecDecode 0x8000000000000000 = .finite true 0 (-398) ∧ codecDecode 0x43FC000000000001 = .finite false 1 369 ∧
    (1 : Nat) ≠ 0 := by decide +kernel
/-- A NaN over a zero, an Infinity over a negative zero, two Infinities, an Infinity over a finite divisor, a
finite dividend over an Infinity. -/
theorem witness_DivSpecialOperands :
    codecDecode 0x7C00000000000000 = .nan false ∧ codecDecode 0xA238000000000000 = .finite true 0 0 ∧
    codecDecode 0x7800000000000000 = .inf false ∧ codecDecode 0xF800000000000000 = .inf true ∧
    (codecDecode 0xA238000000000002 = .finite true 2 0 ∧ (2 : Nat) ≠ 0) ∧
    codecDecode 0xC2E8000000000005 = .finite true 5 300 := by decide +kernel
theorem witness_SqrtPositiveCorrectlyRounded :
    codecDecode 0x0004000000000001 = .finite false 1 (-397) ∧ (1 : Nat) ≠ 0 := by decide +kernel
theorem witness_SqrtSpecialOperands :
    codecDecode 0xFC00000000000123 = .nan true ∧ codecDecode 0x7800000000000000 = .inf false ∧
    codecDecode 0xF800000000000000 = .inf true ∧ codecDecode 0xA244000000000000 = .finite true 0 3 ∧
    (codecDecode 0x8000000000000001 = .finite true 1 (-398) ∧ (1 : Nat) ≠ 0) := by decide +kernel
theorem witness_I2dCorrectlyRounded : (0xFFDC790D903F0001 : Word).toInt.natAbs < 10 ^ 16 := by decide +kernel
/-- `−9223372036854775E3`, and `−7.5`, whose integer part is −7. -/
theorem witness_D2iTruncatesTowardZero :
    (codecDecode 0xEE45237C836973F5 = .finite true 9223372036854775 3 ∧
      -2 ^ 63 ≤ truncateRat (codecDecode 0xEE45237C836973F5).value ∧
      truncateRat (codecDecode 0xEE45237C836973F5).value ≤ 2 ^ 63 - 1) ∧
    (codecDecode 0xA234000000000075 = .finite true 75 (-1) ∧
      truncateRat (codecDecode 0xA234000000000075).value = -7) := by
  have h1 : codecDecode 0xEE45237C836973F5 = .finite true 9223372036854775 3 := by decide +kernel
  have h2 : codecDecode 0xA234000000000075 = .finite true 75 (-1) := by decide +kernel
  rw [h1, h2]
  norm_num [LogicalValue.value, truncateRat]
/-- NaN, Infinity, and the values next beyond int64 on both sides. -/
theorem witness_D2iOutsideDomainIsNormal :
    codecDecode 0x7C00000000000000 = .nan false ∧ codecDecode 0xF800000000000000 = .inf true ∧
    truncateRat (codecDecode 0xEE45237C836973F6).value < -2 ^ 63 ∧
    2 ^ 63 ≤ truncateRat (codecDecode 0x6E45237C836973F6).value := by
  have h1 : codecDecode 0xEE45237C836973F6 = .finite true 9223372036854776 3 := by decide +kernel
  have h2 : codecDecode 0x6E45237C836973F6 = .finite false 9223372036854776 3 := by decide +kernel
  rw [h1, h2]
  refine ⟨by decide +kernel, by decide +kernel, ?_, ?_⟩ <;> norm_num [LogicalValue.value, truncateRat]
theorem witness_DecGivesTheBundle :
    codecDecode 0xFE000000000003FF = .nan true ∧ codecDecode 0x7BFFFFFFFFFFFFFF = .inf false ∧
    codecDecode 0xA2300000000003D0 = .finite true 750 (-2) := by decide +kernel
/-- A QuietNaN and an Infinity with every other field set, and the greatest finite value. -/
theorem witness_EncEncodesWellFormedBundles :
    (bundleWellFormed 0x50005 0x123 = true ∧ (0x50005 : Word).extractLsb' 17 2 = 0b10#2) ∧
    (bundleWellFormed 0x2FFFF 0xFFFFFFFFFFFFFFFF = true ∧ (0x2FFFF : Word).extractLsb' 17 2 = 0b01#2) ∧
    (bundleWellFormed 0x171 0x2386F26FC0FFFF = true ∧ (0x171 : Word).extractLsb' 17 2 = 0b00#2) := by decide
/-- Kind 11, coefficient `10^16`, exponents −399 and 370. -/
theorem witness_EncIllFormedBundleIsFatal :
    (0x60000 : Word).extractLsb' 17 2 = 0b11#2 ∧
    ((0 : Word).extractLsb' 17 2 = 0b00#2 ∧ 9999999999999999 < ((0x2386F26FC10000 : Word).extractLsb' 0 54).toNat) ∧
    ((0xFE71 : Word).extractLsb' 17 2 = 0b00#2 ∧ ((0xFE71 : Word).extractLsb' 0 16).toInt < -398) ∧
    ((0x172 : Word).extractLsb' 17 2 = 0b00#2 ∧ 369 < ((0x172 : Word).extractLsb' 0 16).toInt) := by decide
theorem witness_WmulGivesTheProduct :
    (calling .wmul BlockPorts.reset).call = some { fn := .wmul, younger := 0 } := rfl
theorem witness_WdivGivesQuotientAndRemainder :
    (calling .wdiv { BlockPorts.reset with divD := 1 }).call = some { fn := .wdiv, younger := 0 } ∧
    (calling .wdiv { BlockPorts.reset with divD := 1 }).blocks.divD ≠ 0 := by decide
theorem witness_WcmpComparesMagnitudes :
    (calling .wcmp BlockPorts.reset).call = some { fn := .wcmp, younger := 0 } := rfl
theorem witness_P10ReadsTheTable :
    (calling .p10 { BlockPorts.reset with lutK := 38 }).call = some { fn := .p10, younger := 0 } ∧
    (calling .p10 { BlockPorts.reset with lutK := 38 }).blocks.lutK.toNat < 39 ∧
    (calling .p10 { BlockPorts.reset with lutK := 38 }).lut = lutContents := ⟨rfl, by decide, rfl⟩
/-- Both causes, at the least index that has no entry; with an older transaction, the caller and a younger one. -/
theorem witness_InternalFatalPoisonsYounger :
    ((callingAmong .wdiv BlockPorts.reset).call = some { fn := .wdiv, younger := 1 } ∧
      (callingAmong .wdiv BlockPorts.reset).blocks.divD = 0) ∧
    ((callingAmong .p10 { BlockPorts.reset with lutK := 39 }).call = some { fn := .p10, younger := 1 } ∧
      39 ≤ (callingAmong .p10 { BlockPorts.reset with lutK := 39 }).blocks.lutK.toNat) ∧
    0 + (1 + 1) < (callingAmong .wdiv BlockPorts.reset).inFlight.length ∧
    (callingAmong .wdiv BlockPorts.reset).inFlight.length ≤ 1 + (1 + 1) := by decide
/-- No internal call is presented: the request port. For every statement with that hypothesis. -/
theorem witness_IllegalOpCodesAreFatal : State.reset.call = none ∧ (offering false).call = none := ⟨rfl, rfl⟩
/-- The half below a digit: `10^16 + 1/2`; and a value without a fraction. -/
theorem witness_FinalizeCorrectlyRounded :
    ((true : Bool) = true → 10 ^ 16 ≤ (10000000000000000 : Nat) ∧ (0 : ℝ) < 1 / 2 ∧ (1 / 2 : ℝ) < 1) ∧
    ((false : Bool) = false → (0 : ℝ) = 0) := by norm_num
/-- `ADD` of 3E0 and 4E0 is answered with the pattern of 7E0 (section 2.6). -/
theorem witness_ArithmeticResultsAreCanonical :
    ∃ t, exec (.add 0x2238000000000004 0x2238000000000003) State.reset = .next t ∧
      Answered State.reset t (narrowResult 0x2238000000000007) := by
  have h : addOutcome 0x2238000000000004 0x2238000000000003 = .ok (narrowResult 0x2238000000000007) := by decide +kernel
  refine ⟨State.reset.respond (.add 0x2238000000000004 0x2238000000000003) (narrowResult 0x2238000000000007), ?_,
    rfl, rfl, ⟨_, latency_le _ _, rfl⟩, rfl, rfl, rfl, rfl, rfl, rfl, rfl, rfl⟩
  rw [exec_add, h]
  rfl
theorem witness_IgnoredFieldsHaveNoEffect :
    (Instr.sqrt 0 0x2238000000000004, Instr.sqrt 0xFFFFFFFFFFFFFFFF 0x2238000000000004) ∈
      [(Instr.neg 0 0x2238000000000004, Instr.neg 0xFFFFFFFFFFFFFFFF 0x2238000000000004),
        (.sqrt 0 0x2238000000000004, .sqrt 0xFFFFFFFFFFFFFFFF 0x2238000000000004)] ∧
    (toInt64 (codecDecode 0xA234000000000075)).isSome = true ∧
    (0x8000000000000000 : Word).extractLsb' 0 19 = (0 : Word).extractLsb' 0 19 ∧
    (0x0040000000000005 : Word).extractLsb' 0 54 = (5 : Word).extractLsb' 0 54 := by decide +kernel
theorem witness_OnlyIllegalRequestsHalt :
    State.reset.call = none ∧ (Instr.enc 0x60000 0).legalRequest = false := ⟨rfl, by decide⟩
theorem witness_ResponseIndependentOfHistory :
    (offering false).call = none ∧ halted.call = none ∧ (offering false).inFlight ≠ halted.inFlight := by decide
theorem witness_StepRunsTheDecodedRequest :
    ((State.reset.offer (Instr.add 1 2).encode).requests = (Instr.add 1 2).encode :: [] ∧
      (State.reset.offer (Instr.add 1 2).encode).reqReady = true ∧
      (State.reset.offer (Instr.add 1 2).encode).inFlight = []) ∧
    ((calling .wcmp BlockPorts.reset).rst = false ∧ (calling .wcmp BlockPorts.reset).halt = false ∧
      (calling .wcmp BlockPorts.reset).call = some { fn := .wcmp, younger := 0 }) := ⟨⟨rfl, rfl, rfl⟩, rfl, rfl, rfl⟩
theorem witness_ResetEdgeClears : (halted.driveRst true).rst = true := rfl
theorem witness_HaltHoldsUntilReset : halted.halt = true ∧ halted.rst = false := ⟨rfl, rfl⟩
theorem witness_HaltedMachineStaysSilent : halted.halt = true ∧ halted.rst = false ∧ halted.inFlight = [] :=
  ⟨rfl, rfl, rfl⟩
/-- A state that delivers and one that holds. -/
theorem witness_ResponsesKeepRequestOrder :
    ((offering true).rst = false ∧ (offering true).call = none ∧ (offering true).rspValid = true ∧
      (offering true).rspReady = true) ∧
    ((offering false).rst = false ∧ (offering false).call = none ∧
      ((offering false).rspValid && (offering false).rspReady) = false) := by decide
theorem witness_OfferedResponseIsHeld :
    (offering false).rspValid = true ∧ (offering false).rspReady = false ∧ (offering false).call = none := by decide
theorem witness_ResponseDeliveredWithinLatency :
    (offering true).inFlight = { wait := 0, response := { fatal := false, fcode := 0, r := 7 } } ::
      [{ wait := 0, response := { fatal := false, fcode := 0, r := 8 } }] ∧
    (offering true).rst = false ∧ (offering true).rspReady = true ∧ (offering true).call = none :=
  ⟨rfl, rfl, rfl, rfl⟩
theorem witness_HostSafeRunsNeverHalt : (State.reset.offer 0x600000000000000000000000000000003#132).HostSafe :=
  ⟨rfl, rfl, fun w hw => by rw [List.mem_singleton.1 hw]; decide +kernel⟩
/-- A halted state whose fatal response is still to be delivered is sane, and it makes a step. -/
theorem witness_StepKeepsSane :
    State.Sane { halted with inFlight := [{ wait := 0, response := { fatal := true, fcode := 2, r := 0 } }] } ∧
    step { halted with inFlight := [{ wait := 0, response := { fatal := true, fcode := 2, r := 0 } }] } =
      .next (State.edge { halted with inFlight := [{ wait := 0, response := { fatal := true, fcode := 2, r := 0 } }] }) := by
  refine ⟨⟨rfl, by decide, by decide, ?_, fun x hx => absurd hx List.not_mem_nil, ?_, by simp, by decide⟩, rfl⟩
  · intro t ht
    rw [List.mem_singleton.1 ht]
    exact ⟨by unfold Response.Sane; decide, Nat.zero_le _⟩
  · intro t ht
    rw [List.mem_singleton.1 ht]
    decide
theorem witness_D2iInvertsI2d : (-9999999999999999 : Int).natAbs < 10 ^ 16 := by decide
theorem witness_IntegerArithmeticIsExact :
    codecDecode 0x6E38FF3FCFF3FCFE = integerValue 9999999999999998 ∧ codecDecode 0x2238000000000001 = integerValue 1 ∧
    ((9999999999999998 : Int) + 1).natAbs < 10 ^ 16 ∧ ((9999999999999998 : Int) - 1).natAbs < 10 ^ 16 ∧
    ((9999999999999998 : Int) * 1).natAbs < 10 ^ 16 := by decide +kernel
/-- `i = 99999999999999`, `j = −100` (section 1.6), and `i = 0`, `j = −5`. -/
theorem witness_IntegerDivisionIsExact :
    ((-100 : Int) ≠ 0 ∧ codecDecode 0xEE38FF3FCFF3FC8C = integerValue (99999999999999 * -100) ∧
      codecDecode 0xA238000000000080 = integerValue (-100)) ∧
    ((-5 : Int) ≠ 0 ∧ codecDecode 0x2238000000000000 = integerValue (0 * -5) ∧
      codecDecode 0xA238000000000005 = integerValue (-5)) := by decide +kernel
theorem witness_SqrtOfSquareIsExact : 1 ≤ (100000000 : Nat) ∧ (100000000 : Nat) ≤ 10 ^ 8 := by decide
theorem witness_AddDatapathAgrees : FormatPair 9999999999999999 369 ∧ FormatPair 0 (-398) := by
  unfold FormatPair; decide
/-- The bounds of R64, the scaling of a one-digit dividend by `10^32` (R102), a 17-digit radicand (R112), and `k = 38`. -/
theorem witness_TableScalingAgrees :
    ((0x2386F26FC0FFFF : Word).toNat < 10 ^ 16 ∧ 22 ≤ 22) ∧
    (32 ≤ 38 ∧ (9 : Word).toNat * 10 ^ (32 - 19) < 2 ^ 64) ∧
    (17 ≤ 38 ∧ (0x16345785D89FFFF : Word).toNat * 10 ^ (17 - 19) < 2 ^ 64) ∧ 38 ≤ 38 := by decide
/-- The scalings of the two datapaths beyond the range of R64: `9 · 10^32` and `(10^17 − 1) · 10^17`. -/
theorem test_scaling_beyond_R64 :
    (scaleByTable lutContents 9 32).toOption.map BitVec.toNat = some (9 * 10 ^ 32) ∧
    (scaleByTable lutContents 0x16345785D89FFFF 17).toOption.map BitVec.toNat = some ((10 ^ 17 - 1) * 10 ^ 17) := by
  decide +kernel

end Sys2Proof.Tests
end

/-! The words of the host: a request word decodes to the request it was written from (R41), and the reset values. -/

namespace Sys2Proof

theorem decodeRequest_encode (i : Instr) : decodeRequest i.encode = i := by
  obtain ⟨hop, hb, ha⟩ : Laws.RequestFields.Statement i := Laws.request_fields i.opcode i.fieldB i.fieldA
  rw [decodeRequest, hop, hb, ha]
  cases i <;> rfl

/-- The 136 bits that carry a request word hold it whole. -/
theorem ofNat_encode_mod (i : Instr) : BitVec.ofNat 132 (i.encode.toNat % 2 ^ 136) = i.encode := by
  have hlt : i.encode.toNat < 2 ^ 136 := i.encode.isLt.trans (by decide)
  rw [Nat.mod_eq_of_lt hlt, BitVec.ofNat_toNat, BitVec.setWidth_eq]

namespace Machine

/-- The transcribed table holds the powers of ten (R71, R73). -/
theorem lutContents_toNat : ∀ k, ∀ h : k < 39, lutContents[k].toNat = 10 ^ k := by decide

/-- CORE has room exactly below its capacity: an empty list is always below it (R147). -/
theorem hasRoom_iff (s : State) : s.hasRoom = true ↔ s.inFlight.length < 1 + Config.extraCapacity := by
  rw [State.hasRoom]
  split
  · next h => simp [h]
  · exact decide_eq_true_iff

/-- Placing a request brings about every condition of acceptance (log 2). -/
theorem withFetchWord_reqReady (s : State) (nbits w : Nat) : (s.withFetchWord nbits w).reqReady = true := by
  have hroom : (s.withFetchWord nbits w).hasRoom = true := by
    rw [hasRoom_iff, State.withFetchWord_inFlight]
    split
    · next h => exact (hasRoom_iff s).1 h
    · exact (Nat.zero_lt_one).trans_le (Nat.le_add_right 1 _)
  simp [State.reqReady, hroom]

/-- With nothing in flight an acceptance takes the request and counts the edge; the port was not busy. -/
theorem acceptEdge_of_inFlight_nil {s : State} (hready : s.reqReady = true) (hempty : s.inFlight = []) :
    s.acceptEdge = { s with requests := s.requests.tail, tick := s.tick + 1 } := by
  obtain ⟨-, -, -, hbusy, -⟩ := reqReady_spec hready
  have hin : s.inFlightAfter = s.inFlight := by simp [State.inFlightAfter, hempty]
  have hdel : s.deliveredAfter = s.delivered := by simp [State.deliveredAfter, hempty]
  have hb : s.busy - 1 = s.busy := by omega
  rw [State.acceptEdge, State.edge, hin, hdel, hb]

/-- Settles O39: an acceptance decodes the offered word, which is the word of `i`. -/
theorem stepRunsTheDecodedRequest : Obligations.StepRunsTheDecodedRequest := by
  refine ⟨fun s i rest hq hready => ⟨?_, fun hempty => ?_⟩, fun s c hr hh hc => step_call hr hh hc⟩
  · rw [step_accept hready hq, decodeRequest_encode]
  · rw [acceptEdge_of_inFlight_nil hready hempty, hq, List.tail_cons]

/-- Settles O40: the placed request is the oldest one and the port is ready for it. -/
theorem placedRequestRunsNext : Obligations.PlacedRequestRunsNext := by
  intro s i
  have hq : (s.withFetchWord 136 i.encode.toNat).requests = i.encode :: s.requests := by
    rw [State.withFetchWord_requests, ofNat_encode_mod]
  refine ⟨?_, by rw [State.acceptEdge_requests, hq, List.tail_cons], State.withFetchWord_lut ..⟩
  rw [step_accept (withFetchWord_reqReady s 136 _) hq, decodeRequest_encode]

/-- Settles O41. -/
theorem resetState : Obligations.ResetState := ⟨rfl, rfl, rfl, lutContents_toNat⟩

/-- Settles O50: nothing is in flight or delivered after reset, and the WCMP outputs say that 0 equals 0. -/
theorem resetIsSane : Obligations.ResetIsSane := by
  refine ⟨rfl, by decide, by decide, ?_, ?_, ?_, Nat.zero_le _, by decide⟩
  all_goals exact fun _ h => absurd h List.not_mem_nil

end Machine

end Sys2Proof

/-! What one clock edge does to the requests and the responses (R17, R18). -/

namespace Sys2Proof.Machine

section Complete

variable (s : State) (i : Instr) (o : Except FatalCode Wide)

@[simp] theorem State.complete_rst : (s.complete i o).rst = s.rst := by cases o <;> rfl
@[simp] theorem State.complete_requests : (s.complete i o).requests = s.requests := by cases o <;> rfl
@[simp] theorem State.complete_rspReady : (s.complete i o).rspReady = s.rspReady := by cases o <;> rfl
@[simp] theorem State.complete_delivered : (s.complete i o).delivered = s.delivered := by cases o <;> rfl
@[simp] theorem State.complete_call : (s.complete i o).call = s.call := by cases o <;> rfl

/-- A request adds one transaction behind the older ones, whatever its outcome (R17, R18). -/
theorem State.complete_inFlight : ∃ x, (s.complete i o).inFlight = s.inFlight ++ [x] := by
  cases o with
  | ok r => exact ⟨_, State.respond_inFlight s i r⟩
  | error c => exact ⟨_, State.raiseFatal_inFlight s i c⟩

end Complete

/-- With no internal call every instruction answers its request (R18). -/
theorem exec_request {s : State} (hc : s.call = none) (i : Instr) : ∃ o, exec i s = .next (s.complete i o) := by
  have hno : ¬ s.call.isSome = true := by simp [hc]
  rcases exec_cases i s with ⟨r, he⟩ | ⟨c, he⟩ | ⟨_, hsome, -⟩ | ⟨_, _, hsome, -⟩
  · exact ⟨.ok r, he⟩
  · exact ⟨.error c, he⟩
  · exact absurd hsome hno
  · exact absurd hsome hno

/-- Without reset and internal call an edge accepts and answers the oldest offered request, or accepts nothing. -/
theorem step_request_cases {s : State} (hr : s.rst = false) (hc : s.call = none) :
    (s.reqReady = true ∧ ∃ w rest o, s.requests = w :: rest ∧
      step s = .next (s.acceptEdge.complete (decodeRequest w) o)) ∨
    step s = .next s.edge := by
  rcases step_cases s with ⟨hrst, -⟩ | ⟨-, -, c, hcall, -⟩ | ⟨-, hready, w, rest, hq, hs⟩ | ⟨-, hs⟩
  · exact absurd (hr.symm.trans hrst) (by decide)
  · exact absurd (hc.symm.trans hcall) (by simp)
  · obtain ⟨o, ho⟩ := exec_request (s := s.acceptEdge) hc (decodeRequest w)
    exact .inl ⟨hready, w, rest, o, hq, hs.trans ho⟩
  · exact .inr hs

/-- What such an edge does to the ports: it delivers what the handshake delivers, holds the pins, and adds one
transaction exactly when it takes a request. -/
theorem step_ports {s : State} (hr : s.rst = false) (hc : s.call = none) :
    ∃ t new, step s = .next t ∧ t.rst = s.rst ∧ t.rspReady = s.rspReady ∧ t.call = s.call ∧
      t.delivered = s.deliveredAfter ∧ t.inFlight = s.inFlightAfter ++ new ∧
      ((t.requests = s.requests ∧ new = []) ∨ (new.length = 1 ∧ ∃ w, s.requests = w :: t.requests)) := by
  rcases step_request_cases hr hc with ⟨-, w, rest, o, hq, hs⟩ | hs
  · obtain ⟨x, hx⟩ := State.complete_inFlight s.acceptEdge (decodeRequest w) o
    exact ⟨_, [x], hs, by simp, by simp, by simp, by simp, hx, .inr ⟨rfl, w, by simp [hq]⟩⟩
  · exact ⟨_, [], hs, rfl, rfl, rfl, rfl, (List.append_nil _).symm, .inl ⟨rfl, rfl⟩⟩

theorem map_response_countDown (ts : List Transaction) :
    (ts.map Transaction.countDown).map Transaction.response = ts.map Transaction.response := by
  rw [List.map_map]
  exact List.map_congr_left fun t _ => countDown_response t

/-- The handshake loses, adds and reorders no response (R17). -/
theorem edge_keeps_responses (s : State) :
    s.deliveredAfter ++ s.inFlightAfter.map Transaction.response =
      s.delivered ++ s.inFlight.map Transaction.response := by
  rcases edge_cases s with ⟨t, rest, hin, -, -, -, hafter, hdel⟩ | ⟨-, hafter, hdel⟩
  · rw [hafter, hdel, hin, map_response_countDown, List.map_cons, List.append_assoc, List.singleton_append]
  · rw [hafter, hdel, map_response_countDown]

/-- The oldest response is offered exactly when its latency has passed (R17, R19). -/
theorem rspValid_cons {s : State} {x : Transaction} {rest : List Transaction} (hr : s.rst = false)
    (hin : s.inFlight = x :: rest) : s.rspValid = (x.wait == 0) := by simp [State.rspValid, hr, hin]

/-- The handshake delivers the oldest response while it is offered and taken, and nothing otherwise (R17). -/
theorem deliveredAfter_cases (s : State) :
    ((s.rspValid && s.rspReady) = false ∧ s.deliveredAfter = s.delivered) ∨
    (s.rspValid = true ∧ s.rspReady = true ∧
      ∃ x rest, s.inFlight = x :: rest ∧ s.deliveredAfter = s.delivered ++ [x.response]) := by
  rcases edge_cases s with ⟨x, rest, hin, hwait, hr, hready, -, hdel⟩ | ⟨hno, -, hdel⟩
  · exact .inr ⟨by simp [rspValid_cons hr hin, hwait], hready, x, rest, hin, hdel⟩
  · exact .inl ⟨hno, hdel⟩

/-- Settles O45: the handshake keeps the sequence of responses, and an accepted request adds its own at the end. -/
theorem responsesKeepRequestOrder : Obligations.ResponsesKeepRequestOrder := by
  intro s hr hc
  obtain ⟨t, new, hs, -, -, -, hdel, hin, hreq⟩ := step_ports hr hc
  refine ⟨t, new.map Transaction.response, hs, ?_, ?_, ?_⟩
  · rw [hdel]; exact deliveredAfter_cases s
  · rw [hdel, hin, List.map_append, ← List.append_assoc, edge_keeps_responses]
  · simpa using hreq

/-- A run of `n + 1` edges is one edge and a run of `n`. -/
theorem run_succ {M : Host.Core} {s t : M.State} (h : M.step s = .next t) (n : Nat) : M.run (n + 1) s = M.run n t := by
  rw [Host.Core.run, h]

/-- While the oldest transaction waits, an edge delivers nothing and leaves it the oldest, one edge nearer. -/
theorem edge_waits {s : State} {x : Transaction} {rest : List Transaction} (hr : s.rst = false)
    (hin : s.inFlight = x :: rest) (hwait : x.wait ≠ 0) :
    s.deliveredAfter = s.delivered ∧ s.inFlightAfter = x.countDown :: rest.map Transaction.countDown := by
  have hno : s.rspValid = false := by simp [rspValid_cons hr hin, hwait]
  simp [State.deliveredAfter, State.inFlightAfter, hno, hin]

/-- An edge delivers the oldest response once its latency has passed and the host takes it. -/
theorem edge_delivers {s : State} {x : Transaction} {rest : List Transaction} (hr : s.rst = false)
    (hready : s.rspReady = true) (hin : s.inFlight = x :: rest) (hwait : x.wait = 0) :
    s.deliveredAfter = s.delivered ++ [x.response] := by
  have hyes : s.rspValid = true := by simp [rspValid_cons hr hin, hwait]
  simp [State.deliveredAfter, hyes, hready, hin]

/-- Settles O47, by induction on the edges the oldest transaction still waits. -/
theorem responseDeliveredWithinLatency : Obligations.ResponseDeliveredWithinLatency := by
  intro s x rest hin hr hready hc
  induction hn : x.wait generalizing s x rest with
  | zero =>
    obtain ⟨t, new, hs, -, -, -, hdel, -⟩ := step_ports hr hc
    exact ⟨t, run_succ (M := core) hs 0, hdel.trans (edge_delivers hr hready hin hn)⟩
  | succ n ih =>
    obtain ⟨t, new, hs, hrst, hrdy, hcall, hdel, hflight, -⟩ := step_ports hr hc
    obtain ⟨hnone, hafter⟩ := edge_waits hr hin (by omega)
    rw [hafter, List.cons_append] at hflight
    obtain ⟨u, hu, hud⟩ := ih t x.countDown _ hflight (hrst.trans hr) (hrdy.trans hready) (hcall.trans hc)
      (by simp [Transaction.countDown, hn])
    exact ⟨u, (run_succ (M := core) hs (n + 1)).trans hu, by rw [hud, hdel, hnone, countDown_response]⟩

end Sys2Proof.Machine

/-! The invariant `State.Sane`: what each operation on State needs and keeps of it, then the clock edge. -/

namespace Sys2Proof.Machine

/-- Exactly one output of WCMP is 1 (R62): the clause of `State.Sane` on the internal ports. -/
def BlockPorts.CmpOneHot (p : BlockPorts) : Prop := p.cmpLt.toNat + p.cmpEq.toNat + p.cmpGt.toNat = 1

theorem compareWide_oneHot (x y : Wide) :
    (compareWide x y).lt.toNat + (compareWide x y).eq.toNat + (compareWide x y).gt.toNat = 1 := by
  rcases compareWide_cases x y with ⟨-, h⟩ | ⟨-, h⟩ | ⟨-, h⟩ <;> rw [h] <;> rfl

theorem fatalBits_range (c : FatalCode) : 1 ≤ (fatalBits c).toNat ∧ (fatalBits c).toNat ≤ 4 := by
  cases c <;> decide

theorem fatalBits_ne_zero (c : FatalCode) : fatalBits c ≠ 0 := by cases c <;> decide

theorem Response.sane_normal (r : Wide) : Response.Sane { fatal := false, fcode := 0, r := r } :=
  ⟨fun _ => rfl, fun h => absurd h Bool.false_ne_true⟩

theorem Response.sane_of_fatalBits {x : Response} {c : FatalCode} (hf : x.fatal = true) (hc : x.fcode = fatalBits c) :
    x.Sane := ⟨fun h => absurd (hf.symm.trans h) (by decide), fun _ => hc ▸ fatalBits_range c⟩

/-- After the handshake a transaction in flight is one of before, with its response and no longer to wait. -/
theorem mem_inFlightAfter {s : State} {t : Transaction} (ht : t ∈ s.inFlightAfter) :
    ∃ u ∈ s.inFlight, t.response = u.response ∧ t.wait ≤ u.wait := by
  obtain ⟨u, hu, rfl⟩ := List.mem_map.1 ht
  refine ⟨u, ?_, countDown_response u, Nat.sub_le _ _⟩
  split at hu
  · exact List.mem_of_mem_tail hu
  · exact hu

theorem length_inFlightAfter_le (s : State) : s.inFlightAfter.length ≤ s.inFlight.length := by
  rw [State.inFlightAfter, List.length_map]
  split
  · simp
  · exact le_rfl

/-- A response in the host's record after the handshake was there before or was in flight. -/
theorem mem_deliveredAfter {s : State} {x : Response} (hx : x ∈ s.deliveredAfter) :
    x ∈ s.delivered ∨ ∃ t ∈ s.inFlight, x = t.response := by
  rcases deliveredAfter_cases s with ⟨-, hdel⟩ | ⟨-, -, t, rest, hin, hdel⟩
  · exact .inl (hdel ▸ hx)
  · rw [hdel, List.mem_append, List.mem_singleton] at hx
    exact hx.imp_right fun h => ⟨t, by simp [hin], h⟩

theorem edge_sane {s : State} (hs : s.Sane) : s.edge.Sane := by
  obtain ⟨hlut, hhalt, hcode, hflight, hdel, hfatal, hlen, hcmp⟩ := hs
  refine ⟨hlut, hhalt, hcode, fun t ht => ?_, fun x hx => ?_, fun t ht => ?_,
    (length_inFlightAfter_le s).trans hlen, hcmp⟩
  · obtain ⟨u, hu, hresp, hwait⟩ := mem_inFlightAfter ht
    obtain ⟨hsane, hbound⟩ := hflight u hu
    exact ⟨hresp ▸ hsane, hwait.trans hbound⟩
  · rcases mem_deliveredAfter hx with hx | ⟨t, ht, rfl⟩
    · exact hdel x hx
    · exact (hflight t ht).1
  · obtain ⟨u, hu, hresp, -⟩ := mem_inFlightAfter ht
    rw [hresp]
    exact hfatal u hu

/-- `Sane` does not speak of the offered requests. -/
theorem acceptEdge_sane {s : State} (hs : s.Sane) : s.acceptEdge.Sane := edge_sane (s := s) hs

theorem resetEdge_sane {s : State} (hs : s.Sane) : s.resetEdge.Sane := by
  obtain ⟨hlut, -, -, -, hdel, -, -, hcmp⟩ := hs
  exact ⟨hlut, by simp, by simp, by simp, hdel, by simp, by simp, hcmp⟩

theorem finishCall_sane {s : State} {p : BlockPorts} (hs : s.Sane) (hp : s.blocks.CmpOneHot → p.CmpOneHot) :
    (s.finishCall p).Sane := by
  obtain ⟨hlut, hhalt, hcode, hflight, hdel, hfatal, hlen, hcmp⟩ := hs
  exact ⟨hlut, hhalt, hcode, hflight, hdel, hfatal, hlen, hp hcmp⟩

/-- While HALT is 0 no response in flight is fatal (R136). -/
theorem inFlight_normal_of_sane {s : State} (hs : s.Sane) (hh : s.halt = false) {t : Transaction}
    (ht : t ∈ s.inFlight) : ¬ t.response.fatal = true := by
  obtain ⟨-, -, -, -, -, hfatal, -, -⟩ := hs
  intro hf
  exact absurd (hh.symm.trans (hfatal t ht hf).1) (by decide)

theorem respond_sane {s : State} (hs : s.Sane) (hroom : s.inFlight.length < 1 + Config.extraCapacity) (i : Instr)
    (r : Wide) : (s.respond i r).Sane := by
  obtain ⟨hlut, hhalt, hcode, hflight, hdel, hfatal, -, hcmp⟩ := hs
  refine ⟨hlut, hhalt, hcode, fun t ht => ?_, hdel, fun t ht hf => ?_, by simpa using hroom, hcmp⟩
  all_goals
    rw [State.respond_inFlight, List.mem_append, List.mem_singleton] at ht
    rcases ht with ht | rfl
  · exact hflight t ht
  · exact ⟨Response.sane_normal r, latency_le i s.tick⟩
  · exact hfatal t ht hf
  · exact absurd hf Bool.false_ne_true

/-- A fatal condition met while HALT is 0: the older responses are normal, and the new one carries FCODE (R136). -/
theorem raiseFatal_sane {s : State} (hs : s.Sane) (hh : s.halt = false)
    (hroom : s.inFlight.length < 1 + Config.extraCapacity) (i : Instr) (c : FatalCode) : (s.raiseFatal i c).Sane := by
  have hnormal {t} := inFlight_normal_of_sane hs hh (t := t)
  obtain ⟨hlut, -, -, hflight, hdel, -, -, hcmp⟩ := hs
  refine ⟨hlut, iff_of_false (by simp) (fatalBits_ne_zero c), (fatalBits_range c).2, fun t ht => ?_, hdel,
    fun t ht hf => ?_, by simpa using hroom, hcmp⟩
  all_goals
    rw [State.raiseFatal_inFlight, List.mem_append, List.mem_singleton] at ht
    rcases ht with ht | rfl
  · exact hflight t ht
  · exact ⟨Response.sane_of_fatalBits rfl rfl, latency_le i s.tick⟩
  · exact absurd hf (hnormal ht)
  · exact ⟨rfl, rfl⟩

theorem complete_sane {s : State} (hs : s.Sane) (hh : s.halt = false)
    (hroom : s.inFlight.length < 1 + Config.extraCapacity) (i : Instr) (o : Except FatalCode Wide) :
    (s.complete i o).Sane := by
  cases o with
  | ok r => exact respond_sane hs hroom i r
  | error c => exact raiseFatal_sane hs hh hroom i c

/-- Poisoning lengthens no latency beyond a bound that held before (R136). -/
theorem poisonFrom_wait_le {c : FatalCode} {tick first pos bound : Nat} {ts : List Transaction}
    (hbound : ∀ t ∈ ts, t.wait ≤ bound) : ∀ t ∈ poisonFrom c tick first pos ts, t.wait ≤ bound := by
  obtain ⟨-, hwaits, -⟩ := poisonFrom_spec c tick first pos ts
  intro t ht
  have hmem : t.wait ∈ ts.map Transaction.wait := hwaits ▸ List.mem_map_of_mem ht
  obtain ⟨u, hu, hw⟩ := List.mem_map.1 hmem
  exact hw ▸ hbound u hu

/-- A fatal condition in an internal call, met while HALT is 0: the responses it spares are normal (R136). -/
theorem raiseBlockFatal_sane {s : State} (hs : s.Sane) (hh : s.halt = false) (n : Nat) (c : FatalCode) :
    (s.raiseBlockFatal n c).Sane := by
  have hnormal {t} := inFlight_normal_of_sane hs hh (t := t)
  obtain ⟨hlut, -, -, hflight, hdel, -, hlen, hcmp⟩ := hs
  obtain ⟨hlength, -, hmem⟩ := poisonFrom_spec c s.tick (s.inFlight.length - (n + 1)) 0 s.inFlight
  refine ⟨hlut, iff_of_false (by simp) (fatalBits_ne_zero c), (fatalBits_range c).2, fun t ht => ⟨?_, ?_⟩,
    hdel, fun t ht hf => ?_, hlength.trans_le hlen, hcmp⟩
  · rcases hmem t ht with hold | ⟨hf, hcode⟩
    · exact (hflight t hold).1
    · exact Response.sane_of_fatalBits hf hcode
  · exact poisonFrom_wait_le (fun u hu => (hflight u hu).2) t ht
  · rcases hmem t ht with hold | ⟨-, hcode⟩
    · exact absurd hf (hnormal hold)
    · exact ⟨rfl, hcode⟩

/-- A presented call is a call of its own function. -/
theorem callOf_of_call {s : State} {c : BlockCall} (h : s.call = some c) : s.callOf c.fn = some c.younger := by
  simp [State.callOf, h]

/-- A presented call ends with results that keep one WCMP output at 1, or in a fatal condition (R60 to R62, R70). -/
theorem exec_call_cases {s : State} {c : BlockCall} (hc : s.call = some c) :
    (∃ p, exec (callInstr c) s = .next (s.finishCall p) ∧ (s.blocks.CmpOneHot → p.CmpOneHot)) ∨
    (∃ n code, exec (callInstr c) s = .next (s.raiseBlockFatal n code)) := by
  have hcall := callOf_of_call hc
  have hpresented {fn} (hfn : s.callOf fn = some c.younger) : s.callOf fn ≠ none := by simp [hfn]
  obtain ⟨fn, younger⟩ := c
  cases fn with
  | wmul =>
    rcases exec_wmul_cases 0 0 s with ⟨_, -, he⟩ | ⟨hno, -⟩
    · exact .inl ⟨_, he, id⟩
    · exact absurd hno (hpresented hcall)
  | wdiv =>
    rcases exec_wdiv_cases 0 0 s with ⟨_, q, r, -, -, he⟩ | ⟨n, -, -, he⟩ | ⟨hno, -⟩
    · exact .inl ⟨_, he, id⟩
    · exact .inr ⟨n, _, he⟩
    · exact absurd hno (hpresented hcall)
  | wcmp =>
    rcases exec_wcmp_cases 0 0 s with ⟨_, -, he⟩ | ⟨hno, -⟩
    · exact .inl ⟨_, he, fun _ => compareWide_oneHot _ _⟩
    · exact absurd hno (hpresented hcall)
  | p10 =>
    rcases exec_p10_cases 0 0 s with ⟨_, w, -, -, he⟩ | ⟨n, -, -, he⟩ | ⟨hno, -⟩
    · exact .inl ⟨_, he, id⟩
    · exact .inr ⟨n, _, he⟩
    · exact absurd hno (hpresented hcall)

theorem exec_call_sane {s t : State} {c : BlockCall} (hs : s.Sane) (hh : s.halt = false) (hc : s.call = some c)
    (he : exec (callInstr c) s = .next t) : t.Sane := by
  rcases exec_call_cases hc with ⟨p, hp, hkeep⟩ | ⟨n, code, hp⟩
  · obtain rfl := Host.Outcome.next.inj (he.symm.trans hp)
    exact finishCall_sane hs hkeep
  · obtain rfl := Host.Outcome.next.inj (he.symm.trans hp)
    exact raiseBlockFatal_sane hs hh n code

/-- An acceptance finds HALT at 0 and room for its transaction (R16, R147). -/
theorem exec_accept_sane {s t : State} (hs : s.Sane) (hready : s.reqReady = true) {i : Instr}
    (he : exec i s.acceptEdge = .next t) : t.Sane := by
  obtain ⟨hh, -, hc, -, hroom⟩ := reqReady_spec hready
  obtain ⟨o, ho⟩ := exec_request (s := s.acceptEdge) hc i
  obtain rfl := Host.Outcome.next.inj (he.symm.trans ho)
  exact complete_sane (acceptEdge_sane hs) hh ((length_inFlightAfter_le s).trans_lt ((hasRoom_iff s).1 hroom)) i o

/-- Settles O49: each of the four kinds of clock edge keeps the invariant. -/
theorem stepKeepsSane : Obligations.StepKeepsSane := by
  intro s t hs hstep
  rcases step_cases s with ⟨-, h⟩ | ⟨-, hh, c, hc, h⟩ | ⟨-, hready, w, rest, -, h⟩ | ⟨-, h⟩
  · obtain rfl := Host.Outcome.next.inj (hstep.symm.trans h)
    exact resetEdge_sane hs
  · exact exec_call_sane (edge_sane hs) hh hc (h.symm.trans hstep)
  · exact exec_accept_sane hs hready (h.symm.trans hstep)
  · obtain rfl := Host.Outcome.next.inj (hstep.symm.trans h)
    exact edge_sane hs

end Sys2Proof.Machine

/-! The response of a request as a function of the request alone, up to what the spec leaves open (R24). -/

namespace Sys2Proof.Machine

/-- The outcome of a transaction on the request port. The clock edge enters by the free value of D2I alone (R123). -/
def requestOutcome (i : Instr) (tick : Nat) : Except FatalCode Wide :=
  match i with
  | .neg _ a => negOutcome a
  | .add b a => addOutcome b a
  | .sub b a => subOutcome b a
  | .mul b a => mulOutcome b a
  | .div b a => divOutcome b a
  | .sqrt _ a => sqrtOutcome a
  | .i2d _ a => i2dOutcome a
  | .d2i _ a => d2iOutcome a tick
  | .dec _ a => decOutcome a
  | .enc b a => encOutcome b a
  | .wmul _ _ | .wdiv _ _ | .wcmp _ _ | .p10 _ _ | .reservedE _ _ | .reservedF _ _ => .error .illegalOp

/-- With no internal call `exec` answers with `requestOutcome`, which reads nothing of the state but the clock edge. -/
theorem exec_requestOutcome {s : State} (hc : s.call = none) (i : Instr) :
    exec i s = .next (s.complete i (requestOutcome i s.tick)) := by
  have hno (fn : BlockFn) : s.callOf fn = none := callOf_none hc fn
  cases i with
  | neg b a => exact exec_neg b a s
  | add b a => exact exec_add b a s
  | sub b a => exact exec_sub b a s
  | mul b a => exact exec_mul b a s
  | div b a => exact exec_div b a s
  | sqrt b a => exact exec_sqrt b a s
  | i2d b a => exact exec_i2d b a s
  | d2i b a => exact exec_d2i b a s
  | dec b a => exact exec_dec b a s
  | enc b a => exact exec_enc b a s
  | wmul b a => exact ((exec_wmul_cases b a s).resolve_left (by simp [hno])).2
  | wdiv b a => exact (((exec_wdiv_cases b a s).resolve_left (by simp [hno])).resolve_left (by simp [hno])).2
  | wcmp b a => exact ((exec_wcmp_cases b a s).resolve_left (by simp [hno])).2
  | p10 b a => exact (((exec_p10_cases b a s).resolve_left (by simp [hno])).resolve_left (by simp [hno])).2
  | reservedE b a => exact exec_reservedE b a s
  | reservedF b a => exact exec_reservedF b a s

/-- Inside its domain D2I has no free value (R122). -/
theorem d2iOutcome_of_isSome {a : Word} (h : (toInt64 (codecDecode a)).isSome = true) (t t' : Nat) :
    d2iOutcome a t = d2iOutcome a t' := by
  obtain ⟨w, hw⟩ := Option.isSome_iff_exists.1 h
  simp [d2iOutcome, hw]

/-- At any two clock edges a request has the same outcome, or it is D2I outside its domain with two normal
outcomes (R123). -/
theorem requestOutcome_cases (i : Instr) (t t' : Nat) :
    requestOutcome i t = requestOutcome i t' ∨
    ∃ b a r r', i = .d2i b a ∧ ¬ (toInt64 (codecDecode a)).isSome = true ∧
      requestOutcome i t = .ok r ∧ requestOutcome i t' = .ok r' := by
  cases i with
  | d2i b a =>
    by_cases hdom : (toInt64 (codecDecode a)).isSome = true
    · exact .inl (d2iOutcome_of_isSome hdom t t')
    · exact .inr ⟨b, a, _, _, rfl, hdom, rfl, rfl⟩
  | _ => exact .inl rfl

/-- The response that an outcome gives: the `r` of a fatal one is free (R18, R42). -/
def outcomeResponse (i : Instr) (tick : Nat) (o : Except FatalCode Wide) : Response :=
  match o with
  | .ok r => { fatal := false, fcode := 0, r := r }
  | .error c => { fatal := true, fcode := fatalBits c, r := Config.fatalResult i tick }

theorem State.complete_inFlight_eq (s : State) (i : Instr) (o : Except FatalCode Wide) :
    (s.complete i o).inFlight =
      s.inFlight ++ [{ wait := latency i s.tick, response := outcomeResponse i s.tick o }] := by
  cases o with
  | ok r => exact State.respond_inFlight s i r
  | error c => exact State.raiseFatal_inFlight s i c

/-- One outcome at two clock edges: the responses differ at most in the `r` of a fatal one. -/
theorem outcomeResponse_agree (i : Instr) (o : Except FatalCode Wide) (t t' : Nat) :
    (outcomeResponse i t o).fatal = (outcomeResponse i t' o).fatal ∧
    (outcomeResponse i t o).fcode = (outcomeResponse i t' o).fcode ∧
    ((outcomeResponse i t o).fatal = false → (outcomeResponse i t o).r = (outcomeResponse i t' o).r) := by
  cases o with
  | ok r => exact ⟨rfl, rfl, fun _ => rfl⟩
  | error c => exact ⟨rfl, rfl, fun hnormal => absurd hnormal (by simp [outcomeResponse])⟩

/-- Settles O38: a response reads nothing of its state but the clock edge, which only the free values use. -/
theorem responseIndependentOfHistory : Obligations.ResponseIndependentOfHistory := by
  intro i s₁ s₂ h₁ h₂
  refine ⟨_, _, _, _, _, _, exec_requestOutcome h₁ i, exec_requestOutcome h₂ i,
    State.complete_inFlight_eq .., State.complete_inFlight_eq .., ?_⟩
  rcases requestOutcome_cases i s₁.tick s₂.tick with hsame | ⟨b, a, r, r', hi, hdom, hr, hr'⟩
  · obtain ⟨hfatal, hcode, hresult⟩ := outcomeResponse_agree i (requestOutcome i s₂.tick) s₁.tick s₂.tick
    rw [hsame]
    exact ⟨hfatal, hcode, fun hnormal _ => hresult hnormal⟩
  · rw [hr, hr']
    exact ⟨rfl, rfl, fun _ hinside => absurd (hinside b a hi) hdom⟩

end Sys2Proof.Machine

/-! The request word and its instruction determine each other (R41, R43). -/

namespace Sys2Proof

/-- A request word is its three fields `op ∥ b ∥ a` (R41). -/
theorem request_fields_append (w : RequestWord) : requestOp w ++ requestB w ++ requestA w = w := by
  have hw := w.isLt
  apply BitVec.eq_of_toNat_eq
  rw [Machine.toNat_concat, Machine.toNat_concat]
  simp only [requestOp, requestB, requestA, BitVec.extractLsb'_toNat, Nat.shiftRight_eq_div_pow]
  omega

/-- The row a word selects has the op code of the word and keeps both operand fields (R41, R43). -/
theorem decodeRequest_fields (w : RequestWord) :
    (decodeRequest w).opcode = requestOp w ∧ (decodeRequest w).fieldB = requestB w ∧
      (decodeRequest w).fieldA = requestA w := by
  have hlt := (requestOp w).isLt
  rw [decodeRequest]
  interval_cases hop : (requestOp w).toNat <;> exact ⟨BitVec.eq_of_toNat_eq hop.symm, rfl, rfl⟩

theorem encode_decodeRequest (w : RequestWord) : (decodeRequest w).encode = w := by
  obtain ⟨hop, hb, ha⟩ := decodeRequest_fields w
  rw [Instr.encode, hop, hb, ha, request_fields_append]

/-- Among 136 bits a request word leaves the upper four clear, so the decoder takes it. -/
theorem decodeTableWord_encode (i : Instr) : decodeTableWord 136 i.encode.toNat = some i := by
  have hlt : i.encode.toNat % 2 ^ 136 < 2 ^ 132 := (Nat.mod_le _ _).trans_lt i.encode.isLt
  rw [decodeTableWord, decodeBits, if_pos hlt, ofNat_encode_mod, decodeRequest_encode]

/-- A bit set above `req[131]` is rejected (log 14). -/
theorem decodeTableWord_of_ge {nbits w : Nat} (h : 2 ^ 132 ≤ w % 2 ^ nbits) : decodeTableWord nbits w = none := by
  rw [decodeTableWord, decodeBits, if_neg (Nat.not_lt.2 h)]

/-- Settles O1: the decoder reads the three fields of a word, and these make up the whole word. -/
theorem requestWordRoundTrip : Obligations.RequestWordRoundTrip :=
  ⟨fun i => ⟨decodeRequest_encode i, decodeTableWord_encode i⟩, encode_decodeRequest⟩

/-- Settles O2: the five numbers are the words of their instructions, and the sixth has bit 132 set. -/
theorem requestWordsOfTheSpecDecode : Obligations.RequestWordsOfTheSpecDecode :=
  ⟨decodeTableWord_encode (.i2d 0 3), decodeTableWord_encode (.div 0x2238000000000010 0x2238000000000001),
    decodeTableWord_encode (.sub 0x6DF8FF3FCFF3FCFF 0x2238000000000001),
    decodeTableWord_encode (.enc 0x0000000000050000 0),
    decodeTableWord_encode (.reservedE 0xA238000000000005 0xA238000000000005),
    decodeTableWord_of_ge (by decide)⟩

end Sys2Proof

/-! Declets row by row: the tables of R34 and R35 invert each other up to the redundant declets of R36. -/

namespace Sys2Proof.Machine

section Declet

variable (p q r s t u v w x y z : Bool)

theorem declet_getLsbD :
    (declet p q r s t u v w x y).getLsbD 9 = p ∧ (declet p q r s t u v w x y).getLsbD 8 = q ∧
    (declet p q r s t u v w x y).getLsbD 7 = r ∧ (declet p q r s t u v w x y).getLsbD 6 = s ∧
    (declet p q r s t u v w x y).getLsbD 5 = t ∧ (declet p q r s t u v w x y).getLsbD 4 = u ∧
    (declet p q r s t u v w x y).getLsbD 3 = v ∧ (declet p q r s t u v w x y).getLsbD 2 = w ∧
    (declet p q r s t u v w x y).getLsbD 1 = x ∧ (declet p q r s t u v w x y).getLsbD 0 = y := by
  have hbit (b : Bool) : b.toNat ≤ 1 := Bool.toNat_le b
  have hinj : ∀ {b c : Bool}, b.toNat = c.toNat → b = c := by decide
  have := hbit p; have := hbit q; have := hbit r; have := hbit s; have := hbit t
  have := hbit u; have := hbit v; have := hbit w; have := hbit x; have := hbit y
  refine ⟨?_, ?_, ?_, ?_, ?_, ?_, ?_, ?_, ?_, ?_⟩ <;> apply hinj <;>
    rw [BitVec.getLsbD, Nat.toNat_testBit, declet, BitVec.toNat_ofNat] <;> omega

theorem dpdDec_declet : dpdDec (declet p q r s t u v w x y) = dpdDecBits p q r s t u v w x y := by
  obtain ⟨h9, h8, h7, h6, h5, h4, h3, h2, h1, h0⟩ := declet_getLsbD p q r s t u v w x y
  rw [dpdDec, h9, h8, h7, h6, h5, h4, h3, h2, h1, h0]

end Declet

/-- A declet is its ten bits. -/
theorem declet_eta (T : BitVec 10) :
    declet (T.getLsbD 9) (T.getLsbD 8) (T.getLsbD 7) (T.getLsbD 6) (T.getLsbD 5) (T.getLsbD 4) (T.getLsbD 3)
      (T.getLsbD 2) (T.getLsbD 1) (T.getLsbD 0) = T := by
  obtain ⟨h9, h8, h7, h6, h5, h4, h3, h2, h1, h0⟩ := declet_getLsbD (T.getLsbD 9) (T.getLsbD 8) (T.getLsbD 7)
    (T.getLsbD 6) (T.getLsbD 5) (T.getLsbD 4) (T.getLsbD 3) (T.getLsbD 2) (T.getLsbD 1) (T.getLsbD 0)
  apply BitVec.eq_of_getLsbD_eq
  intro i hi
  interval_cases i <;> assumption

theorem canonicalDeclet_declet (p q r s t u v w x y : Bool) :
    canonicalDeclet (declet p q r s t u v w x y) = !(v && w && x && s && t && (p || q)) := by
  obtain ⟨h9, h8, -, h6, h5, -, h3, h2, h1, -⟩ := declet_getLsbD p q r s t u v w x y
  rw [canonicalDeclet, h9, h8, h6, h5, h3, h2, h1]

/-- The ten digits are the ones the two rows of R34 write. -/
theorem digit_cases : ∀ d < 10, (∃ x y z, d = digitSmall x y z) ∨ ∃ z, d = digitLarge z := by decide

/-- Every number below 1000 has three digits. -/
theorem exists_threeDigits {n : Nat} (hn : n < 1000) :
    ∃ d2 d1 d0, d2 < 10 ∧ d1 < 10 ∧ d0 < 10 ∧ n = threeDigits d2 d1 d0 :=
  ⟨n / 100, n / 10 % 10, n % 10, by omega, by omega, by omega, by rw [threeDigits]; omega⟩

/-- `dpd_enc` reads the bits of each of the three digits (R35). -/
theorem dpdEnc_threeDigits {d2 d1 d0 : Nat} (h2 : d2 < 10) (h1 : d1 < 10) (h0 : d0 < 10) :
    dpdEnc (threeDigits d2 d1 d0) =
      dpdEncBits (d2.testBit 3) (d2.testBit 2) (d2.testBit 1) (d2.testBit 0) (d1.testBit 3) (d1.testBit 2)
        (d1.testBit 1) (d1.testBit 0) (d0.testBit 3) (d0.testBit 2) (d0.testBit 1) (d0.testBit 0) := by
  have e2 : threeDigits d2 d1 d0 / 100 % 10 = d2 := by rw [threeDigits]; omega
  have e1 : threeDigits d2 d1 d0 / 10 % 10 = d1 := by rw [threeDigits]; omega
  have e0 : threeDigits d2 d1 d0 % 10 = d0 := by rw [threeDigits]; omega
  rw [dpdEnc, e2, e1, e0]

theorem digitSmall_lt (x y z : Bool) : digitSmall x y z < 10 := by revert x y z; decide

theorem digitLarge_lt (z : Bool) : digitLarge z < 10 := by revert z; decide

/-- The bits of a digit 0 to 7 are `0 x y z` (R34). -/
theorem digitSmall_testBit (x y z : Bool) :
    (digitSmall x y z).testBit 3 = false ∧ (digitSmall x y z).testBit 2 = x ∧ (digitSmall x y z).testBit 1 = y ∧
      (digitSmall x y z).testBit 0 = z := by revert x y z; decide

/-- The bits of a digit 8 or 9 are `1 0 0 z` (R34). -/
theorem digitLarge_testBit (z : Bool) :
    (digitLarge z).testBit 3 = true ∧ (digitLarge z).testBit 2 = false ∧ (digitLarge z).testBit 1 = false ∧
      (digitLarge z).testBit 0 = z := by revert z; decide

/-- Each row of R35 is read back by its row of R34. -/
theorem dpdDec_dpdEnc_threeDigits {d2 d1 d0 : Nat} (h2 : d2 < 10) (h1 : d1 < 10) (h0 : d0 < 10) :
    dpdDec (dpdEnc (threeDigits d2 d1 d0)) = threeDigits d2 d1 d0 := by
  rw [dpdEnc_threeDigits h2 h1 h0]
  rcases digit_cases d2 h2 with ⟨b, c, d, rfl⟩ | ⟨d, rfl⟩ <;>
  rcases digit_cases d1 h1 with ⟨f, g, h, rfl⟩ | ⟨h, rfl⟩ <;>
  rcases digit_cases d0 h0 with ⟨j, k, m, rfl⟩ | ⟨m, rfl⟩ <;>
  simp only [digitSmall_testBit, digitLarge_testBit, dpdEncBits, dpdDec_declet, dpdDecBits]

/-- Re-encoding clears `p` and `q` in the last row of R34, which does not read them, and keeps every other declet. -/
theorem dpdEnc_dpdDecBits (p q r s t u v w x y : Bool) :
    dpdEnc (dpdDecBits p q r s t u v w x y) =
      if v && w && x && s && t then declet false false r s t u v w x y else declet p q r s t u v w x y := by
  rw [dpdDecBits.eq_def]
  split <;>
    rw [dpdEnc_threeDigits (by simp only [digitSmall_lt, digitLarge_lt]) (by simp only [digitSmall_lt, digitLarge_lt])
      (by simp only [digitSmall_lt, digitLarge_lt])] <;>
    simp [-Nat.testBit_zero, digitSmall_testBit, digitLarge_testBit, dpdEncBits]

/-- Two declets with the same bits below `p q` are equal exactly when `p` and `q` agree. -/
theorem declet_clear_eq_iff (p q r s t u v w x y : Bool) :
    declet false false r s t u v w x y = declet p q r s t u v w x y ↔ (p || q) = false := by
  obtain ⟨h9, h8, -⟩ := declet_getLsbD p q r s t u v w x y
  obtain ⟨k9, k8, -⟩ := declet_getLsbD false false r s t u v w x y
  refine ⟨fun h => ?_, fun h => ?_⟩
  · rw [h] at k9 k8
    exact Bool.or_eq_false_iff.2 ⟨h9.symm.trans k9, h8.symm.trans k8⟩
  · obtain ⟨rfl, rfl⟩ := Bool.or_eq_false_iff.1 h
    rfl

/-- R36: the declets that re-encoding gives back are the canonical ones. -/
theorem dpdEnc_dpdDec_eq_iff (T : BitVec 10) : dpdEnc (dpdDec T) = T ↔ canonicalDeclet T = true := by
  rw [← declet_eta T]
  generalize T.getLsbD 9 = p, T.getLsbD 8 = q, T.getLsbD 7 = r, T.getLsbD 6 = s, T.getLsbD 5 = t, T.getLsbD 4 = u,
    T.getLsbD 3 = v, T.getLsbD 2 = w, T.getLsbD 1 = x, T.getLsbD 0 = y
  rw [dpdDec_declet, dpdEnc_dpdDecBits, canonicalDeclet_declet]
  by_cases hrow : (v && w && x && s && t) = true
  · rw [if_pos hrow, declet_clear_eq_iff, hrow, Bool.true_and, Bool.not_eq_true']
  · rw [if_neg hrow, Bool.eq_false_of_not_eq_true hrow]
    exact iff_of_true rfl rfl

/-- Settles O3: row by row of the tables of R34 and R35. -/
theorem decletsRoundTrip : Obligations.DecletsRoundTrip := by
  refine ⟨fun n hn => ?_, fun T => ⟨dpdDec_lt T, dpdEnc_dpdDec_eq_iff T⟩⟩
  obtain ⟨d2, d1, d0, h2, h1, h0, rfl⟩ := exists_threeDigits hn
  exact dpdDec_dpdEnc_threeDigits h2 h1 h0

end Sys2Proof.Machine

/-! The ends of a transaction on the request port, and which requests end fatally (R18, R43, R136). -/

namespace Sys2Proof.Machine

theorem complete_ok_answered (s : State) (i : Instr) (r : Wide) : Answered s (s.complete i (.ok r)) r :=
  ⟨rfl, rfl, ⟨_, latency_le i s.tick, rfl⟩, rfl, rfl, rfl, rfl, rfl, rfl, rfl, rfl⟩

theorem complete_error_fatallyAnswered (s : State) (i : Instr) (c : FatalCode) :
    FatallyAnswered s (s.complete i (.error c)) (fatalBits c) :=
  ⟨rfl, rfl, ⟨_, _, latency_le i s.tick, rfl⟩, rfl, rfl, rfl, rfl, rfl, rfl, rfl, rfl⟩

/-- "every 64-bit pattern decodes to some logical value", and to one in the ranges of R15 (R50). -/
theorem codecDecode_wellFormed (v : Word) : (codecDecode v).isWellFormed = true := by
  rcases codecDecode_cases v with ⟨-, h⟩ | ⟨-, h⟩ | ⟨hnan, hinf, h⟩ <;> rw [h]
  · rfl
  · rfl
  · have htop : (exponentTop (fieldG v)).toNat ≠ 3 := fun h3 =>
      exponentTop_ne (fieldG v) hnan hinf (BitVec.eq_of_toNat_eq h3)
    have hE : (biasedExponent v).toNat = (exponentTop (fieldG v)).toNat * 2 ^ 8 + (fieldEC v).toNat :=
      toNat_concat _ _
    have hlt := (exponentTop (fieldG v)).isLt
    have hec := (fieldEC v).isLt
    exact isWellFormed_finite (coefficient_lt v) (by simp only [eMin, bias]; omega) (by simp only [eMax, bias]; omega)

/-- The result of an arithmetic function is normal: its value is well-formed (R15, R75). -/
theorem encodeResult_ok_of_wellFormed {x : LogicalValue} (hx : x.isWellFormed = true) :
    ∃ r, encodeResult x = .ok r := by
  obtain ⟨p, -, h⟩ := encodeResult_of_wellFormed hx
  exact ⟨_, h⟩

theorem encodeResult_error_of_not_wellFormed {x : LogicalValue} (hx : x.isWellFormed = false) :
    encodeResult x = .error .codecInvariant := by
  rcases codecEncode_cases x with ⟨h, -⟩ | ⟨-, h⟩
  · exact absurd (hx.symm.trans h) (by decide)
  · rw [encodeResult, h]; rfl

theorem addOutcome_ok (b a : Word) : ∃ r, addOutcome b a = .ok r :=
  encodeResult_ok_of_wellFormed (addValue_wellFormed _ _)
theorem mulOutcome_ok (b a : Word) : ∃ r, mulOutcome b a = .ok r :=
  encodeResult_ok_of_wellFormed (mulValue_wellFormed _ _)
theorem divOutcome_ok (b a : Word) : ∃ r, divOutcome b a = .ok r :=
  encodeResult_ok_of_wellFormed (divValue_wellFormed _ _)
theorem sqrtOutcome_ok (a : Word) : ∃ r, sqrtOutcome a = .ok r :=
  encodeResult_ok_of_wellFormed (sqrtValue_wellFormed (codecDecode_wellFormed a))
theorem i2dOutcome_ok (a : Word) : ∃ r, i2dOutcome a = .ok r :=
  encodeResult_ok_of_wellFormed (intValue_wellFormed _)

/-- Where the fields of an LV128 bundle lie in the operands `b` and `a` of ENC (R39). -/
theorem bundleOperand_fields (b a : Word) :
    (bundleOperand b a).extractLsb' 81 2 = b.extractLsb' 17 2 ∧ (bundleOperand b a).getLsbD 80 = b.getLsbD 16 ∧
    (bundleOperand b a).extractLsb' 64 16 = b.extractLsb' 0 16 ∧
    (bundleOperand b a).extractLsb' 0 54 = a.extractLsb' 0 54 := by
  have ha := a.isLt
  have hv : (bundleOperand b a).toNat = b.toNat * 2 ^ 64 + a.toNat := toNat_concat b a
  refine ⟨BitVec.eq_of_toNat_eq ?_, ?_, BitVec.eq_of_toNat_eq ?_, BitVec.eq_of_toNat_eq ?_⟩
  case refine_2 => exact BitVec.getLsbD_append
  all_goals
    simp only [BitVec.extractLsb'_toNat, hv, Nat.shiftRight_eq_div_pow]
    omega

/-- The well-formed bundles are those of a well-formed logical value (R39, R53). -/
theorem bundleWellFormed_eq_any (b a : Word) :
    bundleWellFormed b a = (unpackBundle (bundleOperand b a)).any LogicalValue.isWellFormed := by
  obtain ⟨hkind, -, hexp, hcoeff⟩ := bundleOperand_fields b a
  rw [bundleWellFormed, bundleKindOk, bundleCoeffOk, bundleExpOk]
  rcases unpackBundle_cases (bundleOperand b a) with ⟨hk, h⟩ | ⟨hk, h⟩ | ⟨hk, h⟩ | ⟨hk, h⟩ <;>
    rw [hkind] at hk <;> rw [hk, h]
  · rfl
  · rfl
  · rfl
  · rw [hcoeff, hexp]
    simp [LogicalValue.isWellFormed, Bool.and_assoc]

/-- ENC answers exactly the well-formed bundles (R53, R133). -/
theorem encOutcome_cases (b a : Word) :
    (bundleWellFormed b a = true ∧ ∃ r, encOutcome b a = .ok r) ∨
    (bundleWellFormed b a = false ∧ encOutcome b a = .error .codecInvariant) := by
  rw [bundleWellFormed_eq_any, encOutcome.eq_def]
  cases unpackBundle (bundleOperand b a) with
  | none => exact .inr ⟨rfl, rfl⟩
  | some x =>
    cases hx : x.isWellFormed with
    | true => exact .inl ⟨hx, encodeResult_ok_of_wellFormed hx⟩
    | false => exact .inr ⟨hx, encodeResult_error_of_not_wellFormed hx⟩

/-- Two words with the same low bits have the same fields among these bits. -/
theorem extractLsb'_eq_of_low_eq {n : Nat} {x y : Word} (h : x.extractLsb' 0 n = y.extractLsb' 0 n) {start len : Nat}
    (hle : start + len ≤ n) : x.extractLsb' start len = y.extractLsb' start len := by
  apply BitVec.eq_of_getLsbD_eq
  intro i hi
  have hbit := congrArg (fun z => z.getLsbD (start + i)) h
  simpa [hi, show start + i < n by omega] using hbit

/-- ENC reads `b[18:0]` and `a[53:0]` alone (R44). -/
theorem encOutcome_congr {b b' a a' : Word} (hb : b.extractLsb' 0 19 = b'.extractLsb' 0 19)
    (ha : a.extractLsb' 0 54 = a'.extractLsb' 0 54) : encOutcome b a = encOutcome b' a' := by
  obtain ⟨hkind, hsign, hexp, hcoeff⟩ := bundleOperand_fields b a
  obtain ⟨hkind', hsign', hexp', hcoeff'⟩ := bundleOperand_fields b' a'
  have hbit : b.getLsbD 16 = b'.getLsbD 16 := by
    simpa using congrArg (fun z => z.getLsbD 0) (extractLsb'_eq_of_low_eq hb (start := 16) (len := 1) (by decide))
  have hunpack : unpackBundle (bundleOperand b a) = unpackBundle (bundleOperand b' a') := by
    simp only [unpackBundle, hkind, hsign, hexp, hcoeff, hkind', hsign', hexp', hcoeff', hbit, ha,
      extractLsb'_eq_of_low_eq hb (start := 17) (len := 2) (by decide),
      extractLsb'_eq_of_low_eq hb (start := 0) (len := 16) (by decide)]
  rw [encOutcome, encOutcome, hunpack]

/-- Two requests with one normal outcome get the same response. -/
theorem same_response {i i' : Instr} {s : State} {o : Except FatalCode Wide} (ho : ∃ r, o = .ok r)
    (hi : exec i s = .next (s.complete i o)) (hi' : exec i' s = .next (s.complete i' o)) :
    ∃ t t' r, exec i s = .next t ∧ exec i' s = .next t' ∧ Answered s t r ∧ Answered s t' r := by
  obtain ⟨r, rfl⟩ := ho
  exact ⟨_, _, r, hi, hi', complete_ok_answered s i r, complete_ok_answered s i' r⟩

/-- Settles O36: the outcome of each of these functions reads none of the ignored bits. From one state D2I gives even
its free value alike, so that its domain plays no part. -/
theorem ignoredFieldsHaveNoEffect : Obligations.IgnoredFieldsHaveNoEffect := by
  refine ⟨fun b b' a s i i' hmem => ?_, fun b b' a s _ => ?_, fun b b' a a' s hb ha => ?_⟩
  · simp only [List.mem_cons, List.not_mem_nil, or_false, Prod.mk.injEq] at hmem
    rcases hmem with ⟨rfl, rfl⟩ | ⟨rfl, rfl⟩ | ⟨rfl, rfl⟩ | ⟨rfl, rfl⟩
    · exact same_response ⟨_, rfl⟩ (exec_neg b a s) (exec_neg b' a s)
    · exact same_response (sqrtOutcome_ok a) (exec_sqrt b a s) (exec_sqrt b' a s)
    · exact same_response (i2dOutcome_ok a) (exec_i2d b a s) (exec_i2d b' a s)
    · exact same_response ⟨_, rfl⟩ (exec_dec b a s) (exec_dec b' a s)
  · exact same_response ⟨_, rfl⟩ (exec_d2i b a s) (exec_d2i b' a s)
  · refine ⟨_, _, exec_enc b a s, exec_enc b' a' s, ?_⟩
    rw [← encOutcome_congr hb ha]
    rcases encOutcome_cases b a with ⟨-, r, h⟩ | ⟨-, h⟩ <;> rw [h]
    · exact .inl ⟨r, complete_ok_answered .., complete_ok_answered ..⟩
    · exact .inr ⟨complete_error_fatallyAnswered .., complete_error_fatallyAnswered ..⟩

/-- A request has a result exactly when it is legal (R43, R133, R135). -/
theorem requestOutcome_legal (i : Instr) (tick : Nat) :
    (i.legalRequest = true ∧ ∃ r, requestOutcome i tick = .ok r) ∨
    (i.legalRequest = false ∧ ∃ c, requestOutcome i tick = .error c) := by
  cases i with
  | neg b a | d2i b a | dec b a => exact .inl ⟨rfl, _, rfl⟩
  | add b a => exact .inl ⟨rfl, addOutcome_ok b a⟩
  | sub b a => exact .inl ⟨rfl, addOutcome_ok (negate b) a⟩
  | mul b a => exact .inl ⟨rfl, mulOutcome_ok b a⟩
  | div b a => exact .inl ⟨rfl, divOutcome_ok b a⟩
  | sqrt b a => exact .inl ⟨rfl, sqrtOutcome_ok a⟩
  | i2d b a => exact .inl ⟨rfl, i2dOutcome_ok a⟩
  | enc b a => exact (encOutcome_cases b a).imp_right fun ⟨hill, h⟩ => ⟨hill, _, h⟩
  | wmul b a | wdiv b a | wcmp b a | p10 b a | reservedE b a | reservedF b a => exact .inr ⟨rfl, _, rfl⟩

/-- Settles O37: a result leaves HALT as it was, and a fatal outcome sets it. -/
theorem onlyIllegalRequestsHalt : Obligations.OnlyIllegalRequestsHalt := by
  intro i s hc
  refine ⟨_, exec_requestOutcome hc i, ?_⟩
  rcases requestOutcome_legal i s.tick with ⟨hlegal, r, h⟩ | ⟨hill, c, h⟩ <;> rw [h]
  · simp [hlegal]
  · simp [hill]

end Sys2Proof.Machine

/-! The codec laws of R54: `encode` writes the canonical pattern of a value, and `decode` reads it back. -/

namespace Sys2Proof.Machine

/-- The ranges of R15 as numbers. -/
theorem isWellFormed_finite_iff (s : Bool) (c : Nat) (e : Int) :
    (LogicalValue.finite s c e).isWellFormed = true ↔ c ≤ 9999999999999999 ∧ -398 ≤ e ∧ e ≤ 369 := by
  simp only [LogicalValue.isWellFormed, Bool.and_eq_true, decide_eq_true_eq, and_assoc]
  rfl

/-- The field `S` is the top bit of a word (R30). -/
theorem extractLsb'_sign (v : Word) : v.extractLsb' 63 1 = BitVec.ofBool (fieldS v) := by
  apply BitVec.eq_of_getLsbD_eq
  intro i hi
  obtain rfl : i = 0 := by omega
  simp [fieldS]

theorem fieldS_eq_iff (v : Word) (s : Bool) : fieldS v = s ↔ v.extractLsb' 63 1 = BitVec.ofBool s := by
  rw [extractLsb'_sign, BitVec.ofBool_eq_iff_eq]

/-- The sign, the combination field and the trailing bits of a NaN or Infinity pattern (R31, R37). -/
theorem tagged_fields (s : Bool) (G : BitVec 5) (low : BitVec 58) :
    let v : Word := BitVec.ofBool s ++ G ++ low
    fieldS v = s ∧ fieldG v = G ∧ v.extractLsb' 0 58 = low := by
  intro v
  have hv : v.toNat = ((BitVec.ofBool s).toNat * 2 ^ 5 + G.toNat) * 2 ^ 58 + low.toNat := by
    rw [← toNat_concat, ← toNat_concat]
  have hs := (BitVec.ofBool s).isLt
  have hG := G.isLt
  have hlow := low.isLt
  rw [fieldS_eq_iff]
  refine ⟨?_, ?_, ?_⟩ <;> apply BitVec.eq_of_toNat_eq <;>
    simp only [fieldG, BitVec.extractLsb'_toNat, hv, Nat.shiftRight_eq_div_pow] <;> omega

/-- A word is its sign, its combination field and its trailing bits (R30). -/
theorem tagged_eta (v : Word) : BitVec.ofBool (fieldS v) ++ fieldG v ++ v.extractLsb' 0 58 = v := by
  have hlt := v.isLt
  rw [← extractLsb'_sign]
  apply BitVec.eq_of_toNat_eq
  rw [toNat_concat, toNat_concat]
  simp only [fieldG, BitVec.extractLsb'_toNat, Nat.shiftRight_eq_div_pow]
  omega

/-- A word is its fields `S ∥ G ∥ EC ∥ T4 ∥ T3 ∥ T2 ∥ T1 ∥ T0` (R30, R33). -/
theorem packed_eta (v : Word) :
    BitVec.ofBool (fieldS v) ++ fieldG v ++ fieldEC v ++ fieldT v 4 ++ fieldT v 3 ++ fieldT v 2 ++ fieldT v 1 ++
      fieldT v 0 = v := by
  have hlt := v.isLt
  rw [← extractLsb'_sign]
  apply BitVec.eq_of_toNat_eq
  rw [toNat_concat, toNat_concat, toNat_concat, toNat_concat, toNat_concat, toNat_concat, toNat_concat]
  simp only [fieldG, fieldEC, fieldT, BitVec.extractLsb'_toNat, Nat.shiftRight_eq_div_pow]
  omega

/-- The combination field of a digit and two exponent bits other than `11` is that of a Finite pattern, and holds both
(R31, R51). -/
theorem combination_fields : ∀ lead < 10, ∀ top : BitVec 2, top ≠ 0b11#2 →
    combination lead top ≠ nanTag ∧ combination lead top ≠ infTag ∧ exponentTop (combination lead top) = top ∧
      leadingDigit (combination lead top) = lead := by decide

/-- The combination field of a Finite pattern is the one `encode` writes for its digit and exponent bits (R31, R51). -/
theorem combination_eta : ∀ G : BitVec 5, G ≠ nanTag → G ≠ infTag →
    combination (leadingDigit G) (exponentTop G) = G := by decide

theorem dpdDec_dpdEnc {n : Nat} (hn : n < 1000) : dpdDec (dpdEnc n) = n := decletsRoundTrip.1 n hn

/-- `encode` writes no redundant declet (R35, R36). -/
theorem canonicalDeclet_dpdEnc {n : Nat} (hn : n < 1000) : canonicalDeclet (dpdEnc n) = true := by
  rw [← dpdEnc_dpdDec_eq_iff, dpdDec_dpdEnc hn]

/-- The fields `encode` writes for a Finite value (R51). -/
theorem packFinite_fields (s : Bool) (E : BitVec 10) (lead rest : Nat) :
    let v := packFinite s E lead rest
    fieldS v = s ∧ fieldG v = combination lead (E.extractLsb' 8 2) ∧ fieldEC v = E.extractLsb' 0 8 ∧
      fieldT v 4 = dpdEnc (rest / 10 ^ 12 % 1000) ∧ fieldT v 3 = dpdEnc (rest / 10 ^ 9 % 1000) ∧
      fieldT v 2 = dpdEnc (rest / 10 ^ 6 % 1000) ∧ fieldT v 1 = dpdEnc (rest / 10 ^ 3 % 1000) ∧
      fieldT v 0 = dpdEnc (rest % 1000) := by
  intro v
  rw [fieldS_eq_iff]
  exact packed_fields ..

section PackFinite

variable {E : BitVec 10} {lead rest : Nat}

/-- The pattern `encode` writes for a Finite value decodes to that value (R50, R51). -/
theorem codecDecode_packFinite (s : Bool) (hE : E.extractLsb' 8 2 ≠ 0b11#2) (hlead : lead < 10)
    (hrest : rest < 10 ^ 15) :
    codecDecode (packFinite s E lead rest) = .finite s (lead * 10 ^ 15 + rest) (E.toNat - bias) := by
  obtain ⟨hS, hG, hEC, h4, h3, h2, h1, h0⟩ := packFinite_fields s E lead rest
  obtain ⟨hnan, hinf, htop, hdigit⟩ := combination_fields lead hlead _ hE
  have hmod (n : Nat) : dpdDec (dpdEnc (n % 1000)) = n % 1000 := dpdDec_dpdEnc (Nat.mod_lt n (by decide))
  have hexp : biasedExponent (packFinite s E lead rest) = E := by
    rw [biasedExponent, hG, htop, hEC, BitVec.extractLsb'_append_extractLsb' (w := 2)]
  have hcoeff : coefficient (packFinite s E lead rest) = lead * 10 ^ 15 + rest := by
    rw [coefficient, hG, hdigit, h4, h3, h2, h1, h0, hmod, hmod, hmod, hmod, hmod]
    omega
  rw [codecDecode, hG, if_neg hnan, if_neg hinf, hS, hcoeff, hexp]

theorem canonicalPattern_packFinite (s : Bool) (hE : E.extractLsb' 8 2 ≠ 0b11#2) (hlead : lead < 10) :
    canonicalPattern (packFinite s E lead rest) = true := by
  obtain ⟨-, hG, -, h4, h3, h2, h1, h0⟩ := packFinite_fields s E lead rest
  obtain ⟨hnan, hinf, -⟩ := combination_fields lead hlead _ hE
  have hmod (n : Nat) : canonicalDeclet (dpdEnc (n % 1000)) = true := canonicalDeclet_dpdEnc (Nat.mod_lt n (by decide))
  rw [canonicalPattern, hG, if_neg (not_or.2 ⟨hnan, hinf⟩), h4, h3, h2, h1, h0, hmod, hmod, hmod, hmod, hmod]
  rfl

end PackFinite

/-- The biased exponent of a well-formed value is in range, and its top bits are never `11` (R31, R32). -/
theorem biased_range {e : Int} (hmin : -398 ≤ e) (hmax : e ≤ 369) :
    ((BitVec.ofNat 10 (e + bias).toNat).toNat : Int) - bias = e ∧
      (BitVec.ofNat 10 (e + bias).toNat).extractLsb' 8 2 ≠ 0b11#2 := by
  have hE : (BitVec.ofNat 10 (e + bias).toNat).toNat = (e + 398).toNat :=
    Nat.mod_eq_of_lt (by rw [bias]; omega)
  refine ⟨by rw [hE, bias]; omega, fun h => ?_⟩
  have htop := congrArg BitVec.toNat h
  rw [BitVec.extractLsb'_toNat, hE, Nat.shiftRight_eq_div_pow, BitVec.toNat_ofNat] at htop
  omega

/-- Settles O4: a tagged pattern is read back by its tag, a Finite one field by field. -/
theorem decodeInvertsEncode : Obligations.DecodeInvertsEncode := by
  intro x hx
  cases x with
  | nan s =>
    obtain ⟨hS, hG, hlow⟩ := tagged_fields s nanTag 0#58
    exact ⟨_, rfl, by rw [codecDecode, hG, if_pos rfl, hS],
      by rw [canonicalPattern, hG, if_pos (.inl rfl), hlow]; rfl⟩
  | inf s =>
    obtain ⟨hS, hG, hlow⟩ := tagged_fields s infTag 0#58
    exact ⟨_, rfl, by rw [codecDecode, hG, if_neg (by decide), if_pos rfl, hS],
      by rw [canonicalPattern, hG, if_pos (.inr rfl), hlow]; rfl⟩
  | finite s c e =>
    obtain ⟨hc, hmin, hmax⟩ := (isWellFormed_finite_iff s c e).1 hx
    obtain ⟨hexp, htop⟩ := biased_range hmin hmax
    have hlead : c / 10 ^ 15 < 10 := by omega
    refine ⟨_, if_pos hx, ?_, canonicalPattern_packFinite s htop hlead⟩
    rw [codecDecode_packFinite s htop hlead (Nat.mod_lt c (by decide)), hexp, Nat.div_add_mod']

/-- A canonical tagged pattern is its sign and its tag, the rest 0 (R36). -/
theorem tagged_of_canonical {p : Word} (htag : fieldG p = nanTag ∨ fieldG p = infTag)
    (hp : canonicalPattern p = true) : BitVec.ofBool (fieldS p) ++ fieldG p ++ 0#58 = p := by
  rw [canonicalPattern, if_pos htag, decide_eq_true_eq] at hp
  have heta := tagged_eta p
  rwa [hp] at heta

/-- The declets of the coefficient continuation are groups of three digits below the leading one (R33). -/
theorem coefficient_digits (p : Word) :
    coefficient p / 10 ^ 15 = leadingDigit (fieldG p) ∧
    coefficient p % 10 ^ 15 / 10 ^ 12 % 1000 = dpdDec (fieldT p 4) ∧
    coefficient p % 10 ^ 15 / 10 ^ 9 % 1000 = dpdDec (fieldT p 3) ∧
    coefficient p % 10 ^ 15 / 10 ^ 6 % 1000 = dpdDec (fieldT p 2) ∧
    coefficient p % 10 ^ 15 / 10 ^ 3 % 1000 = dpdDec (fieldT p 1) ∧
    coefficient p % 10 ^ 15 % 1000 = dpdDec (fieldT p 0) := by
  have h4 := dpdDec_lt (fieldT p 4)
  have h3 := dpdDec_lt (fieldT p 3)
  have h2 := dpdDec_lt (fieldT p 2)
  have h1 := dpdDec_lt (fieldT p 1)
  have h0 := dpdDec_lt (fieldT p 0)
  rw [coefficient]
  refine ⟨?_, ?_, ?_, ?_, ?_, ?_⟩ <;> omega

theorem biasedExponent_fields (p : Word) :
    (biasedExponent p).extractLsb' 8 2 = exponentTop (fieldG p) ∧ (biasedExponent p).extractLsb' 0 8 = fieldEC p :=
  ⟨BitVec.extractLsb'_append_eq_left, BitVec.extractLsb'_append_eq_right⟩

/-- A canonical Finite pattern is the one `encode` writes for its exponent and its coefficient (R36, R51). -/
theorem packFinite_of_canonical {p : Word} (hnan : fieldG p ≠ nanTag) (hinf : fieldG p ≠ infTag)
    (hp : canonicalPattern p = true) :
    packFinite (fieldS p) (biasedExponent p) (coefficient p / 10 ^ 15) (coefficient p % 10 ^ 15) = p := by
  rw [canonicalPattern, if_neg (not_or.2 ⟨hnan, hinf⟩)] at hp
  simp only [Bool.and_eq_true, ← dpdEnc_dpdDec_eq_iff] at hp
  obtain ⟨⟨⟨⟨h4, h3⟩, h2⟩, h1⟩, h0⟩ := hp
  obtain ⟨clead, c4, c3, c2, c1, c0⟩ := coefficient_digits p
  obtain ⟨etop, ecnt⟩ := biasedExponent_fields p
  rw [packFinite, clead, c4, c3, c2, c1, c0, h4, h3, h2, h1, h0, etop, ecnt, combination_eta _ hnan hinf]
  exact packed_eta p

/-- R54's second law on the canonical patterns. -/
theorem codecEncode_codecDecode_of_canonical {p : Word} (hp : canonicalPattern p = true) :
    codecEncode (codecDecode p) = .ok p := by
  have hwf := codecDecode_wellFormed p
  rcases codecDecode_cases p with ⟨htag, h⟩ | ⟨htag, h⟩ | ⟨hnan, hinf, h⟩ <;> rw [h]
  · rw [codecEncode, ← htag, tagged_of_canonical (.inl htag) hp]
  · rw [codecEncode, ← htag, tagged_of_canonical (.inr htag) hp]
  · rw [h] at hwf
    have hE : BitVec.ofNat 10 (((biasedExponent p).toNat : Int) - bias + bias).toNat = biasedExponent p := by
      rw [Int.sub_add_cancel, Int.toNat_natCast, BitVec.ofNat_toNat, BitVec.setWidth_eq]
    rw [codecEncode, if_pos hwf, hE, packFinite_of_canonical hnan hinf hp]

/-- Settles O5: what `encode` writes is canonical and has the value it was given, by the first law. -/
theorem encodeInvertsDecodeOnCanonical : Obligations.EncodeInvertsDecodeOnCanonical := by
  intro p
  obtain ⟨q, henc, hdec, hcanon⟩ := decodeInvertsEncode (codecDecode p) (codecDecode_wellFormed p)
  refine ⟨⟨q, henc, hdec⟩, fun h => ?_, codecEncode_codecDecode_of_canonical⟩
  obtain rfl : q = p := Except.ok.inj (henc.symm.trans h)
  exact hcanon

/-- Settles O6: the exponent bits of a Finite pattern are never `11`, and its digits are digits. -/
theorem decodeIsWellFormed : Obligations.DecodeIsWellFormed := codecDecode_wellFormed

end Sys2Proof.Machine

/-! The bundles of DEC and ENC (R39, R52, R53). -/

namespace Sys2Proof.Machine

/-- The fields of a wide word built as a bundle with reserved bits 0 (R39). -/
theorem bundle_fields (kind : BitVec 2) (s : Bool) (exp : BitVec 16) (coeff : BitVec 54) :
    let r : Wide := 0#45 ++ kind ++ BitVec.ofBool s ++ exp ++ 0#10 ++ coeff
    r.extractLsb' 83 45 = 0#45 ∧ r.extractLsb' 54 10 = 0#10 ∧ r.getLsbD 80 = s ∧ r.extractLsb' 81 2 = kind ∧
      r.extractLsb' 64 16 = exp ∧ r.extractLsb' 0 54 = coeff := by
  intro r
  have hr : r.toNat = ((((0 * 2 ^ 2 + kind.toNat) * 2 ^ 1 + s.toNat) * 2 ^ 16 + exp.toNat) * 2 ^ 10 + 0) * 2 ^ 54 +
      coeff.toNat := by
    rw [toNat_concat, toNat_concat, toNat_concat, toNat_concat, toNat_concat, BitVec.toNat_ofBool]
    rfl
  have hkind := kind.isLt
  have hs := Bool.toNat_lt s
  have hexp := exp.isLt
  have hcoeff := coeff.isLt
  refine ⟨?_, ?_, ?_, ?_, ?_, ?_⟩
  case refine_3 =>
    rw [BitVec.getLsbD, hr, Nat.testBit_eq_decide_div_mod_eq]
    cases s <;> simp only [Bool.toNat_true, Bool.toNat_false, decide_eq_true_eq, decide_eq_false_iff_not] <;> omega
  all_goals
    apply BitVec.eq_of_toNat_eq
    simp only [BitVec.extractLsb'_toNat, hr, Nat.shiftRight_eq_div_pow, BitVec.toNat_ofNat]
    omega

/-- A well-formed coefficient and exponent fit in their fields (R39). -/
theorem bundle_fits {s : Bool} {c : Nat} {e : Int} (h : (LogicalValue.finite s c e).isWellFormed = true) :
    (BitVec.ofInt 16 e).toInt = e ∧ (BitVec.ofNat 54 c).toNat = c := by
  obtain ⟨hc, hmin, hmax⟩ := (isWellFormed_finite_iff s c e).1 h
  exact ⟨BitVec.toInt_ofInt_eq_self (by decide) (by omega) (by omega), Nat.mod_eq_of_lt (by omega)⟩

/-- Settles O23: DEC packs the decoded value, whose numbers fit in their fields. -/
theorem decGivesTheBundle : Obligations.DecGivesTheBundle := by
  intro b a s
  refine ⟨_, _, exec_dec b a s, complete_ok_answered s _ (packBundle (codecDecode a)), ?_⟩
  have hwf := codecDecode_wellFormed a
  cases hx : codecDecode a with
  | nan n =>
    obtain ⟨hz45, hz10, hsign, hkind, hexp, hcoeff⟩ := bundle_fields 0b10#2 n 0 0
    exact ⟨hz45, hz10, hsign, fun _ _ => ⟨hkind, hexp, hcoeff⟩, nofun, nofun⟩
  | inf n =>
    obtain ⟨hz45, hz10, hsign, hkind, hexp, hcoeff⟩ := bundle_fields 0b01#2 n 0 0
    exact ⟨hz45, hz10, hsign, nofun, fun _ _ => ⟨hkind, hexp, hcoeff⟩, nofun⟩
  | finite n c e =>
    rw [hx] at hwf
    obtain ⟨he, hc⟩ := bundle_fits hwf
    obtain ⟨hz45, hz10, hsign, hkind, hexp, hcoeff⟩ := bundle_fields 0b00#2 n (.ofInt 16 e) (.ofNat 54 c)
    refine ⟨hz45, hz10, hsign, nofun, nofun, ?_⟩
    rintro _ _ _ ⟨⟩
    exact ⟨hkind, (congrArg BitVec.toInt hexp).trans he, (congrArg BitVec.toNat hcoeff).trans hc⟩

/-- ENC of a well-formed bundle answers with the value the bundle stands for (R51, R53). -/
theorem exec_enc_of_unpackBundle {b a : Word} {x : LogicalValue} (s : State) (hwf : bundleWellFormed b a = true)
    (hx : unpackBundle (bundleOperand b a) = some x) : ∃ t, exec (.enc b a) s = .next t ∧ AnsweredValue s t x := by
  rw [bundleWellFormed_eq_any, hx] at hwf
  obtain ⟨p, henc, hres⟩ := encodeResult_of_wellFormed hwf
  have hout : encOutcome b a = .ok (narrowResult p) := by rw [encOutcome, hx]; exact hres
  exact ⟨_, exec_enc b a s, p, henc, by rw [hout]; exact complete_ok_answered ..⟩

/-- Settles O24: by the kind of the bundle. -/
theorem encEncodesWellFormedBundles : Obligations.EncEncodesWellFormedBundles := by
  intro b a s hwf
  obtain ⟨hkind, hsign, hexp, hcoeff⟩ := bundleOperand_fields b a
  refine ⟨fun hk => ?_, fun hk => ?_, fun hk => ?_⟩ <;> apply exec_enc_of_unpackBundle s hwf <;>
    rw [unpackBundle, hkind, hk, hsign]
  · rfl
  · rfl
  · rw [hexp, hcoeff]; rfl

end Sys2Proof.Machine

/-! The wide-integer helper on the internal ports (R60 to R62), and the scalings built on it with the table (R64). -/

namespace Sys2Proof.Machine

/-- Whatever result ports a finished call writes, nothing else changes (log 8). -/
theorem finishCall_callOver (s : State) (p : BlockPorts) : CallOver s (s.finishCall p) :=
  ⟨rfl, rfl, rfl, rfl, rfl, rfl, rfl, rfl, rfl, rfl, rfl⟩

/-- A presented call is not the op code on the request port (R43). -/
theorem callOf_ne_none {s : State} {fn : BlockFn} {n : Nat} (h : s.call = some { fn := fn, younger := n }) :
    s.callOf fn ≠ none := by
  rw [callOf_of_call h]
  exact Option.some_ne_none n

/-- Settles O27: the call gives the exact product of R60. -/
theorem wmulGivesTheProduct : Obligations.WmulGivesTheProduct := by
  intro b a s n hc
  rcases exec_wmul_cases b a s with ⟨_, -, he⟩ | ⟨hno, -⟩
  · exact ⟨_, he, finishCall_callOver s _, rfl, wideMul_toNat _ _⟩
  · exact absurd hno (callOf_ne_none hc)

/-- An answered division satisfies `n = q · d + r` with `r < d` (R61). -/
theorem wideDiv_euclidean {n q : Wide} {d r : Word} (h : wideDiv n d = .ok (q, r)) :
    n.toNat = q.toNat * d.toNat + r.toNat ∧ r.toNat < d.toNat := by
  rcases wideDiv_cases n d with ⟨-, he⟩ | ⟨hd, q', r', he, hq, hr⟩
  · exact absurd (he.symm.trans h) nofun
  · obtain ⟨rfl, rfl⟩ := Prod.mk.inj (Except.ok.inj (he.symm.trans h))
    rw [hq, hr]
    exact ⟨(Nat.div_add_mod' _ _).symm, Nat.mod_lt _ (Nat.pos_of_ne_zero (BitVec.toNat_ne.1 hd))⟩

/-- Settles O28: with a non-zero divisor the call does not meet WDIV_ZERO. -/
theorem wdivGivesQuotientAndRemainder : Obligations.WdivGivesQuotientAndRemainder := by
  intro b a s n hc hd
  rcases exec_wdiv_cases b a s with ⟨_, q, r, -, hdiv, he⟩ | ⟨_, -, h0, -⟩ | ⟨hno, -⟩
  · exact ⟨_, he, finishCall_callOver s _, rfl, wideDiv_euclidean hdiv⟩
  · exact absurd h0 hd
  · exact absurd hno (callOf_ne_none hc)

/-- What each output of a comparison says (R62). -/
theorem compareWide_iff (x y : Wide) :
    ((compareWide x y).lt = true ↔ x.toNat < y.toNat) ∧ ((compareWide x y).eq = true ↔ x = y) ∧
      ((compareWide x y).gt = true ↔ y.toNat < x.toNat) :=
  ⟨decide_eq_true_iff, decide_eq_true_iff.trans BitVec.toNat_inj, decide_eq_true_iff⟩

/-- Settles O29: the call gives the outputs of R62. -/
theorem wcmpComparesMagnitudes : Obligations.WcmpComparesMagnitudes := by
  intro b a s n hc
  rcases exec_wcmp_cases b a s with ⟨_, -, he⟩ | ⟨hno, -⟩
  · obtain ⟨hlt, heq, hgt⟩ := compareWide_iff s.blocks.cmpX s.blocks.cmpY
    exact ⟨_, he, finishCall_callOver s _, rfl, hlt, heq, hgt, compareWide_oneHot _ _⟩
  · exact absurd hno (callOf_ne_none hc)

/-- A wide value that fits a 64-bit port is passed on whole (R63). -/
theorem wideLo_toNat_of_lt {x : Wide} (h : x.toNat < 2 ^ 64) : (wideLo x).toNat = x.toNat := by
  rw [wideLo, BitVec.extractLsb'_toNat, Nat.shiftRight_zero, Nat.mod_eq_of_lt h]

/-- The table of R71 answers each of its indices with the power of ten (R70). -/
theorem tablePower_lutContents {k : Nat} (hk : k < 39) :
    ∃ p, tablePower lutContents k = .ok p ∧ p.toNat = 10 ^ k := by
  have hindex : (BitVec.ofNat 6 k).toNat = k := Nat.mod_eq_of_lt (by omega)
  rw [tablePower, if_pos (by omega)]
  rcases tableRead_cases lutContents (BitVec.ofNat 6 k) with ⟨h, he⟩ | ⟨h, -⟩
  · exact ⟨_, he, by rw [lutContents_toNat, hindex]⟩
  · omega

/-- The powers up to `10^19` are factors and divisors: they fit a 64-bit port (R64). -/
theorem tablePower_port {k : Nat} (hk : k ≤ 19) :
    ∃ p, tablePower lutContents k = .ok p ∧ (wideLo p).toNat = 10 ^ k := by
  obtain ⟨p, hp, hval⟩ := tablePower_lutContents (k := k) (by omega)
  have hfits : 10 ^ k < 2 ^ 64 := (Nat.pow_le_pow_right (by decide) hk).trans_lt (by decide)
  exact ⟨p, hp, by rw [wideLo_toNat_of_lt (hval ▸ hfits), hval]⟩

/-- In both ranges of the scaling the split gives two factors and a first product that fit their ports (R64, log 23). -/
theorem scaleSplit_fits {c : Word} {k : Nat} (hk : k ≤ 38)
    (h : (c.toNat < 10 ^ 16 ∧ k ≤ 22) ∨ c.toNat * 10 ^ (k - 19) < 2 ^ 64) :
    scaleSplit c k ≤ 19 ∧ k - scaleSplit c k ≤ 19 ∧ scaleSplit c k ≤ k ∧ c.toNat * 10 ^ scaleSplit c k < 2 ^ 64 := by
  rw [scaleSplit]
  split
  · next hR64 =>
    obtain ⟨hc, hk22⟩ := hR64
    have hpow : 10 ^ min k 3 ≤ 10 ^ 3 := Nat.pow_le_pow_right (by decide) (Nat.min_le_right k 3)
    exact ⟨by omega, by omega, by omega, (Nat.mul_le_mul hc.le hpow).trans_lt (by decide)⟩
  · next hR64 => exact ⟨by omega, by omega, by omega, h.resolve_left hR64⟩

/-- Where the split fits the ports, the two multiplications give `c · 10^k` (R64). -/
theorem scaleByTable_toNat {c : Word} {k : Nat} (hk : k ≤ 38)
    (h : (c.toNat < 10 ^ 16 ∧ k ≤ 22) ∨ c.toNat * 10 ^ (k - 19) < 2 ^ 64) :
    ∃ w, scaleByTable lutContents c k = .ok w ∧ w.toNat = c.toNat * 10 ^ k := by
  obtain ⟨hk1, hk2, hle, hfits⟩ := scaleSplit_fits hk h
  obtain ⟨p1, hp1, hv1⟩ := tablePower_port hk1
  obtain ⟨p2, hp2, hv2⟩ := tablePower_port hk2
  refine ⟨wideMul (wideLo (wideMul c (wideLo p1))) (wideLo p2), by rw [scaleByTable, hp1, hp2]; rfl, ?_⟩
  have hfirst : (wideMul c (wideLo p1)).toNat = c.toNat * 10 ^ scaleSplit c k := by rw [wideMul_toNat, hv1]
  rw [wideMul_toNat, wideLo_toNat_of_lt (hfirst ▸ hfits), hfirst, hv2, mul_assoc, ← pow_add,
    Nat.add_sub_cancel' hle]

/-- One WDIV whose divisor port holds `10^k` divides by `10^k` (R61, R64). -/
theorem wideDiv_power (n : Wide) {k : Nat} {d : Word} (hd : d.toNat = 10 ^ k) :
    ∃ q r, wideDiv n d = .ok (q, r) ∧ q.toNat = n.toNat / 10 ^ k ∧ r.toNat = n.toNat % 10 ^ k := by
  have hne : d ≠ 0 := BitVec.toNat_ne.2 (hd ▸ pow_ne_zero k (by decide))
  rcases wideDiv_cases n d with ⟨h0, -⟩ | ⟨-, h⟩
  · exact absurd h0 hne
  · rwa [hd] at h

/-- The combined remainder of two divisions is the remainder of the whole one, so its sum does not overflow (R64). -/
theorem combinedRemainder_toNat {n : Wide} {r1 r2 d1 : Word} {m : Nat} (h1 : r1.toNat = n.toNat % d1.toNat)
    (h2 : r2.toNat = n.toNat / d1.toNat % m) :
    (wideMul r2 d1 + narrowResult r1).toNat = n.toNat % (d1.toNat * m) := by
  have hsum : r2.toNat * d1.toNat + r1.toNat = n.toNat % (d1.toNat * m) := by
    rw [Nat.mod_mul, h1, h2, add_comm, mul_comm d1.toNat]
  have hfits : r2.toNat * d1.toNat + r1.toNat < 2 ^ 128 := hsum ▸ (Nat.mod_le _ _).trans_lt n.isLt
  rw [BitVec.toNat_add, wideMul_toNat, narrowResult_toNat, Nat.mod_eq_of_lt hfits, hsum]

/-- Up to `k = 19` one division gives quotient and remainder by `10^k`, and beyond it two do (R64, log 23). -/
theorem divideByTable_toNat (n : Wide) {k : Nat} (hk : k ≤ 38) :
    ∃ q r, divideByTable lutContents n k = .ok (q, r) ∧ q.toNat = n.toNat / 10 ^ k ∧ r.toNat = n.toNat % 10 ^ k := by
  rw [divideByTable]
  split
  · next hone =>
    obtain ⟨p, hp, hv⟩ := tablePower_port hone
    obtain ⟨q, r, hdiv, hq, hr⟩ := wideDiv_power n hv
    exact ⟨q, narrowResult r, by simp only [hp, hdiv, bind, Except.bind]; rfl, hq, by rw [narrowResult_toNat, hr]⟩
  · next htwo =>
    obtain ⟨p1, hp1, hv1⟩ := tablePower_port (k := 19) le_rfl
    obtain ⟨p2, hp2, hv2⟩ := tablePower_port (k := k - 19) (by omega)
    obtain ⟨q1, r1, hdiv1, hq1, hr1⟩ := wideDiv_power n hv1
    obtain ⟨q, r2, hdiv2, hq, hr2⟩ := wideDiv_power q1 hv2
    have hpow : 10 ^ k = 10 ^ 19 * 10 ^ (k - 19) := by rw [← pow_add]; congr 1; omega
    refine ⟨q, wideMul r2 (wideLo p1) + narrowResult r1, ?_, ?_, ?_⟩
    · simp only [hp1, hp2, hdiv1, hdiv2, bind, Except.bind]; rfl
    · rw [hq, hq1, Nat.div_div_eq_div_mul, hpow]
    · rw [hq1, ← hv1] at hr2
      rw [combinedRemainder_toNat (hv1.symm ▸ hr1) hr2, hv1, hpow]

/-- Settles O57: `k ≤ 22` and `k ≤ 38` are both within the table. -/
theorem tableScalingAgrees : Obligations.TableScalingAgrees :=
  ⟨fun _ _ hc hk => scaleByTable_toNat (by omega) (.inl ⟨hc, hk⟩), fun _ _ hk hc => scaleByTable_toNat hk (.inr hc),
    fun n _ hk => divideByTable_toNat n hk⟩

end Sys2Proof.Machine

/-! The powers-of-ten table on its internal port (R70, R71), and the digit count read from it (R72). -/

namespace Sys2Proof.Machine

/-- An index of the table reads its entry (R70). -/
theorem tableRead_of_lt (lut : Vector Wide 39) {k : BitVec 6} (hk : k.toNat < 39) :
    tableRead lut k = .ok lut[k.toNat] := by
  rcases tableRead_cases lut k with ⟨_, he⟩ | ⟨hge, -⟩
  · exact he
  · exact absurd hk (not_lt.mpr hge)

/-- Settles O30: with an index of the table the call does not meet LUT_INDEX. -/
theorem p10ReadsTheTable : Obligations.P10ReadsTheTable := by
  intro b a s n hc hk
  rcases exec_p10_cases b a s with ⟨_, w, -, hread, he⟩ | ⟨_, -, hge, -⟩ | ⟨hno, -⟩
  · obtain rfl : s.lut[s.blocks.lutK.toNat] = w := Except.ok.inj ((tableRead_of_lt s.lut hk).symm.trans hread)
    refine ⟨_, he, finishCall_callOver s _, rfl, rfl, fun hlut => ?_⟩
    simp only [State.finishCall_blocks, hlut, lutContents_toNat]
  · exact absurd hk (not_lt.mpr hge)
  · exact absurd hno (callOf_ne_none hc)

/-- One probe of the search: it stops at `d` exactly when `digits(n) ≤ d` (R62, R72). -/
theorem digitsFrom_succ (n : Wide) (k : Nat) {d : Nat} (hd : d < 39) :
    digitsFrom lutContents n (k + 1) d =
      if digits n.toNat ≤ d then d else digitsFrom lutContents n k (d + 1) := by
  obtain ⟨p, hp, hval⟩ := tablePower_lutContents hd
  obtain ⟨hlt, -, -⟩ := compareWide_iff n p
  simp only [digitsFrom, hp, hlt, hval, digits_le_iff]

/-- A search inside the table that starts at or below `digits(n)`, with enough steps, ends there (R72). -/
theorem digitsFrom_eq_digits (n : Wide) : ∀ k d, d + k ≤ 39 → d ≤ digits n.toNat → digits n.toNat ≤ d + k →
    digitsFrom lutContents n k d = digits n.toNat
  | 0, _, _, hlo, hhi => le_antisymm hlo hhi
  | k + 1, d, htable, hlo, hhi => by
    rw [digitsFrom_succ n k (by omega)]
    split
    · next hstop => exact le_antisymm hlo hstop
    · next hgo => exact digitsFrom_eq_digits n k (d + 1) (by omega) (by omega) (by omega)

/-- A 128-bit integer has at most 39 digits. -/
theorem digits_wide_le (n : Wide) : digits n.toNat ≤ 39 := digits_le_iff.mpr (n.isLt.trans (by norm_num))

/-- Settles O56: the 39 probes start at 0 and reach every digit count of a 128-bit integer. -/
theorem digitsByTableAgree : Obligations.DigitsByTableAgree := fun n =>
  digitsFrom_eq_digits n 39 0 le_rfl (Nat.zero_le _) (digits_wide_le n)

end Sys2Proof.Machine

/-! Every arithmetic function ends in `encode`, and `encode` writes canonical patterns (R75). -/

namespace Sys2Proof.Machine

/-- A transaction is answered with one result. -/
theorem answered_unique {s t : State} {r r' : Wide} (h : Answered s t r) (h' : Answered s t r') : r = r' := by
  obtain ⟨-, -, ⟨w, -, hin⟩, -⟩ := h
  obtain ⟨-, -, ⟨w', -, hin'⟩, -⟩ := h'
  have heq := List.append_cancel_left (hin.symm.trans hin')
  simp only [List.cons.injEq, Transaction.mk.injEq, Response.mk.injEq] at heq
  obtain ⟨⟨-, -, -, hr⟩, -⟩ := heq
  exact hr

/-- "`r = encode(f_lv(decode(a), decode(b)))`", where `f_lv` gives a well-formed value (R75, R15). -/
theorem exec_arithmetic {b a : Word} {i : Instr} (s : State)
    (hi : i ∈ [Instr.add b a, .sub b a, .mul b a, .div b a, .sqrt b a, .i2d b a]) :
    ∃ x : LogicalValue, x.isWellFormed = true ∧ exec i s = .next (s.complete i (encodeResult x)) := by
  simp only [List.mem_cons, List.not_mem_nil, or_false] at hi
  rcases hi with rfl | rfl | rfl | rfl | rfl | rfl
  · exact ⟨_, addValue_wellFormed _ _, exec_add b a s⟩
  · exact ⟨_, addValue_wellFormed _ _, exec_sub b a s⟩
  · exact ⟨_, mulValue_wellFormed _ _, exec_mul b a s⟩
  · exact ⟨_, divValue_wellFormed _ _, exec_div b a s⟩
  · exact ⟨_, sqrtValue_wellFormed (codecDecode_wellFormed a), exec_sqrt b a s⟩
  · exact ⟨_, intValue_wellFormed _, exec_i2d b a s⟩

/-- Settles O34: the one answer is the encoding of a well-formed value, canonical by the first law of R54. -/
theorem arithmeticResultsAreCanonical : Obligations.ArithmeticResultsAreCanonical := by
  intro b a p i s t hi hexec hanswered
  obtain ⟨x, hx, hcomplete⟩ := exec_arithmetic s hi
  obtain ⟨q, henc, hres⟩ := encodeResult_of_wellFormed hx
  obtain ⟨q', henc', -, hcanon⟩ := decodeInvertsEncode x hx
  obtain rfl : q' = q := Except.ok.inj (henc'.symm.trans henc)
  rw [hres] at hcomplete
  obtain rfl : s.complete i (.ok (narrowResult q')) = t := Host.Outcome.next.inj (hcomplete.symm.trans hexec)
  obtain rfl : p = q' := narrowResult_injective (answered_unique hanswered (complete_ok_answered s i _))
  exact hcanon

end Sys2Proof.Machine

/-! The rounding step of `finalize` over the real numbers: half to even of the whole `C + f` (R76). -/

namespace Sys2Proof.Machine

/-- A real is at distance at most a half from `q`, and `q` is even where the distance is a half. -/
def HalfEven (x : ℝ) (q : Nat) : Prop := |(q : ℝ) - x| ≤ 1 / 2 ∧ (|(q : ℝ) - x| = 1 / 2 → q % 2 = 0)

/-- `a`, written with the coefficient `c`, rounds `m` no worse than `b` does: it is no farther away, and `c` is even if
both are equally far. -/
def RoundsNoWorse (m : ℝ) (c : Nat) (a b : ℝ) : Prop :=
  |a - m| ≤ |b - m| ∧ (b ≠ a → |a - m| = |b - m| → c % 2 = 0)

/-- An exact result rounds no worse than anything. -/
theorem RoundsNoWorse.of_eq {m a : ℝ} (h : a = m) (c : Nat) (b : ℝ) : RoundsNoWorse m c a b := by
  subst h
  refine ⟨by simp, fun hne heq => absurd (sub_eq_zero.1 (abs_eq_zero.1 ?_)) hne⟩
  rw [← heq, sub_self, abs_zero]

/-- Rounding does not depend on the unit. -/
theorem RoundsNoWorse.scale {m a b u : ℝ} {c : Nat} (h : RoundsNoWorse m c a b) (hu : 0 < u) :
    RoundsNoWorse (m * u) c (a * u) (b * u) := by
  obtain ⟨hle, heven⟩ := h
  rw [RoundsNoWorse, ← sub_mul, ← sub_mul, abs_mul, abs_mul, mul_left_inj' (abs_pos.2 hu.ne').ne']
  exact ⟨by gcongr, fun hne => heven fun hba => hne (by rw [hba])⟩

/-- Rounding to half even finds the nearest natural number, and an even one at a tie. -/
theorem HalfEven.nearest {x : ℝ} {q : Nat} (h : HalfEven x q) (k : Nat) : RoundsNoWorse x q q k := by
  obtain ⟨hhalf, heven⟩ := h
  rcases eq_or_ne k q with rfl | hne
  · exact ⟨le_rfl, fun hc => absurd rfl hc⟩
  · have hone : (1 : ℝ) ≤ |(k : ℝ) - q| := by
      have h1 : (1 : ℤ) ≤ |(k : ℤ) - q| := Int.one_le_abs (by omega)
      exact_mod_cast h1
    have htri : |(k : ℝ) - q| ≤ |(k : ℝ) - x| + |(q : ℝ) - x| := by
      rw [abs_sub_comm (q : ℝ) x]; exact abs_sub_le _ _ _
    exact ⟨by linarith, fun _ heq => heven (by linarith)⟩

/-- With `n ≤ x` the rounded number is also no worse than every real below `n`. -/
theorem HalfEven.nearest_below {x y : ℝ} {q n : Nat} (h : HalfEven x q) (hx : n ≤ x) (hy : y ≤ n) :
    RoundsNoWorse x q q y := by
  obtain ⟨hle, heven⟩ := h.nearest n
  rw [abs_of_nonpos (sub_nonpos.2 hx)] at hle heven
  rw [RoundsNoWorse, abs_of_nonpos (sub_nonpos.2 (hy.trans hx))]
  refine ⟨by linarith, fun hne heq => ?_⟩
  obtain rfl : y = n := by linarith
  exact heven hne heq

/-- The fraction `f` that `sticky` stands for: 0 without it, else inside `(0, 1)` (R76). -/
def StickyFraction (sticky : Bool) (f : ℝ) : Prop := (sticky = true → 0 < f ∧ f < 1) ∧ (sticky = false → f = 0)

theorem StickyFraction.bounds {sticky : Bool} {f : ℝ} (hf : StickyFraction sticky f) : 0 ≤ f ∧ f < 1 := by
  cases sticky with
  | true => exact ⟨(hf.1 rfl).1.le, (hf.1 rfl).2⟩
  | false => rw [hf.2 rfl]; norm_num

/-- The test of R76 on the dropped digits `r` and `sticky` decides on which side of the half unit `r + f` lies, and at
the half unit itself goes by `odd`. -/
theorem roundUp_test {sticky : Bool} {f : ℝ} (hf : StickyFraction sticky f) (r half : Nat) (odd : Prop) :
    ((r > half ∨ (r = half ∧ (sticky = true ∨ odd))) → (half : ℝ) ≤ r + f ∧ (r + f = half → odd)) ∧
    (¬ (r > half ∨ (r = half ∧ (sticky = true ∨ odd))) → r + f ≤ (half : ℝ) ∧ (r + f = half → ¬ odd)) := by
  obtain ⟨h0, h1⟩ := hf.bounds
  rcases lt_trichotomy r half with hlt | rfl | hgt
  · have hle : (r : ℝ) + 1 ≤ half := by exact_mod_cast hlt
    exact ⟨fun h => absurd h (by omega), fun _ => ⟨by linarith, fun heq => by linarith⟩⟩
  · cases sticky with
    | true => exact ⟨fun _ => ⟨by linarith, fun heq => by linarith [(hf.1 rfl).1]⟩, fun h => absurd h (by simp)⟩
    | false => simp [hf.2 rfl]
  · have hlt : (half : ℝ) < r := by exact_mod_cast hgt
    exact ⟨fun _ => ⟨by linarith, fun heq => by linarith⟩, fun h => absurd (.inl hgt) h⟩

/-- Downward: at most a half is cut off, and a half from an even number. -/
theorem halfEven_floor {q : Nat} {t : ℝ} (h0 : 0 ≤ t) (h : t ≤ 1 / 2) (heven : t = 1 / 2 → q % 2 = 0) :
    HalfEven (q + t) q := by
  have habs : |(q : ℝ) - (q + t)| = t := by rw [sub_add_cancel_left, abs_neg, abs_of_nonneg h0]
  rw [HalfEven, habs]
  exact ⟨h, heven⟩

/-- Upward: at most a half is added, and a half to an odd number. -/
theorem halfEven_succ {q : Nat} {t : ℝ} (h1 : t ≤ 1) (h : 1 / 2 ≤ t) (hodd : t = 1 / 2 → q % 2 = 1) :
    HalfEven (q + t) (q + 1) := by
  have habs : |((q + 1 : Nat) : ℝ) - (q + t)| = 1 - t := by
    rw [Nat.cast_succ, add_sub_add_left_eq_sub, abs_of_nonneg (by linarith)]
  rw [HalfEven, habs]
  exact ⟨by linarith, fun heq => by have := hodd (by linarith); omega⟩

/-- The value in units of `10^(n+1)`: the quotient, and the dropped digits with the fraction over two half units. -/
theorem div_unit_split (C n : Nat) (f : ℝ) : ((C : ℝ) + f) / 10 ^ (n + 1) =
    (C / 10 ^ (n + 1) : Nat) + ((C % 10 ^ (n + 1) : Nat) + f) / (2 * (5 * 10 ^ n : Nat)) := by
  have hunit : (2 * (5 * 10 ^ n : Nat) : ℝ) = 10 ^ (n + 1) := by push_cast; ring
  have hC : (C : ℝ) = 10 ^ (n + 1) * (C / 10 ^ (n + 1) : Nat) + (C % 10 ^ (n + 1) : Nat) := by
    exact_mod_cast (Nat.div_add_mod C (10 ^ (n + 1))).symm
  rw [hunit]; field_simp; linarith

/-- The rounding of R76 is to half even, of the whole `C + f`. -/
theorem roundHalfEven_halfEven {sticky : Bool} {f : ℝ} (hf : StickyFraction sticky f) (C : Nat) {drop : Nat}
    (hdrop : drop = 0 → sticky = false) : HalfEven ((C + f) / 10 ^ drop) (roundHalfEven C sticky drop) := by
  obtain ⟨h0, h1⟩ := hf.bounds
  obtain _ | n := drop
  · rw [roundHalfEven_zero, hf.2 (hdrop rfl)]
    simp [HalfEven]
  · obtain ⟨hup, hdown⟩ := roundUp_test hf (C % 10 ^ (n + 1)) (5 * 10 ^ n) (C / 10 ^ (n + 1) % 2 = 1)
    have hr : ((C % 10 ^ (n + 1) : Nat) : ℝ) + 1 ≤ 2 * (5 * 10 ^ n : Nat) := by
      have := Nat.mod_lt C (y := 10 ^ (n + 1)) (by positivity)
      exact_mod_cast (show C % 10 ^ (n + 1) + 1 ≤ 2 * (5 * 10 ^ n) by omega)
    have hhalf : (0 : ℝ) < 2 * (5 * 10 ^ n : Nat) := by positivity
    have htie {x : ℝ} : x / (2 * (5 * 10 ^ n : Nat)) = 1 / 2 ↔ x = (5 * 10 ^ n : Nat) := by
      rw [div_eq_div_iff hhalf.ne' two_ne_zero, one_mul, mul_comm x, mul_right_inj' two_ne_zero]
    rw [div_unit_split, roundHalfEven, if_neg (Nat.succ_ne_zero n), Nat.add_sub_cancel]
    dsimp only
    split
    · next h =>
      obtain ⟨hge, hodd⟩ := hup h
      refine halfEven_succ ?_ ?_ (fun ht => hodd (htie.1 ht))
      · rw [div_le_one hhalf]; linarith
      · rw [div_le_div_iff₀ two_pos hhalf]; linarith
    · next h =>
      obtain ⟨hle, heven⟩ := hdown h
      refine halfEven_floor (by positivity) ?_ (fun ht => Nat.mod_two_ne_one.1 (heven (htie.1 ht)))
      rw [div_le_div_iff₀ hhalf two_pos]; linarith

end Sys2Proof.Machine

/-! The common result path is one correct rounding (R76): the rounded coefficient is nearest among all pairs whose
exponent has no upper bound, the carry and the fold keep that, and the overflow bound is where it leaves the format. -/

namespace Sys2Proof.Machine

/-- The pair `(c, e)` rounds the magnitude `m` to 16 digits with no upper bound on the exponent: no pair rounds it
better, and where digits were dropped it has 16 of them or the least exponent. Pairs of coefficient `10^16` count, so
that the neighbour of the greatest finite value is one of them. -/
structure CorrectlyRounded (m : ℝ) (ideal : Int) (c : Nat) (e : Int) : Prop where
  nearest : ∀ c' e', c' ≤ 10 ^ 16 → eMin ≤ e' → RoundsNoWorse m c (magnitude c e) (magnitude c' e')
  full : ideal < e ∨ magnitude c e ≠ m → 10 ^ 15 ≤ c ∨ e = eMin

/-- Zeros moved between coefficient and exponent leave the magnitude (R8). -/
theorem magnitude_shift (c : Nat) (e : Int) (j : Nat) : magnitude (c * 10 ^ j) (e - j) = magnitude c e := by
  have h : (10 : ℝ) ^ e = 10 ^ j * 10 ^ (e - j) := by
    rw [← zpow_natCast, ← zpow_add₀ (by norm_num)]; congr 1; omega
  rw [magnitude, magnitude, h]; push_cast; ring

theorem magnitude_mono {c c' : Nat} {e e' : Int} (hc : c ≤ c') (he : e ≤ e') : magnitude c e ≤ magnitude c' e' := by
  have h : (10 : ℝ) ^ e ≤ 10 ^ e' := zpow_le_zpow_right₀ (by norm_num) he
  rw [magnitude, magnitude]; gcongr

theorem magnitude_zero (e : Int) : magnitude 0 e = 0 := by simp [magnitude]

/-- A pair of the same magnitude, even if the first is, is as correct as the first. -/
theorem CorrectlyRounded.of_magnitude_eq {m : ℝ} {ideal e e' : Int} {c c' : Nat} (h : CorrectlyRounded m ideal c e)
    (hmag : magnitude c' e' = magnitude c e) (heven : c % 2 = 0 → c' % 2 = 0)
    (hfull : ideal < e' ∨ magnitude c e ≠ m → 10 ^ 15 ≤ c' ∨ e' = eMin) : CorrectlyRounded m ideal c' e' where
  nearest c'' e'' hc he := by
    obtain ⟨hle, htie⟩ := h.nearest c'' e'' hc he
    rw [hmag]
    exact ⟨hle, fun hne heq => heven (htie hne heq)⟩
  full := by rw [hmag]; exact hfull

/-- Why `finalize` drops digits (R76): not at all, to the least exponent, or down to 16 digits. -/
theorem dropCount_cases {C : Nat} (hC : C ≠ 0) (e : Int) :
    dropCount C e = 0 ∨ e + dropCount C e = eMin ∨ 10 ^ 15 * 10 ^ dropCount C e ≤ C := by
  obtain ⟨-, -, h | h | h⟩ := dropCount_spec C e
  · refine .inr (.inr ?_)
    obtain ⟨h1, hlow, -⟩ := digits_spec hC
    rwa [← pow_add, show 15 + dropCount C e = digits C - 1 by omega]
  · exact .inr (.inl (by omega))
  · exact .inl h

/-- A sticky coefficient has more than 16 digits (R76). -/
theorem dropCount_ne_zero {C : Nat} (hC : 10 ^ 16 ≤ C) (e : Int) : dropCount C e ≠ 0 := by
  have hd : ¬ digits C ≤ 16 := fun h => absurd (digits_le_iff.1 h) (by omega)
  have := (dropCount_spec C e).1
  omega

/-- A pair counted in units of `10^E`: a natural number of them from `E` on, at most `10^15` of them below. -/
theorem magnitude_in_units {c : Nat} (hc : c ≤ 10 ^ 16) (e E : Int) :
    (∃ k : Nat, magnitude c e = k * 10 ^ E) ∨
      (e < E ∧ ∃ y : ℝ, y ≤ (10 ^ 15 : Nat) ∧ magnitude c e = y * 10 ^ E) := by
  rcases le_or_gt E e with hle | hlt
  · refine .inl ⟨c * 10 ^ (e - E).toNat, ?_⟩
    have h := magnitude_shift c e (e - E).toNat
    rw [← h, magnitude]; congr 2; omega
  · have hpos : (0 : ℝ) < 10 ^ E := by positivity
    refine .inr ⟨hlt, magnitude c e / 10 ^ E, ?_, (div_mul_cancel₀ _ hpos.ne').symm⟩
    rw [div_le_iff₀ hpos]
    calc magnitude c e ≤ magnitude (10 ^ 15 * 10 ^ 1) (E - 1 : Int) := magnitude_mono (by omega) (by omega)
      _ = magnitude (10 ^ 15) E := magnitude_shift (10 ^ 15) E 1

/-- Without a dropped digit there is no fraction either (R76). -/
theorem roundHalfEven_of_drop_zero {sticky : Bool} {f : ℝ} (hf : StickyFraction sticky f) (C : Nat) {drop : Nat}
    (hdrop : drop = 0) (hsticky : sticky = false) : (roundHalfEven C sticky drop : ℝ) = (C + f) / 10 ^ drop := by
  rw [hdrop, roundHalfEven_zero, hf.2 hsticky]; simp

/-- Sixteen digits left of the coefficient are sixteen digits of the value in the new unit, and of its rounding. -/
theorem sixteen_digits_left {C drop : Nat} (h : 10 ^ 15 * 10 ^ drop ≤ C) {sticky : Bool} {f : ℝ} (hf : 0 ≤ f) :
    ((10 ^ 15 : Nat) : ℝ) ≤ (C + f) / 10 ^ drop ∧ 10 ^ 15 ≤ roundHalfEven C sticky drop := by
  constructor
  · have : ((10 ^ 15 * 10 ^ drop : Nat) : ℝ) ≤ C := by exact_mod_cast h
    rw [le_div_iff₀ (by positivity)]
    push_cast at this ⊢
    linarith
  · have := (Nat.le_div_iff_mul_le (by positivity)).2 h
    have := roundHalfEven_cases C sticky drop
    omega

/-- The rounding of `finalize` is correct as long as the exponent has no upper bound (R76). -/
theorem roundHalfEven_correctlyRounded {sticky : Bool} {f : ℝ} (hf : StickyFraction sticky f) {C : Nat} (hC : C ≠ 0)
    (hsticky : sticky = true → 10 ^ 16 ≤ C) (e : Int) :
    CorrectlyRounded ((C + f) * 10 ^ e) e (roundHalfEven C sticky (dropCount C e)) (e + dropCount C e) := by
  have hexact (h0 : dropCount C e = 0) : sticky = false :=
    Bool.eq_false_iff.2 fun hs => dropCount_ne_zero (hsticky hs) e h0
  have hround := roundHalfEven_halfEven hf C hexact
  have hcases := dropCount_cases hC e
  have hm : (C + f) * (10 : ℝ) ^ e = (C + f) / 10 ^ dropCount C e * 10 ^ (e + (dropCount C e : Int)) := by
    rw [zpow_add₀ (by norm_num), zpow_natCast]; field_simp
  rw [hm]
  refine ⟨fun c' e' hc' he' => ?_, fun hfull => ?_⟩
  · rw [magnitude]
    rcases magnitude_in_units hc' e' (e + dropCount C e) with ⟨k, hk⟩ | ⟨hlt, y, hy, hmag⟩
    · rw [hk]
      exact (hround.nearest k).scale (by positivity)
    · rw [hmag]
      refine RoundsNoWorse.scale ?_ (by positivity)
      rcases hcases with h0 | hmin | hlow
      · exact .of_eq (roundHalfEven_of_drop_zero hf C h0 (hexact h0)) _ y
      · omega
      · exact hround.nearest_below (sixteen_digits_left hlow (sticky := sticky) hf.bounds.1).1 hy
  · rcases hcases with h0 | hmin | hlow
    · rcases hfull with hlt | hne
      · omega
      · exact absurd (by rw [magnitude, roundHalfEven_of_drop_zero hf C h0 (hexact h0)]) hne
    · exact .inr hmin
    · exact .inl (sixteen_digits_left hlow hf.bounds.1).2

/-- The carry into a 17th digit keeps the rounding correct (R76). -/
theorem CorrectlyRounded.carry {m : ℝ} {ideal e : Int} {q : Nat} (h : CorrectlyRounded m ideal q e)
    (hq : q ≤ 10 ^ 16) : CorrectlyRounded m ideal (carryDigit q e).1 (carryDigit q e).2 := by
  obtain ⟨-, -, ⟨-, hsame⟩ | ⟨rfl, hcarry⟩⟩ := carryDigit_spec e hq
  · rwa [hsame]
  · rw [hcarry]
    have hmag := magnitude_shift (10 ^ 15) (e + 1) 1
    rw [Nat.cast_one, add_sub_cancel_right, ← pow_add] at hmag
    exact h.of_magnitude_eq hmag.symm (fun _ => by norm_num) (fun _ => .inl le_rfl)

/-- Folding the exponent down to `EMAX` keeps the rounding correct (R76). -/
theorem CorrectlyRounded.fold {m : ℝ} {ideal e : Int} {q : Nat} (h : CorrectlyRounded m ideal q e) {j : Nat}
    (hj : j = 0 ∨ e - j = eMax) : CorrectlyRounded m ideal (q * 10 ^ j) (e - j) := by
  obtain _ | n := j
  · simpa using h
  · refine h.of_magnitude_eq (magnitude_shift q e (n + 1)) (fun heven => ?_) (fun hfull => .inl ?_)
    · rw [Nat.mul_mod, heven, zero_mul, Nat.zero_mod]
    · have hfull' : 10 ^ 15 ≤ q ∨ e = eMin := h.full (hfull.imp_left (by omega))
      simp only [eMin, eMax] at hj hfull'
      exact le_trans (hfull'.resolve_right (by omega)) (Nat.le_mul_of_pos_right q (by positivity))

/-- The overflow bound lies half way between the greatest finite magnitude and its neighbour above (R76). -/
theorem two_mul_overflowBound : 2 * overflowBound = magnitude cMax eMax + magnitude (10 ^ 16) eMax := by
  have h : (10 : ℝ) ^ eMax = 10 ^ (369 : Nat) := by rw [show eMax = ((369 : Nat) : Int) from rfl, zpow_natCast]
  rw [overflowBound, magnitude, magnitude, h, cMax]
  generalize (10 : ℝ) ^ (369 : Nat) = u
  push_cast; ring

theorem magnitude_cMax_lt : magnitude cMax eMax < magnitude (10 ^ 16) eMax := by
  have h : ((cMax : Nat) : ℝ) < (10 ^ 16 : Nat) := by exact_mod_cast (by decide : cMax < 10 ^ 16)
  rw [magnitude, magnitude]; gcongr

/-- A coefficient of the greatest finite magnitude is odd: it is `10^16 − 1`. -/
theorem odd_of_magnitude_eq_top {c : Nat} {e : Int} (hpair : FormatPair c e)
    (h : magnitude c e = magnitude cMax eMax) : c % 2 = 1 := by
  obtain ⟨hc, -, he⟩ := hpair
  have hle : magnitude cMax eMax ≤ magnitude c eMax := h ▸ magnitude_mono le_rfl he
  have hge : cMax ≤ c := by
    rw [magnitude, magnitude, mul_le_mul_iff_left₀ (by positivity)] at hle
    exact_mod_cast hle
  rw [le_antisymm hc hge, cMax]

/-- A correct rounding inside the format is of a magnitude below the overflow bound: at the bound the tie would go to
the even neighbour (R76). -/
theorem CorrectlyRounded.lt_overflowBound {m : ℝ} {ideal e : Int} {c : Nat} (h : CorrectlyRounded m ideal c e)
    (hpair : FormatPair c e) : m < overflowBound := by
  obtain ⟨hle, heven⟩ := h.nearest (10 ^ 16) eMax le_rfl (by decide)
  obtain ⟨hc, -, he⟩ := id hpair
  have htop : magnitude c e ≤ magnitude cMax eMax := magnitude_mono hc he
  have hgap := magnitude_cMax_lt
  have hbound := two_mul_overflowBound
  by_contra hge
  rw [abs_sub_comm, abs_of_pos (by linarith : 0 < m - magnitude c e)] at hle heven
  rcases le_abs.1 hle with hm | hm
  · have htie : magnitude c e = magnitude cMax eMax := by linarith
    have hodd := odd_of_magnitude_eq_top hpair htie
    have := heven (by linarith) (le_antisymm hle (by rw [abs_le]; constructor <;> linarith))
    omega
  · linarith

/-- A correct rounding beyond the format is of a magnitude from the overflow bound on (R76). -/
theorem CorrectlyRounded.overflowBound_le {m : ℝ} {ideal e : Int} {c : Nat} (h : CorrectlyRounded m ideal c e)
    (hbeyond : magnitude (10 ^ 16) eMax ≤ magnitude c e) : overflowBound ≤ m := by
  obtain ⟨hle, -⟩ := h.nearest cMax eMax (by decide) (by decide)
  have hgap := magnitude_cMax_lt
  have hbound := two_mul_overflowBound
  by_contra hlt
  rcases le_abs.1 ((le_abs_self _).trans hle) with hm | hm <;> linarith

/-- Of one magnitude, the pair with 16 digits or the least exponent has the least exponent of all (R76). -/
theorem exponent_le_of_magnitude_eq {c c' : Nat} {e e' : Int} (hpair : FormatPair c' e')
    (hfull : 10 ^ 15 ≤ c ∨ e = eMin) (h : magnitude c' e' = magnitude c e) : e ≤ e' := by
  obtain ⟨hc', he', -⟩ := hpair
  rcases hfull with hfull | rfl
  · by_contra hlt
    have hlow : magnitude c' e' ≤ magnitude cMax (e - 1) := magnitude_mono hc' (by omega)
    have hhigh : magnitude (10 ^ 15) e ≤ magnitude c e := magnitude_mono hfull le_rfl
    have hshift := magnitude_shift (10 ^ 15) e 1
    have hstep : magnitude cMax (e - 1) < magnitude (10 ^ 15 * 10 ^ 1) (e - (1 : Nat)) := by
      have hcoeff : ((cMax : Nat) : ℝ) < (10 ^ 15 * 10 ^ 1 : Nat) := by
        exact_mod_cast (by decide : cMax < 10 ^ 15 * 10 ^ 1)
      rw [magnitude, magnitude, Nat.cast_one]; gcongr
    linarith
  · exact he'

/-- A correct rounding inside the format, folded only down to `EMAX`, is the one of R76. -/
theorem CorrectlyRounded.nearestPair {m : ℝ} {ideal e : Int} {c : Nat} (h : CorrectlyRounded m ideal c e)
    (hpair : FormatPair c e) (hfold : e < ideal → e = eMax) : NearestPair m ideal c e := by
  have hnearest {c' : Nat} {e' : Int} (hp : FormatPair c' e') :=
    h.nearest c' e' (hp.1.trans (by decide)) hp.2.1
  refine ⟨hpair, h.lt_overflowBound hpair, fun c' e' hp => (hnearest hp).1, fun c' e' hp => (hnearest hp).2,
    fun hexact c' e' hp hmag => ?_, fun hne => h.full (.inr hne)⟩
  rcases lt_trichotomy e ideal with hlt | rfl | hgt
  · have := hp.2.2
    have := hfold hlt
    rw [abs_of_neg, abs_of_neg] <;> omega
  · simp
  · have := exponent_le_of_magnitude_eq hp (h.full (.inl hgt)) (hmag.trans hexact.symm)
    rw [abs_of_pos, abs_of_pos] <;> omega

/-- The answer `z` of `finalize` for the sign `s` and the magnitude `m`: the nearest pair, or an Infinity on overflow
(R76). -/
def FinalizesTo (s : Bool) (m : ℝ) (ideal : Int) (z : LogicalValue) : Prop :=
  (∃ c e, z = .finite s c e ∧ NearestPair m ideal c e) ∨ (z = .inf s ∧ overflowBound ≤ m)

/-- The last part of `finalize` answers a correct rounding of a positive magnitude correctly (R76). -/
theorem CorrectlyRounded.settle_finalizesTo {m : ℝ} {ideal e : Int} {q : Nat} (h : CorrectlyRounded m ideal q e)
    (s : Bool) (hq : q < 10 ^ 16) (hm : 0 < m) (hmin : eMin ≤ e) (hideal : ideal ≤ e) :
    FinalizesTo s m ideal (settle s q e) := by
  rcases settle_cases s e hq with ⟨rfl, hz⟩ | ⟨-, j, hz, hlt, hmax, hj⟩ | ⟨-, hz, j, -, hge, hgt⟩
  · obtain rfl : e = eMin := (h.full (.inr (by rw [magnitude_zero]; exact hm.ne))).resolve_left (by norm_num)
    refine .inl ⟨0, eMin, hz, h.nearestPair ⟨by decide, le_rfl, by decide⟩ (by omega)⟩
  · refine .inl ⟨_, _, hz, (h.fold hj).nearestPair ⟨by rw [cMax]; omega, ?_, hmax⟩ (by omega)⟩
    simp only [eMin, eMax] at *; omega
  · refine .inr ⟨hz, h.overflowBound_le ?_⟩
    calc magnitude (10 ^ 16) eMax ≤ magnitude (q * 10 ^ (j + 1)) (e - (j + 1 : Nat)) :=
          magnitude_mono (by rw [pow_succ 10 j, ← mul_assoc]; exact hge) (by push_cast; omega)
      _ = magnitude q e := magnitude_shift q e (j + 1)

/-- A zero is exact, at the exponent of the range closest to the ideal one (R76). -/
theorem correctlyRounded_zero (e : Int) : CorrectlyRounded 0 e 0 (clamp e) where
  nearest c' e' _ _ := .of_eq (magnitude_zero _) 0 _
  full h := by
    rw [magnitude_zero] at h
    have hlt := h.resolve_right (fun hne => hne rfl)
    right
    simp only [clamp, eMin, eMax] at *; omega

/-- `finalize` answers the magnitude `(C + f) · 10^e` correctly (R76). -/
theorem finalize_finalizesTo (s : Bool) {sticky : Bool} {f : ℝ} (hf : StickyFraction sticky f) (C : Nat)
    (hsticky : sticky = true → 10 ^ 16 ≤ C) (e : Int) :
    FinalizesTo s ((C + f) * 10 ^ e) e (finalize s C sticky e) := by
  rcases eq_or_ne C 0 with rfl | hC
  · have hs : sticky = false := Bool.eq_false_iff.2 fun hs => absurd (hsticky hs) (by norm_num)
    obtain ⟨hmin, hmax, -⟩ := clamp_spec e
    rw [finalize_zero, hf.2 hs, Nat.cast_zero, add_zero, zero_mul]
    refine .inl ⟨0, clamp e, rfl, (correctlyRounded_zero e).nearestPair ⟨Nat.zero_le _, hmin, hmax⟩ ?_⟩
    simp only [clamp, eMin, eMax]; omega
  · have hle := roundHalfEven_le C sticky e
    obtain ⟨hlt, hexp, -⟩ := carryDigit_spec (e + dropCount C e) hle
    obtain ⟨-, hmin, -⟩ := dropCount_spec C e
    have hpos : (0 : ℝ) < (C + f) * 10 ^ e := by
      have : (0 : ℝ) < C := by exact_mod_cast Nat.pos_of_ne_zero hC
      have := hf.bounds.1
      positivity
    rw [finalize_eq_settle s sticky e hC]
    exact ((roundHalfEven_correctlyRounded hf hC hsticky e).carry hle).settle_finalizesTo s hlt hpos
      (by omega) (by omega)

/-- A correct answer for the magnitude `m` is the correct rounding of the signed value, with its sign (R76). -/
theorem FinalizesTo.roundsTo {s : Bool} {m : ℝ} {ideal : Int} {z : LogicalValue} (h : FinalizesTo s m ideal z)
    (hm : 0 ≤ m) : RoundsTo ((if s then -1 else 1) * m) ideal z ∧ z.signOf = s := by
  have hsign : SignAgrees ((if s then -1 else 1) * m) s := by
    cases s
    · exact ⟨fun hneg => absurd hneg (by simpa using hm), fun _ => rfl⟩
    · exact ⟨fun _ => rfl, fun hpos => absurd hpos (by simpa using hm)⟩
  have habs : |(if s then -1 else 1) * m| = m := by cases s <;> simp [hm]
  rcases h with ⟨c, e, rfl, hpair⟩ | ⟨rfl, hover⟩
  · exact ⟨⟨hsign, by rwa [habs]⟩, rfl⟩
  · exact ⟨⟨hsign, by rwa [habs]⟩, rfl⟩

/-- Settles O33: the rounding, the carry and the fold are correct above the format, and the overflow bound decides
whether the result lies in it. -/
theorem finalizeCorrectlyRounded : Obligations.FinalizeCorrectlyRounded := by
  intro s C sticky e f hsticky hexact
  have hf : StickyFraction sticky f := ⟨fun hs => (hsticky hs).2, hexact⟩
  have hf0 := hf.bounds.1
  exact (finalize_finalizesTo s hf C (fun hs => (hsticky hs).1) e).roundsTo (by positivity)

end Sys2Proof.Machine

/-! NEG on the packed form, and the logical value of a negated pattern (R85, R87). -/

namespace Sys2Proof

/-- The logical value of a negated pattern (R85): NEG flips the sign and leaves a NaN as it is. -/
def LogicalValue.negated : LogicalValue → LogicalValue
  | .finite s c e => .finite (!s) c e
  | .inf s => .inf !s
  | .nan s => .nan s

theorem LogicalValue.value_negated (x : LogicalValue) : x.negated.value = -x.value := by
  cases x with
  | finite s c e => cases s <;> simp [negated, value]
  | inf s => simp [negated, value]
  | nan s => simp [negated, value]

namespace Machine

/-- The mask of R85 inverts bit 63 and keeps the 63 bits below it. -/
theorem xor_sign_eq (v : Word) :
    v ^^^ 0x8000000000000000#64 = (BitVec.ofBool (!v.getLsbD 63) ++ v.extractLsb' 0 63 : Word) := by
  have hmask : (0x8000000000000000#64 : Word) = BitVec.twoPow 64 63 := by decide
  apply BitVec.eq_of_getLsbD_eq
  intro i hi
  rw [hmask, BitVec.getLsbD_xor, BitVec.getLsbD_twoPow, BitVec.getLsbD_append]
  rcases Nat.lt_or_ge i 63 with hlow | hge
  · simp [hlow, show 63 ≠ i by omega]
  · obtain rfl : i = 63 := by omega
    simp

/-- Every field of a word but `S` is below the inverted bit (R30). -/
theorem extractLsb'_xor_sign (v : Word) {start len : Nat} (h : start + len ≤ 63) :
    (v ^^^ 0x8000000000000000#64).extractLsb' start len = v.extractLsb' start len := by
  refine extractLsb'_eq_of_low_eq ?_ h
  rw [xor_sign_eq, BitVec.extractLsb'_append_eq_right]

theorem fieldG_xor_sign (v : Word) : fieldG (v ^^^ 0x8000000000000000#64) = fieldG v :=
  extractLsb'_xor_sign v (by decide)

theorem negate_of_nan {v : Word} (h : fieldG v = nanTag) : negate v = v := if_pos h

theorem negate_of_not_nan {v : Word} (h : fieldG v ≠ nanTag) : negate v = v ^^^ 0x8000000000000000#64 := if_neg h

/-- NEG written with the fields of its operand (R85). -/
theorem negate_eq (v : Word) : negate v =
    if v.extractLsb' 58 5 = 0b11111#5 then v else (BitVec.ofBool (!v.getLsbD 63) ++ v.extractLsb' 0 63 : Word) := by
  rw [← xor_sign_eq]; rfl

theorem negate_negate (v : Word) : negate (negate v) = v := by
  by_cases h : fieldG v = nanTag
  · rw [negate_of_nan h, negate_of_nan h]
  · have h' : fieldG (v ^^^ 0x8000000000000000#64) ≠ nanTag := by rwa [fieldG_xor_sign]
    rw [negate_of_not_nan h, negate_of_not_nan h', BitVec.xor_assoc, BitVec.xor_self, BitVec.xor_zero]

/-- Inverting the top bit inverts the sign of a pattern and keeps its coefficient and exponent (R30 to R33). -/
theorem xor_sign_fields (v : Word) :
    fieldS (v ^^^ 0x8000000000000000#64) = (!fieldS v) ∧
    coefficient (v ^^^ 0x8000000000000000#64) = coefficient v ∧
    biasedExponent (v ^^^ 0x8000000000000000#64) = biasedExponent v := by
  have hT {i : Nat} (hi : i ≤ 4) : fieldT (v ^^^ 0x8000000000000000#64) i = fieldT v i :=
    extractLsb'_xor_sign v (by omega)
  have hEC : fieldEC (v ^^^ 0x8000000000000000#64) = fieldEC v := extractLsb'_xor_sign v (by decide)
  refine ⟨?_, ?_, ?_⟩
  · rw [fieldS, BitVec.getLsbD_xor]
    exact Bool.xor_true (fieldS v)
  · rw [coefficient, coefficient, fieldG_xor_sign, hT, hT, hT, hT, hT] <;> decide
  · rw [biasedExponent, biasedExponent, fieldG_xor_sign, hEC]

/-- NEG on patterns is `negated` on logical values (R85). -/
theorem codecDecode_negate (v : Word) : codecDecode (negate v) = (codecDecode v).negated := by
  obtain ⟨hS, hcoeff, hexp⟩ := xor_sign_fields v
  have hG := fieldG_xor_sign v
  rcases codecDecode_cases v with ⟨hnan, h⟩ | ⟨hinf, h⟩ | ⟨hnan, hinf, h⟩
  · rw [negate_of_nan hnan, h]; rfl
  · rw [negate_of_not_nan (by rw [hinf]; decide), codecDecode, hG, if_neg (by rw [hinf]; decide), if_pos hinf, hS, h]
    rfl
  · rw [negate_of_not_nan hnan, codecDecode, hG, if_neg hnan, if_neg hinf, hS, hcoeff, hexp, h]
    rfl

/-- Settles O7: NEG has a result for every operand, and its mask is the top bit. -/
theorem negFlipsOnlyTheSignBit : Obligations.NegFlipsOnlyTheSignBit := by
  refine ⟨fun b a s => ⟨_, exec_neg b a s, ?_⟩, negate_negate⟩
  rw [← negate_eq]
  exact complete_ok_answered s _ _

/-- Settles O12: SUB is defined as the ADD of the negated operand, and both complete. -/
theorem subIsAddOfNegated : Obligations.SubIsAddOfNegated := by
  intro b a s
  rw [← negate_eq]
  obtain ⟨t, t', r, hsub, hadd, ht, ht'⟩ :=
    same_response (addOutcome_ok (negate b) a) (exec_sub b a s) (exec_add (negate b) a s)
  exact ⟨t, t', r, hsub, ht, hadd, ht'⟩

end Machine

end Sys2Proof

/-! The transactions of ADD, SUB and MUL in terms of logical values (R75, R86, R87, R95), their special operands (R88)
and their symmetry. -/

namespace Sys2Proof.Machine

/-- A well-formed value as the outcome of a request: its canonical pattern in a normal response (R75). -/
theorem complete_encodeResult_answeredValue (s : State) (i : Instr) {x : LogicalValue} (hx : x.isWellFormed = true) :
    AnsweredValue s (s.complete i (encodeResult x)) x := by
  obtain ⟨p, henc, hres⟩ := encodeResult_of_wellFormed hx
  exact ⟨p, henc, by rw [hres]; exact complete_ok_answered s i _⟩

/-- ADD answers with `add_lv` of its decoded operands (R86). -/
theorem exec_add_answeredValue (b a : Word) (s : State) :
    ∃ t, exec (.add b a) s = .next t ∧ AnsweredValue s t (addValue (codecDecode a) (codecDecode b)) :=
  ⟨_, exec_add b a s, complete_encodeResult_answeredValue s _ (addValue_wellFormed _ _)⟩

/-- SUB answers with `add_lv` of its decoded operands, the second one negated (R87). -/
theorem exec_sub_answeredValue (b a : Word) (s : State) :
    ∃ t, exec (.sub b a) s = .next t ∧ AnsweredValue s t (addValue (codecDecode a) (codecDecode b).negated) := by
  rw [← codecDecode_negate]
  exact ⟨_, exec_sub b a s, complete_encodeResult_answeredValue s _ (addValue_wellFormed _ _)⟩

/-- MUL answers with `mul_lv` of its decoded operands (R95). -/
theorem exec_mul_answeredValue (b a : Word) (s : State) :
    ∃ t, exec (.mul b a) s = .next t ∧ AnsweredValue s t (mulValue (codecDecode a) (codecDecode b)) :=
  ⟨_, exec_mul b a s, complete_encodeResult_answeredValue s _ (mulValue_wellFormed _ _)⟩

/-- A NaN operand on either side gives the NaN of R78 (R88). -/
theorem addValue_nan_left (n : Bool) (y : LogicalValue) : addValue (.nan n) y = .nan false := rfl
theorem addValue_nan_right (x : LogicalValue) (n : Bool) : addValue x (.nan n) = .nan false := by cases x <;> rfl

/-- Two Infinities: the common one, or NaN for opposite signs (R88). -/
theorem addValue_inf_same (sx : Bool) : addValue (.inf sx) (.inf sx) = .inf sx := if_pos rfl
theorem addValue_inf_opposite (sx : Bool) : addValue (.inf sx) (.inf !sx) = .nan false :=
  if_neg (Bool.not_eq_not.2 rfl)

/-- Settles O10: row by row of the table of R88. -/
theorem addSpecialOperands : Obligations.AddSpecialOperands := by
  intro b a s
  have hadd := exec_add_answeredValue b a s
  refine ⟨fun n h => ?_, fun sx ha hb => ?_, fun sx ha hb => ?_, fun sx sb cb eb ha hb => ?_,
    fun sa ca ea sy ha hb => ?_⟩
  · rcases h with h | h <;> rw [h] at hadd
    · exact hadd
    · rwa [addValue_nan_right] at hadd
  all_goals rw [ha, hb] at hadd
  · rwa [addValue_inf_same] at hadd
  · rwa [addValue_inf_opposite] at hadd
  · exact hadd
  · exact hadd

/-- `add_lv` is symmetric: the sum, the lesser exponent and the sign of a zero sum are (R86). -/
theorem addFinite_comm (sa : Bool) (ca : Nat) (ea : Int) (sb : Bool) (cb : Nat) (eb : Int) :
    addFinite sa ca ea sb cb eb = addFinite sb cb eb sa ca ea := by
  simp only [addFinite]
  rw [min_comm ea eb, add_comm (signedCoeff sa _), Bool.and_comm sa sb]

theorem addValue_comm (x y : LogicalValue) : addValue x y = addValue y x := by
  cases x with
  | nan n => rw [addValue_nan_left, addValue_nan_right]
  | inf sx =>
    cases y with
    | nan n => rfl
    | inf sy =>
      rcases Bool.eq_or_eq_not sy sx with rfl | rfl
      · rfl
      · have hback := addValue_inf_opposite (!sx)
        rw [Bool.not_not] at hback
        rw [addValue_inf_opposite, hback]
    | finite sb cb eb => rfl
  | finite sa ca ea =>
    cases y with
    | nan n => rfl
    | inf sy => rfl
    | finite sb cb eb => exact addFinite_comm sa ca ea sb cb eb

/-- `mul_lv` is symmetric: the product, the sum of the exponents and the exclusive or are (R95, R96). -/
theorem mulValue_comm (x y : LogicalValue) : mulValue x y = mulValue y x := by
  have hinf (s s' z : Bool) : mulInf s s' z = mulInf s' s z := by rw [mulInf, mulInf, Bool.xor_comm]
  cases x with
  | nan n => cases y <;> rfl
  | inf sx =>
    cases y with
    | nan n => rfl
    | inf sy => exact hinf sx sy _
    | finite sb cb eb => exact hinf sx sb _
  | finite sa ca ea =>
    cases y with
    | nan n => rfl
    | inf sy => exact hinf sa sy _
    | finite sb cb eb => simp only [mulValue]; rw [Bool.xor_comm, Nat.mul_comm, Int.add_comm]

/-- Settles O35: the outcomes of both orders are the same encoding. -/
theorem addAndMulCommute : Obligations.AddAndMulCommute := by
  intro b a s
  have hadd : addOutcome a b = addOutcome b a := congrArg encodeResult (addValue_comm _ _)
  have hmul : mulOutcome a b = mulOutcome b a := congrArg encodeResult (mulValue_comm _ _)
  exact ⟨same_response (addOutcome_ok b a) (exec_add b a s) (hadd ▸ exec_add a b s),
    same_response (mulOutcome_ok b a) (exec_mul b a s) (hmul ▸ exec_mul a b s)⟩

end Sys2Proof.Machine

/-! The exact sum behind ADD and SUB: an integer at the lesser exponent, rounded once (R86, R90). -/

namespace Sys2Proof.Machine

/-- The exact sum of two Finite operands in units of `10^min(ea, eb)` (R86). -/
def alignedSum (sa : Bool) (ca : Nat) (ea : Int) (sb : Bool) (cb : Nat) (eb : Int) : Int :=
  signedCoeff sa (ca * 10 ^ (ea - min ea eb).toNat) + signedCoeff sb (cb * 10 ^ (eb - min ea eb).toNat)

/-- The rounding of an exact sum `S · 10^e`, a zero sum with the sign `z` (R86, R90). -/
def finalizeSum (z : Bool) (S e : Int) : LogicalValue :=
  finalize (if S = 0 then z else decide (S < 0)) S.natAbs false e

/-- `add_lv` rounds the aligned sum, and a zero sum is minus for two negative operands (R86, R90). -/
theorem addFinite_eq (sa : Bool) (ca : Nat) (ea : Int) (sb : Bool) (cb : Nat) (eb : Int) :
    addFinite sa ca ea sb cb eb = finalizeSum (sa && sb) (alignedSum sa ca ea sb cb eb) (min ea eb) := rfl

theorem signedCoeff_eq (s : Bool) (c : Nat) : signedCoeff s c = (if s then -1 else 1) * c := by
  cases s <;> simp [signedCoeff]

/-- A Finite value in units of a power of ten at or below its own exponent (R8). -/
theorem value_in_units (s : Bool) (c : Nat) {e u : Int} (h : u ≤ e) :
    (LogicalValue.finite s c e).value = signedCoeff s (c * 10 ^ (e - u).toNat) * (10 : ℚ) ^ u := by
  have hpow : (10 : ℚ) ^ e = 10 ^ (e - u).toNat * 10 ^ u := by
    rw [← zpow_natCast, ← zpow_add₀ (by norm_num)]; congr 1; omega
  rw [LogicalValue.value, signedCoeff_eq, hpow]
  push_cast; ring

/-- The aligned sum is the exact one: alignment loses nothing (R86). -/
theorem value_add_value (sa : Bool) (ca : Nat) (ea : Int) (sb : Bool) (cb : Nat) (eb : Int) :
    (LogicalValue.finite sa ca ea).value + (LogicalValue.finite sb cb eb).value =
      alignedSum sa ca ea sb cb eb * (10 : ℚ) ^ min ea eb := by
  rw [value_in_units sa ca (min_le_left ea eb), value_in_units sb cb (min_le_right ea eb), alignedSum]
  push_cast; ring

/-- The sign that a sum is rounded with and its magnitude make up the sum. -/
theorem sign_mul_natAbs (z : Bool) (S : Int) :
    (if (if S = 0 then z else decide (S < 0)) then -1 else 1) * (S.natAbs : ℝ) = S := by
  rcases lt_trichotomy S 0 with hneg | rfl | hpos
  · rw [if_neg hneg.ne, decide_eq_true hneg, Nat.cast_natAbs, abs_of_neg hneg]; simp
  · simp
  · rw [if_neg hpos.ne', decide_eq_false hpos.not_gt, Nat.cast_natAbs, abs_of_pos hpos]; simp

theorem finalizeSum_roundsTo (z : Bool) (S e : Int) : RoundsTo ((S : ℝ) * 10 ^ e) e (finalizeSum z S e) := by
  obtain ⟨hround, -⟩ := finalizeCorrectlyRounded (if S = 0 then z else decide (S < 0)) S.natAbs false e 0 nofun
    (fun _ => rfl)
  rwa [add_zero, ← mul_assoc, sign_mul_natAbs] at hround

/-- A zero sum keeps its sign and an exponent of the format (R90). -/
theorem finalizeSum_zero (z : Bool) {e : Int} (h1 : eMin ≤ e) (h2 : e ≤ eMax) : finalizeSum z 0 e = .finite z 0 e :=
  finalize_exact z false (by norm_num) h1 h2

/-- `add_lv` of Finite operands is the correct rounding of their exact sum (R76, R86). -/
theorem addFinite_roundsTo (sa : Bool) (ca : Nat) (ea : Int) (sb : Bool) (cb : Nat) (eb : Int) :
    RoundsTo (((LogicalValue.finite sa ca ea).value + (LogicalValue.finite sb cb eb).value : ℚ) : ℝ) (min ea eb)
      (addFinite sa ca ea sb cb eb) := by
  have hcast : ((alignedSum sa ca ea sb cb eb * (10 : ℚ) ^ min ea eb : ℚ) : ℝ) =
      alignedSum sa ca ea sb cb eb * 10 ^ min ea eb := by push_cast; rfl
  rw [value_add_value, hcast, addFinite_eq]
  exact finalizeSum_roundsTo _ _ _

/-- The lesser exponent of two decoded Finite operands is one of the format (R15, R90). -/
theorem min_exponent_range {b a : Word} {sa sb : Bool} {ca cb : Nat} {ea eb : Int}
    (ha : codecDecode a = .finite sa ca ea) (hb : codecDecode b = .finite sb cb eb) :
    eMin ≤ min ea eb ∧ min ea eb ≤ eMax := by
  obtain ⟨-, ha1, ha2⟩ := finite_bounds (ha ▸ codecDecode_wellFormed a)
  obtain ⟨-, hb1, -⟩ := finite_bounds (hb ▸ codecDecode_wellFormed b)
  exact ⟨le_min ha1 hb1, min_le_of_left_le ha2⟩

/-- `add_lv` of Finite operands with an exactly zero sum (R90). -/
theorem addFinite_of_value_zero {sa sb : Bool} {ca cb : Nat} {ea eb : Int} (h1 : eMin ≤ min ea eb)
    (h2 : min ea eb ≤ eMax) (h : (LogicalValue.finite sa ca ea).value + (LogicalValue.finite sb cb eb).value = 0) :
    addFinite sa ca ea sb cb eb = .finite (sa && sb) 0 (min ea eb) := by
  have hpow : (10 : ℚ) ^ min ea eb ≠ 0 := zpow_ne_zero _ (by norm_num)
  rw [value_add_value] at h
  have hsum : alignedSum sa ca ea sb cb eb = 0 := by exact_mod_cast (mul_eq_zero.1 h).resolve_right hpow
  rw [addFinite_eq, hsum, finalizeSum_zero _ h1 h2]

/-- Settles O8: ADD answers the rounding of the exact sum. -/
theorem addFiniteCorrectlyRounded : Obligations.AddFiniteCorrectlyRounded := by
  intro b a s sa sb ca cb ea eb ha hb
  obtain ⟨t, hexec, hans⟩ := exec_add_answeredValue b a s
  refine ⟨t, _, hexec, hans, ?_⟩
  rw [ha, hb]
  exact addFinite_roundsTo sa ca ea sb cb eb

/-- Settles O9: at a zero sum nothing is rounded, and the lesser exponent is in range. -/
theorem addZeroSumSign : Obligations.AddZeroSumSign := by
  intro b a s sa sb ca cb ea eb ha hb hzero
  obtain ⟨h1, h2⟩ := min_exponent_range ha hb
  obtain ⟨t, hexec, hans⟩ := exec_add_answeredValue b a s
  rw [ha, hb] at hans hzero
  exact ⟨t, hexec, addFinite_of_value_zero h1 h2 hzero ▸ hans⟩

/-- Settles O11: the difference is the sum with the negated second operand. -/
theorem subFiniteCorrectlyRounded : Obligations.SubFiniteCorrectlyRounded := by
  intro b a s sa sb ca cb ea eb ha hb
  obtain ⟨t, hexec, hans⟩ := exec_sub_answeredValue b a s
  refine ⟨t, _, hexec, hans, ?_⟩
  rw [sub_eq_add_neg, ← LogicalValue.value_negated, ha, hb]
  exact addFinite_roundsTo sa ca ea (!sb) cb eb

/-- Settles O13: the rows of R88 and R90 for the negated second operand. -/
theorem subSpecialOperands : Obligations.SubSpecialOperands := by
  intro b a s
  have hsub := exec_sub_answeredValue b a s
  refine ⟨fun n h => ?_, fun sx ha hb => ?_, fun sx ha hb => ?_, fun sx sb cb eb ha hb => ?_,
    fun sa ca ea sy ha hb => ?_, fun sa ca ea sb cb eb ha hb heq => ?_⟩
  · rcases h with h | h <;> rw [h] at hsub
    · exact hsub
    · rwa [LogicalValue.negated, addValue_nan_right] at hsub
  all_goals rw [ha, hb, LogicalValue.negated] at hsub
  · rwa [addValue_inf_opposite] at hsub
  · rwa [Bool.not_not, addValue_inf_same] at hsub
  · exact hsub
  · exact hsub
  · obtain ⟨h1, h2⟩ := min_exponent_range ha hb
    rw [ha, hb, ← sub_eq_zero, sub_eq_add_neg, ← LogicalValue.value_negated] at heq
    rwa [addValue, addFinite_of_value_zero h1 h2 heq] at hsub

/-- An integer below `10^16` in magnitude is a sum that `finalize` keeps: a zero sum is plus (R76, R90, R120). -/
theorem finalizeSum_integerValue {z : Bool} {i : Int} (hz : i = 0 → z = false) (h : i.natAbs < 10 ^ 16) :
    finalizeSum z i 0 = integerValue i := by
  have hsign : (if i = 0 then z else decide (i < 0)) = decide (i < 0) := by
    split
    · next h0 => rw [hz h0, h0]; rfl
    · rfl
  rw [finalizeSum, hsign, finalize_exact _ _ h (by decide) (by decide), integerValue]

/-- The sign and the magnitude of an integer make it up (R8). -/
theorem signedCoeff_natAbs (i : Int) : signedCoeff (decide (i < 0)) i.natAbs = i := by
  rw [signedCoeff]
  split
  · next h => have := of_decide_eq_true h; omega
  · next h => have := of_decide_eq_false (Bool.eq_false_of_not_eq_true h); omega

theorem signedCoeff_not (s : Bool) (c : Nat) : signedCoeff (!s) c = -signedCoeff s c := by
  cases s <;> simp [signedCoeff]

/-- At equal exponents nothing is aligned (R86). -/
theorem alignedSum_same_exponent (sa : Bool) (ca : Nat) (sb : Bool) (cb : Nat) (e : Int) :
    alignedSum sa ca e sb cb e = signedCoeff sa ca + signedCoeff sb cb := by simp [alignedSum]

/-- `add_lv` of two integers is their sum (R86). -/
theorem addValue_integerValue {i j : Int} (h : (i + j).natAbs < 10 ^ 16) :
    addValue (integerValue i) (integerValue j) = integerValue (i + j) := by
  rw [integerValue, integerValue, addValue, addFinite_eq, alignedSum_same_exponent, signedCoeff_natAbs,
    signedCoeff_natAbs]
  refine finalizeSum_integerValue (fun h0 => ?_) h
  rw [← Bool.decide_and, decide_eq_false_iff_not]
  omega

/-- `add_lv` of an integer and a negated one is their difference, also where that negates a zero (R87). -/
theorem addValue_negated_integerValue {i j : Int} (h : (i - j).natAbs < 10 ^ 16) :
    addValue (integerValue i) (integerValue j).negated = integerValue (i - j) := by
  rw [integerValue, integerValue, LogicalValue.negated, addValue, addFinite_eq, alignedSum_same_exponent,
    signedCoeff_not, signedCoeff_natAbs, signedCoeff_natAbs, ← sub_eq_add_neg]
  refine finalizeSum_integerValue (fun h0 => ?_) h
  rw [sub_eq_zero.1 h0, Bool.and_not_self]

/-- `mul_lv` of two integers is their product with the exclusive or of the signs (R95). -/
theorem mulValue_integerValue {i j : Int} (h : (i * j).natAbs < 10 ^ 16) :
    mulValue (integerValue i) (integerValue j) = .finite (decide (i < 0) ^^ decide (j < 0)) (i * j).natAbs 0 := by
  rw [Int.natAbs_mul] at h ⊢
  exact finalize_exact _ _ h (by decide) (by decide)

/-- Settles O52: an integer of at most 16 digits is kept by `finalize`. -/
theorem integerArithmeticIsExact : Obligations.IntegerArithmeticIsExact := by
  intro i j b a s ha hb
  have hadd := exec_add_answeredValue b a s
  have hsub := exec_sub_answeredValue b a s
  have hmul := exec_mul_answeredValue b a s
  rw [ha, hb] at hadd hsub hmul
  exact ⟨fun h => addValue_integerValue h ▸ hadd, fun h => addValue_negated_integerValue h ▸ hsub,
    fun h => mulValue_integerValue h ▸ hmul⟩

end Sys2Proof.Machine

/-! The 128-bit adder datapath: exact on the near path, and on the far path the smaller operand is a sticky bit (R89). -/

namespace Sys2Proof.Machine

theorem digits_append {C r m : Nat} (hC : C ≠ 0) (hr : r < 10 ^ m) : digits (C * 10 ^ m + r) = digits C + m := by
  obtain ⟨h1, hlow, hhigh⟩ := digits_spec hC
  have hpow (d : Nat) : 10 ^ (d + m) = 10 ^ d * 10 ^ m := pow_add 10 d m
  have hle : 10 ^ (digits C - 1 + m) ≤ C * 10 ^ m + r := by
    rw [hpow]; exact (Nat.mul_le_mul_right _ hlow).trans (Nat.le_add_right _ _)
  have hlt : C * 10 ^ m + r < 10 ^ (digits C - 1 + m + 1) := by
    rw [show digits C - 1 + m + 1 = digits C + m by omega, hpow]
    calc C * 10 ^ m + r < (C + 1) * 10 ^ m := by rw [add_mul, one_mul]; omega
      _ ≤ 10 ^ digits C * 10 ^ m := Nat.mul_le_mul_right _ hhigh
  rw [digits_unique hle hlt]; omega

/-- Of a coefficient of more than 16 digits, `m` more digits at an exponent lower by `m` are all dropped (R76). -/
theorem dropCount_append {C r m : Nat} (hC : 10 ^ 16 ≤ C) (hr : r < 10 ^ m) (e : Int) :
    dropCount (C * 10 ^ m + r) (e - m) = dropCount C e + m := by
  have hC0 : C ≠ 0 := by omega
  have hd : ¬ digits C ≤ 16 := fun h => absurd (digits_le_iff.1 h) (by omega)
  simp only [dropCount, precision, digits_append hC0 hr]
  push_cast; omega

/-- Digits `r` appended below a dropped part decide its rounding only at the half unit, by being 0 or not (R76). -/
theorem roundUp_append {r M : Nat} (hr : r < M) (x y : Nat) (odd : Prop) :
    (r + M * x > M * y ∨ (r + M * x = M * y ∧ odd)) ↔ (x > y ∨ (x = y ∧ (r ≠ 0 ∨ odd))) := by
  rcases lt_trichotomy x y with hlt | rfl | hgt
  · have hstep : M * x + M ≤ M * y := Nat.mul_le_mul_left M (Nat.succ_le_of_lt hlt)
    exact iff_of_false (by rintro (h | ⟨h, -⟩) <;> omega) (by rintro (h | ⟨h, -⟩) <;> omega)
  · rcases Nat.eq_zero_or_pos r with rfl | hpos
    · simp
    · exact iff_of_true (.inl (by omega)) (.inr ⟨rfl, .inl (by omega)⟩)
  · have hstep : M * y + M ≤ M * x := Nat.mul_le_mul_left M (Nat.succ_le_of_lt hgt)
    exact iff_of_true (.inl (by omega)) (.inl hgt)

/-- Where digits of `C` are dropped, `m` more dropped digits below them count only by being 0 or not (R76, R89). -/
theorem roundHalfEven_append (C : Nat) {r m drop : Nat} (hr : r < 10 ^ m) (hdrop : drop ≠ 0) :
    roundHalfEven (C * 10 ^ m + r) false (drop + m) = roundHalfEven C (decide (r ≠ 0)) drop := by
  have hdiv : (C * 10 ^ m + r) / 10 ^ m = C := by
    rw [add_comm, Nat.add_mul_div_right r C (by positivity), Nat.div_eq_of_lt hr, zero_add]
  have hmod : (C * 10 ^ m + r) % 10 ^ m = r := by
    rw [add_comm, Nat.add_mul_mod_self_right, Nat.mod_eq_of_lt hr]
  have hpow : 10 ^ (drop + m) = 10 ^ m * 10 ^ drop := by rw [add_comm, pow_add]
  have hquot : (C * 10 ^ m + r) / 10 ^ (drop + m) = C / 10 ^ drop := by rw [hpow, ← Nat.div_div_eq_div_mul, hdiv]
  have hrem : (C * 10 ^ m + r) % 10 ^ (drop + m) = r + 10 ^ m * (C % 10 ^ drop) := by
    rw [hpow, Nat.mod_mul, hdiv, hmod]
  have hhalf : 5 * 10 ^ (drop + m - 1) = 10 ^ m * (5 * 10 ^ (drop - 1)) := by
    rw [show drop + m - 1 = m + (drop - 1) by omega, pow_add]; ring
  rw [roundHalfEven, roundHalfEven, if_neg (by omega), if_neg hdrop]
  simp only [hquot, hrem, hhalf, Bool.false_eq_true, false_or, decide_eq_true_eq, roundUp_append hr]

/-- Digits below a coefficient of more than 16 digits are a sticky bit (R76, R89). -/
theorem finalize_append (s : Bool) {C r m : Nat} (hC : 10 ^ 16 ≤ C) (hr : r < 10 ^ m) (e : Int) :
    finalize s (C * 10 ^ m + r) false (e - m) = finalize s C (decide (r ≠ 0)) e := by
  have hpos : 0 < C * 10 ^ m := Nat.mul_pos (by omega) (by positivity)
  have hexp : e - m + (dropCount C e + m : Nat) = e + dropCount C e := by push_cast; ring
  rw [finalize_eq_settle s _ _ (by omega), finalize_eq_settle s _ _ (by omega), dropCount_append hC hr,
    roundHalfEven_append C hr (dropCount_ne_zero hC e), hexp]

/-- Digits subtracted below such a coefficient are a sticky bit above its predecessor (R89). -/
theorem finalize_borrow (s : Bool) {C r m : Nat} (hC : 10 ^ 16 < C) (hr : r < 10 ^ m) (hr0 : r ≠ 0) (e : Int) :
    finalize s (C * 10 ^ m - r) false (e - m) = finalize s (C - 1) true e := by
  have hsplit : C * 10 ^ m - r = (C - 1) * 10 ^ m + (10 ^ m - r) := by
    obtain ⟨n, rfl⟩ : ∃ n, C = n + 1 := ⟨C - 1, by omega⟩
    rw [Nat.add_sub_cancel, add_mul, one_mul]; omega
  rw [hsplit, finalize_append s (by omega) (by omega), decide_eq_true (by omega)]

/-- Where the first magnitude is no less than the second, the sum has its sign: the magnitudes add up for equal signs,
and their difference is taken for opposite ones. -/
theorem signedCoeff_add_of_le (sh sl : Bool) {A B : Nat} (h : B ≤ A) :
    signedCoeff sh A + signedCoeff sl B = signedCoeff sh (if sh = sl then A + B else A - B) := by
  rcases Bool.eq_or_eq_not sl sh with rfl | rfl
  · rw [if_pos rfl, signedCoeff_eq, signedCoeff_eq, signedCoeff_eq]
    push_cast; ring
  · rw [if_neg (Bool.not_eq_not.2 rfl), signedCoeff_not, signedCoeff_eq, signedCoeff_eq, signedCoeff_eq, Nat.cast_sub h]
    ring

/-- A sum that is not zero is rounded with its own sign (R86). -/
theorem finalizeSum_signedCoeff (z s : Bool) {D : Nat} (hD : D ≠ 0) (e : Int) :
    finalizeSum z (signedCoeff s D) e = finalize s D false e := by
  have hne : signedCoeff s D ≠ 0 := by cases s <;> simp [signedCoeff, hD]
  have hsign : decide (signedCoeff s D < 0) = s := by cases s <;> simp [signedCoeff]; omega
  have habs : (signedCoeff s D).natAbs = D := by cases s <;> simp [signedCoeff]
  rw [finalizeSum, if_neg hne, hsign, habs]

/-- The padding of the far path: 18 digits of `ch`, and `m` digits below them that cover the other operand (R89). -/
theorem farPath_padding {ch diff : Nat} (hch : ch ≠ 0) (hmax : ch ≤ cMax) (hfar : 39 ≤ digits ch + diff) :
    ∃ m, diff = 18 - digits ch + m ∧ 21 ≤ m ∧ 10 ^ 17 ≤ ch * 10 ^ (18 - digits ch) := by
  obtain ⟨h1, hlow, -⟩ := digits_spec hch
  have hd : digits ch ≤ 16 := digits_le_iff.2 (hmax.trans_lt (by decide))
  refine ⟨diff - (18 - digits ch), by omega, by omega, ?_⟩
  calc 10 ^ 17 = 10 ^ (digits ch - 1) * 10 ^ (18 - digits ch) := by rw [← pow_add]; congr 1; omega
    _ ≤ ch * 10 ^ (18 - digits ch) := Nat.mul_le_mul_right _ hlow

/-- On the far path the datapath rounds the exact sum (R89). -/
theorem addFarPath_eq (sh sl : Bool) {ch cl : Nat} {eh el : Int} (hle : el ≤ eh) (hch : ch ≠ 0) (hmaxh : ch ≤ cMax)
    (hmaxl : cl ≤ cMax) (hfar : 39 ≤ digits ch + (eh - el).toNat) :
    addFarPath sh ch eh sl cl =
      finalizeSum (sh && sl) (signedCoeff sh (ch * 10 ^ (eh - el).toNat) + signedCoeff sl cl) el := by
  obtain ⟨m, hdiff, hm, hC⟩ := farPath_padding hch hmaxh hfar
  have hcl : cl < 10 ^ m := hmaxl.trans_lt ((by decide : cMax < 10 ^ 21).trans_le (Nat.pow_le_pow_right (by decide) hm))
  have hA : ch * 10 ^ (eh - el).toNat = ch * 10 ^ (18 - digits ch) * 10 ^ m := by rw [hdiff, pow_add, mul_assoc]
  have hel : el = eh - (18 - digits ch : Nat) - m := by omega
  rw [hA, addFarPath]
  generalize ch * 10 ^ (18 - digits ch) = C at hC
  have hlt : cl < C * 10 ^ m := hcl.trans_le (Nat.le_mul_of_pos_left _ (by omega))
  have hne : (if sh = sl then C * 10 ^ m + cl else C * 10 ^ m - cl) ≠ 0 := by split <;> omega
  rw [signedCoeff_add_of_le sh sl hlt.le, finalizeSum_signedCoeff _ _ hne, hel]
  rcases eq_or_ne cl 0 with rfl | hcl0
  · rw [if_pos rfl, Nat.add_zero, Nat.sub_zero, ite_self]
    exact (finalize_append sh (r := 0) (by omega) hcl _).symm
  · rw [if_neg hcl0]
    split
    · rw [finalize_append sh (by omega) hcl, decide_eq_true hcl0]
    · rw [finalize_borrow sh (by omega) hcl hcl0]

/-- The adder with the operand of the greater exponent first rounds the exact sum (R89). -/
theorem addOrdered_eq (sh sl : Bool) {ch cl : Nat} {eh el : Int} (hle : el ≤ eh) (hmaxh : ch ≤ cMax) (hmaxl : cl ≤ cMax) :
    addOrdered sh ch eh sl cl el = addFinite sh ch eh sl cl el := by
  have hsum : addFinite sh ch eh sl cl el =
      finalizeSum (sh && sl) (signedCoeff sh (ch * 10 ^ (eh - el).toNat) + signedCoeff sl cl) el := by
    rw [addFinite_eq, alignedSum, min_eq_right hle, sub_self, Int.toNat_zero, pow_zero, mul_one]
  rw [hsum, addOrdered]
  dsimp only
  split
  · rfl
  · next h =>
    obtain ⟨hch, hfar⟩ := not_or.1 h
    exact addFarPath_eq sh sl hle hch hmaxh hmaxl (by omega)

/-- Settles O55: the datapath orders the operands, and `add_lv` is symmetric. -/
theorem addDatapathAgrees : Obligations.AddDatapathAgrees := by
  rintro sa sb ca cb ea eb ⟨ha, -, -⟩ ⟨hb, -, -⟩
  rw [addDatapath]
  split
  · next hle => exact addOrdered_eq sa sb hle ha hb
  · next hgt => rw [addOrdered_eq sb sa (by omega) hb ha, addFinite_comm]

end Sys2Proof.Machine

/-! MUL: the exact product of Finite operands, rounded once (R95), and its special operands (R96). -/

namespace Sys2Proof.Machine

/-- Without a sticky bit `finalize` rounds the value of the triple it is given, and keeps its sign (R76). -/
theorem finalize_value_roundsTo (s : Bool) (C : Nat) (e : Int) :
    RoundsTo ((LogicalValue.finite s C e).value : ℝ) e (finalize s C false e) ∧ (finalize s C false e).signOf = s := by
  have hvalue : ((LogicalValue.finite s C e).value : ℝ) = (if s then -1 else 1) * (((C : ℝ) + 0) * 10 ^ e) := by
    cases s <;> simp [LogicalValue.value]
  rw [hvalue]
  exact finalizeCorrectlyRounded s C false e 0 nofun (fun _ => rfl)

/-- The exact product of two Finite values: the coefficients multiply, the exponents add, and the sign is the exclusive
or (R8, R95). -/
theorem value_mul_value (sa : Bool) (ca : Nat) (ea : Int) (sb : Bool) (cb : Nat) (eb : Int) :
    (LogicalValue.finite sa ca ea).value * (LogicalValue.finite sb cb eb).value =
      (LogicalValue.finite (sa ^^ sb) (ca * cb) (ea + eb)).value := by
  have hsign : (if (sa ^^ sb) = true then (-1 : ℚ) else 1) = (if sa then -1 else 1) * (if sb then -1 else 1) := by
    cases sa <;> cases sb <;> norm_num
  have hpow : (10 : ℚ) ^ (ea + eb) = 10 ^ ea * 10 ^ eb := zpow_add₀ (by norm_num) ea eb
  simp only [LogicalValue.value]
  rw [hsign, hpow]
  push_cast; ring

/-- Settles O14: the product of the coefficients is exact, and `finalize` rounds it once. -/
theorem mulFiniteCorrectlyRounded : Obligations.MulFiniteCorrectlyRounded := by
  intro b a s sa sb ca cb ea eb ha hb
  obtain ⟨t, hexec, hans⟩ := exec_mul_answeredValue b a s
  obtain ⟨hround, hsign⟩ := finalize_value_roundsTo (sa ^^ sb) (ca * cb) (ea + eb)
  rw [← value_mul_value] at hround
  rw [ha, hb] at hans ⊢
  exact ⟨t, _, hexec, hans, hsign, hround⟩

/-- A NaN operand on either side gives the NaN of R78 (R96). -/
theorem mulValue_nan_left (n : Bool) (y : LogicalValue) : mulValue (.nan n) y = .nan false := rfl
theorem mulValue_nan_right (x : LogicalValue) (n : Bool) : mulValue x (.nan n) = .nan false := by
  rw [mulValue_comm, mulValue_nan_left]

/-- Two Infinities multiply to the Infinity of the exclusive or (R96). -/
theorem mulValue_inf_inf (sx sy : Bool) : mulValue (.inf sx) (.inf sy) = .inf (sx ^^ sy) := rfl

/-- An Infinity times a Finite value, where a zero is an invalid operation (R96). -/
theorem mulValue_inf_finite (sx sy : Bool) (cy : Nat) (ey : Int) :
    mulValue (.inf sx) (.finite sy cy ey) = if cy = 0 then .nan false else .inf (sx ^^ sy) := by
  simp only [mulValue, mulInf, nanResult, decide_eq_true_eq]

theorem mulValue_finite_inf (sx : Bool) (cx : Nat) (ex : Int) (sy : Bool) :
    mulValue (.finite sx cx ex) (.inf sy) = if cx = 0 then .nan false else .inf (sx ^^ sy) := by
  rw [mulValue_comm, mulValue_inf_finite, Bool.xor_comm]

/-- Settles O15: row by row of the table of R96. -/
theorem mulSpecialOperands : Obligations.MulSpecialOperands := by
  intro b a s
  have hmul := exec_mul_answeredValue b a s
  refine ⟨fun n h => ?_, fun sx sy ha hb => ?_, fun sx sy cy ey ha hb => ?_, fun sx cx ex sy ha hb => ?_⟩
  · rcases h with h | h <;> rw [h] at hmul
    · rwa [mulValue_nan_left] at hmul
    · rwa [mulValue_nan_right] at hmul
  all_goals rw [ha, hb] at hmul
  · rwa [mulValue_inf_inf] at hmul
  · rwa [mulValue_inf_finite] at hmul
  · rwa [mulValue_finite_inf] at hmul

end Sys2Proof.Machine

/-! DIV on logical values: the rows of its table of special operands (R101), and the exact quotient of Finite operands,
rounded once with the ideal exponent of the quotient (R100, R102, R103). -/

namespace Sys2Proof.Machine

/-- DIV answers with `div_lv` of its decoded operands (R100). -/
theorem exec_div_answeredValue (b a : Word) (s : State) :
    ∃ t, exec (.div b a) s = .next t ∧ AnsweredValue s t (divValue (codecDecode a) (codecDecode b)) :=
  ⟨_, exec_div b a s, complete_encodeResult_answeredValue s _ (divValue_wellFormed _ _)⟩

/-- A NaN operand on either side gives the NaN of R78 (R101). -/
theorem divValue_nan_left (n : Bool) (y : LogicalValue) : divValue (.nan n) y = .nan false := rfl
theorem divValue_nan_right (x : LogicalValue) (n : Bool) : divValue x (.nan n) = .nan false := by cases x <;> rfl

/-- A zero divisor gives NaN for every dividend: there is no division-by-zero Infinity (R101). -/
theorem divValue_zero_divisor (x : LogicalValue) (sb : Bool) (eb : Int) :
    divValue x (.finite sb 0 eb) = .nan false := by
  cases x with
  | nan n => exact divValue_nan_left n _
  | inf sx => rfl
  | finite sa ca ea => rfl

/-- The Infinity rows of R101. -/
theorem divValue_inf_inf (sx sy : Bool) : divValue (.inf sx) (.inf sy) = .nan false := rfl
theorem divValue_inf_finite (sx sy : Bool) {cb : Nat} (eb : Int) (hcb : cb ≠ 0) :
    divValue (.inf sx) (.finite sy cb eb) = .inf (sx ^^ sy) := if_neg hcb
theorem divValue_finite_inf (sx : Bool) (cx : Nat) (ex : Int) (sy : Bool) :
    divValue (.finite sx cx ex) (.inf sy) = .finite (sx ^^ sy) 0 0 := rfl

/-- Settles O17: row by row of the table of R101. -/
theorem divSpecialOperands : Obligations.DivSpecialOperands := by
  intro b a s
  have hdiv := exec_div_answeredValue b a s
  refine ⟨fun n h => ?_, fun sb eb hb => ?_, fun sx sy ha hb => ?_, fun sx sy cb eb ha hb hcb => ?_,
    fun sx cx ex sy ha hb => ?_⟩
  · rcases h with h | h <;> rw [h] at hdiv
    · rwa [divValue_nan_left] at hdiv
    · rwa [divValue_nan_right] at hdiv
  · rwa [hb, divValue_zero_divisor] at hdiv
  all_goals rw [ha, hb] at hdiv
  · rwa [divValue_inf_inf] at hdiv
  · rwa [divValue_inf_finite sx sy eb hcb] at hdiv
  · rwa [divValue_finite_inf] at hdiv

/-- A magnitude of `x` units of `10^i` with `x` no multiple of ten has no coefficient at a greater exponent. -/
theorem exponent_le_of_not_multiple_of_ten {x : ℝ} {i e : Int} {c : Nat} (hx : ∀ n : Nat, x ≠ 10 * n)
    (h : magnitude c e = x * 10 ^ i) : e ≤ i := by
  by_contra hlt
  refine hx (c * 10 ^ (e - i - 1).toNat) (mul_right_cancel₀ (zpow_ne_zero i (by norm_num : (10 : ℝ) ≠ 0)) ?_)
  have hpow : (10 : ℝ) ^ e = 10 * 10 ^ (e - i - 1).toNat * 10 ^ i := by
    rw [← zpow_natCast, ← zpow_one_add₀ (by norm_num), ← zpow_add₀ (by norm_num)]
    congr 1; omega
  rw [← h, magnitude, hpow]
  push_cast; ring

/-- A correct rounding with the ideal exponent `i` is also the one for a greater ideal exponent, where no member of the
format has the exact magnitude at an exponent above `i`: then the greatest possible exponent is the closest to both
(R103). -/
theorem FinalizesTo.raise_ideal {s : Bool} {m : ℝ} {i ideal : Int} {z : LogicalValue} (h : FinalizesTo s m i z)
    (hle : i ≤ ideal) (htop : ∀ (c : Nat) (e : Int), magnitude c e = m → e ≤ i) : FinalizesTo s m ideal z := by
  rcases h with ⟨c, e, rfl, hpair, hover, hnear, htie, hclosest, hfull⟩ | hinf
  · refine .inl ⟨c, e, rfl, hpair, hover, hnear, htie, fun hexact c' e' hp hmag => ?_, hfull⟩
    have hclose := hclosest hexact c' e' hp hmag
    have he := htop c e hexact
    have he' := htop c' e' hmag
    rw [abs_of_nonpos (by omega), abs_of_nonpos (by omega)] at hclose ⊢
    omega
  · exact .inr hinf

/-- The exact quotient in units of the scaled dividend: the integer quotient, and the remainder over the divisor
(R102). -/
theorem quotient_in_units (ca k : Nat) {cb : Nat} (hb : cb ≠ 0) (ei : Int) :
    (ca : ℝ) / cb * 10 ^ ei =
      ((ca * 10 ^ k / cb : Nat) + ((ca * 10 ^ k % cb : Nat) : ℝ) / cb) * 10 ^ (ei - k : Int) := by
  have hb' : (cb : ℝ) ≠ 0 := by exact_mod_cast hb
  have hpow : (10 : ℝ) ^ ei = 10 ^ k * 10 ^ (ei - k : Int) := by
    rw [← zpow_natCast, ← zpow_add₀ (by norm_num)]; congr 1; omega
  have hN : (ca : ℝ) * 10 ^ k = cb * (ca * 10 ^ k / cb : Nat) + (ca * 10 ^ k % cb : Nat) := by
    exact_mod_cast (Nat.div_add_mod (ca * 10 ^ k) cb).symm
  calc (ca : ℝ) / cb * 10 ^ ei = ca * 10 ^ k / cb * 10 ^ (ei - k : Int) := by rw [hpow]; ring
    _ = _ := by rw [hN]; field_simp

/-- Without a sticky bit `finalize` answers the magnitude of the pair it is given (R76). -/
theorem finalize_magnitude_finalizesTo (s : Bool) (C : Nat) (e : Int) :
    FinalizesTo s (magnitude C e) e (finalize s C false e) := by
  have hround := finalize_finalizesTo s (sticky := false) ⟨nofun, fun _ => rfl⟩ C nofun e
  rwa [add_zero] at hround

/-- An exact quotient gives back zeros up to the ideal exponent, or to a last digit that is not 0 (R100, R103). -/
theorem giveBack_finalizesTo (s : Bool) (k Q : Nat) (ei : Int) :
    FinalizesTo s (magnitude Q (ei - k)) ei
      (finalize s (giveBack k Q (ei - k)).1 false (giveBack k Q (ei - k)).2) := by
  obtain ⟨j, hj, hQ, he, hstop⟩ := giveBack_spec k Q (ei - k)
  generalize giveBack k Q (ei - k) = p at hQ he hstop
  have hmag : magnitude Q (ei - k) = magnitude p.1 p.2 := by
    have hshift := magnitude_shift p.1 p.2 j
    rwa [← hQ, he, add_sub_cancel_right, ← he] at hshift
  have hround := finalize_magnitude_finalizesTo s p.1 p.2
  rw [hmag]
  rcases hstop with rfl | hlast
  · rwa [show p.2 = ei by omega] at hround ⊢
  · refine hround.raise_ideal (by omega) fun c e => exponent_le_of_not_multiple_of_ten fun n hn => ?_
    have : p.1 = 10 * n := by exact_mod_cast hn
    omega

/-- An inexact quotient is rounded with the remainder as a sticky fraction, and has no exact member (R100, R102). -/
theorem sticky_quotient_finalizesTo (s : Bool) {Q : Nat} {f : ℝ} (hQ : 10 ^ 16 ≤ Q) (h0 : 0 < f) (h1 : f < 1)
    {e ei : Int} (hle : e ≤ ei) : FinalizesTo s ((Q + f) * 10 ^ e) ei (finalize s Q true e) := by
  have hround := finalize_finalizesTo s (sticky := true) ⟨fun _ => ⟨h0, h1⟩, nofun⟩ Q (fun _ => hQ) e
  refine hround.raise_ideal hle fun c e' => exponent_le_of_not_multiple_of_ten fun n hn => ?_
  have hlo : Q < 10 * n := by exact_mod_cast (show (Q : ℝ) < 10 * n by linarith)
  have hhi : 10 * n < Q + 1 := by exact_mod_cast (show (10 * n : ℝ) < Q + 1 by linarith)
  omega

/-- The quotient of non-zero coefficients of the format is correctly rounded with its ideal exponent (R100, R103). -/
theorem divQuotient_finalizesTo (s : Bool) {ca cb : Nat} (ha : ca ≠ 0) (hb : cb ≠ 0) (ha' : ca < 10 ^ 16)
    (hb' : cb < 10 ^ 16) (ei : Int) : FinalizesTo s ((ca : ℝ) / cb * 10 ^ ei) ei (divQuotient s ca cb ei) := by
  have hpos : (0 : ℝ) < cb := by exact_mod_cast Nat.pos_of_ne_zero hb
  rw [divQuotient, quotient_in_units ca (divScale ca cb) hb]
  dsimp only
  split
  · next hexact =>
    rw [hexact, Nat.cast_zero, zero_div, add_zero]
    exact giveBack_finalizesTo s _ _ ei
  · next hrem =>
    have hr0 : (0 : ℝ) < (ca * 10 ^ divScale ca cb % cb : Nat) := by exact_mod_cast Nat.pos_of_ne_zero hrem
    have hr1 : ((ca * 10 ^ divScale ca cb % cb : Nat) : ℝ) < cb := by
      exact_mod_cast Nat.mod_lt _ (Nat.pos_of_ne_zero hb)
    exact sticky_quotient_finalizesTo s (divScale_quotient ha hb ha' hb').1 (div_pos hr0 hpos)
      ((div_lt_one hpos).2 hr1) (by omega)

/-- `div_lv` of Finite operands with a non-zero divisor, a zero dividend included (R100). -/
theorem divFinite_finalizesTo (sa : Bool) {ca : Nat} (ea : Int) (sb : Bool) {cb : Nat} (eb : Int) (hb : cb ≠ 0)
    (ha' : ca < 10 ^ 16) (hb' : cb < 10 ^ 16) :
    FinalizesTo (sa ^^ sb) ((ca : ℝ) / cb * 10 ^ (ea - eb)) (ea - eb) (divFinite sa ca ea sb cb eb) := by
  rw [divFinite, if_neg hb]
  split
  · next ha =>
    have hzero : (ca : ℝ) / cb * 10 ^ (ea - eb) = magnitude 0 (ea - eb) := by
      rw [ha, Nat.cast_zero, zero_div, zero_mul, magnitude_zero]
    rw [hzero]
    exact finalize_magnitude_finalizesTo _ 0 _
  · next ha => exact divQuotient_finalizesTo _ ha hb ha' hb' _

/-- The exact quotient of two Finite values: the coefficients divide, the exponents subtract, and the sign is the
exclusive or (R8, R100). -/
theorem value_div_value (sa : Bool) (ca : Nat) (ea : Int) (sb : Bool) (cb : Nat) (eb : Int) :
    (((LogicalValue.finite sa ca ea).value / (LogicalValue.finite sb cb eb).value : ℚ) : ℝ) =
      (if (sa ^^ sb) then -1 else 1) * ((ca : ℝ) / cb * 10 ^ (ea - eb)) := by
  have hsign : (if (sa ^^ sb) = true then (-1 : ℝ) else 1) =
      ((if sa then -1 else 1 : ℚ) : ℝ) / ((if sb then -1 else 1 : ℚ) : ℝ) := by
    cases sa <;> cases sb <;> norm_num
  rw [hsign, zpow_sub₀ (by norm_num), LogicalValue.value, LogicalValue.value, Rat.cast_div]
  simp only [Rat.cast_mul, Rat.cast_natCast, Rat.cast_zpow, Rat.cast_ofNat]
  rw [mul_div_mul_comm, mul_div_mul_comm, mul_assoc]

/-- Settles O16: one rounding of the exact quotient, whose value and sign are those of R100. -/
theorem divFiniteCorrectlyRounded : Obligations.DivFiniteCorrectlyRounded := by
  intro b a s sa sb ca cb ea eb ha hb hcb
  obtain ⟨t, hexec, hans⟩ := exec_div_answeredValue b a s
  obtain ⟨hca, -, -⟩ := finite_bounds (ha ▸ codecDecode_wellFormed a)
  obtain ⟨hcb', -, -⟩ := finite_bounds (hb ▸ codecDecode_wellFormed b)
  obtain ⟨hround, hsign⟩ := (divFinite_finalizesTo sa ea sb eb hcb hca hcb').roundsTo (by positivity)
  rw [ha, hb] at hans ⊢
  rw [value_div_value]
  exact ⟨t, _, hexec, hans, hsign, hround⟩

/-- Scaling by `10^k` is given back whole (R100). -/
theorem giveBack_scaled (Q : Nat) : ∀ (k : Nat) (e : Int), giveBack k (Q * 10 ^ k) e = (Q, e + k) := by
  intro k
  induction k with
  | zero => intro e; simp [giveBack]
  | succ k ih =>
    intro e
    have hten : Q * 10 ^ (k + 1) = Q * 10 ^ k * 10 := by rw [pow_succ, mul_assoc]
    rw [giveBack, hten, if_pos (Nat.mul_mod_left _ _), Nat.mul_div_cancel _ (by norm_num), ih]
    push_cast; ring_nf

/-- The quotient of a multiple of the divisor is the factor at the ideal exponent (R103). -/
theorem divQuotient_multiple (s : Bool) (c : Nat) {d : Nat} (hd : d ≠ 0) (ei : Int) :
    divQuotient s (c * d) d ei = finalize s c false ei := by
  have hscaled (k : Nat) : c * d * 10 ^ k = c * 10 ^ k * d := mul_right_comm c d _
  rw [divQuotient]
  dsimp only
  rw [hscaled, if_pos (Nat.mul_mod_left _ _), Nat.mul_div_cancel _ (Nat.pos_of_ne_zero hd), giveBack_scaled,
    sub_add_cancel]

/-- The sign of a quotient of integers is that of the factor (R100). -/
theorem quotient_sign {i j : Int} (hi : i ≠ 0) (hj : j ≠ 0) :
    (decide (i * j < 0) ^^ decide (j < 0)) = decide (i < 0) := by
  rcases lt_or_gt_of_ne hj with hneg | hpos
  · have hsign : i * j < 0 ↔ ¬ i < 0 := by rw [mul_neg_iff]; omega
    rw [decide_eq_decide.2 hsign, decide_not, decide_eq_true hneg, Bool.xor_true, Bool.not_not]
  · have hsign : i * j < 0 ↔ i < 0 := by rw [mul_neg_iff]; omega
    rw [decide_eq_decide.2 hsign, decide_eq_false hpos.not_gt, Bool.xor_false]

/-- `div_lv` of a multiple of an integer by that integer: the factor, or a zero with the sign of the divisor (R103). -/
theorem divValue_integerValue {i j : Int} (hj : j ≠ 0) (hi : i.natAbs < 10 ^ 16) :
    divValue (integerValue (i * j)) (integerValue j) =
      if i = 0 then .finite (decide (j < 0)) 0 0 else integerValue i := by
  have hj' : j.natAbs ≠ 0 := Int.natAbs_ne_zero.2 hj
  rw [integerValue, integerValue, divValue, divFinite, if_neg hj', sub_self]
  rcases eq_or_ne i 0 with rfl | hi0
  · rw [zero_mul, if_pos Int.natAbs_zero, if_pos rfl, finalize_exact _ _ (by norm_num) (by decide) (by decide),
      decide_eq_false (lt_irrefl 0), Bool.false_xor]
  · rw [if_neg (Int.natAbs_ne_zero.2 (mul_ne_zero hi0 hj)), if_neg hi0, quotient_sign hi0 hj, Int.natAbs_mul,
      divQuotient_multiple _ _ hj', finalize_exact _ _ hi (by decide) (by decide), integerValue]

/-- Settles O53: the factor is no greater than the product, so it has at most 16 digits and nothing is rounded. -/
theorem integerDivisionIsExact : Obligations.IntegerDivisionIsExact := by
  intro i j b a s hj ha hb
  have hdiv := exec_div_answeredValue b a s
  obtain ⟨hprod, -, -⟩ := finite_bounds (integerValue.eq_def (i * j) ▸ ha ▸ codecDecode_wellFormed a)
  have hi : i.natAbs ≤ (i * j).natAbs := by
    rw [Int.natAbs_mul]
    exact Nat.le_mul_of_pos_right _ (Int.natAbs_pos.2 hj)
  rwa [ha, hb, divValue_integerValue hj (hi.trans_lt hprod)] at hdiv

end Sys2Proof.Machine

/-! SQRT on logical values: the rows of its table of special operands (R111), the root of a positive Finite operand,
rounded once with the exponent `floor2(e)` of an exact root (R110, R112, R113), and roots of squares through I2D. -/

namespace Sys2Proof.Machine

/-- SQRT answers with `sqrt_lv` of its decoded operand (R110). -/
theorem exec_sqrt_answeredValue (b a : Word) (s : State) :
    ∃ t, exec (.sqrt b a) s = .next t ∧ AnsweredValue s t (sqrtValue (codecDecode a)) :=
  ⟨_, exec_sqrt b a s, complete_encodeResult_answeredValue s _ (sqrtValue_wellFormed (codecDecode_wellFormed a))⟩

/-- The rows of R111. -/
theorem sqrtValue_nan (n : Bool) : sqrtValue (.nan n) = .nan false := rfl
theorem sqrtValue_inf_pos : sqrtValue (.inf false) = .inf false := rfl
theorem sqrtValue_inf_neg : sqrtValue (.inf true) = .nan false := rfl
theorem sqrtValue_zero (sg : Bool) (e : Int) : sqrtValue (.finite sg 0 e) = .finite sg 0 (floor2 e) := by
  rw [sqrtValue, if_pos rfl]
theorem sqrtValue_negative {c : Nat} (e : Int) (hc : c ≠ 0) : sqrtValue (.finite true c e) = .nan false := if_neg hc
theorem sqrtValue_positive {c : Nat} (e : Int) (hc : c ≠ 0) : sqrtValue (.finite false c e) = sqrtPositive c e :=
  if_neg hc

/-- Settles O19: row by row of the table of R111. -/
theorem sqrtSpecialOperands : Obligations.SqrtSpecialOperands := by
  intro b a s
  have hsqrt := exec_sqrt_answeredValue b a s
  refine ⟨fun n h => ?_, fun h => ?_, fun h => ?_, fun sg e h => ?_, fun c e h hc => ?_⟩ <;> rw [h] at hsqrt
  · rwa [sqrtValue_nan] at hsqrt
  · rwa [sqrtValue_inf_pos] at hsqrt
  · rwa [sqrtValue_inf_neg] at hsqrt
  · rwa [sqrtValue_zero] at hsqrt
  · rwa [sqrtValue_negative e hc] at hsqrt

/-- "make the exponent even" (R110, step 4): an even exponent is kept, an odd one moves a factor of ten
into the coefficient. -/
theorem sqrtPositive_even (c : Nat) (k : Int) : sqrtPositive c (2 * k) = sqrtEven c (2 * k) := if_neg (by omega)
theorem sqrtPositive_odd (c : Nat) (k : Int) : sqrtPositive c (2 * k + 1) = sqrtEven (c * 10) (2 * k) := by
  rw [sqrtPositive, if_pos (by omega), add_sub_cancel_right]

theorem floor2_two_mul (k : Int) : floor2 (2 * k) = k := by rw [floor2]; omega
theorem floor2_two_mul_add_one (k : Int) : floor2 (2 * k + 1) = k := by rw [floor2]; omega

/-- The root of a square at an even exponent is exact, at half the exponent (R110, R113). -/
theorem sqrtEven_square {r : Nat} {k : Int} (hr : r < 10 ^ 16) (h1 : eMin ≤ k) (h2 : k ≤ eMax) :
    sqrtEven (r * r) (2 * k) = .finite false r k := by
  rw [sqrtEven, isqrt_square, floor2_two_mul]
  dsimp only
  rw [if_pos rfl, finalize_exact _ _ hr h1 h2]

/-- `isqrt` of R6 is the library's integer root. -/
theorem isqrt_eq_sqrt (n : Nat) : isqrt n = n.sqrt := isqrt_unique n.sqrt_le n.lt_succ_sqrt

/-- The test `r · r = c'` of R110 decides whether the radicand is a square. -/
theorem isqrt_mul_self_eq_iff (c : Nat) : isqrt c * isqrt c = c ↔ IsSquare c :=
  ⟨fun h => ⟨_, h.symm⟩, fun ⟨r, hr⟩ => by rw [hr, isqrt_square]⟩

/-- The root of a radicand that is no square: scaled by `2·h` digits, and with a sticky bit (R110, R112). -/
theorem sqrtEven_of_not_square {c h : Nat} (hsq : ¬ IsSquare c) (hscale : sqrtScale (digits c) = 2 * h) (k : Int) :
    sqrtEven c (2 * k) = finalize false (isqrt (c * 10 ^ (2 * h))) true (k - h) := by
  have hexp : floor2 (2 * k - (2 * h : Nat)) = k - h := by rw [floor2]; push_cast; omega
  rw [sqrtEven]
  dsimp only
  rw [if_neg fun hr => hsq ((isqrt_mul_self_eq_iff c).1 hr), hscale, hexp]

/-- The scaling is even, and `10^32 ≤ N` (R112). -/
theorem sqrtScale_radicand {c : Nat} (hc0 : c ≠ 0) (hc : c < 10 ^ 17) :
    ∃ h, sqrtScale (digits c) = 2 * h ∧ 10 ^ 32 ≤ c * 10 ^ (2 * h) := by
  obtain ⟨hd, hlow, -⟩ := digits_spec hc0
  obtain ⟨heven, -, hsum⟩ := sqrtScale_spec ((digits_le_iff.2 hc).trans (by norm_num))
  refine ⟨sqrtScale (digits c) / 2, by omega, ?_⟩
  rw [Nat.two_mul_div_two_of_even (Nat.even_iff.2 heven)]
  calc 10 ^ 32 ≤ 10 ^ (digits c - 1 + sqrtScale (digits c)) := Nat.pow_le_pow_right (by norm_num) (by omega)
    _ = 10 ^ (digits c - 1) * 10 ^ sqrtScale (digits c) := pow_add ..
    _ ≤ c * 10 ^ sqrtScale (digits c) := Nat.mul_le_mul_right _ hlow

/-- The root of a scaled radicand has at least 17 digits (R112). -/
theorem isqrt_ge_of_radicand {N : Nat} (hN : 10 ^ 32 ≤ N) : 10 ^ 16 ≤ isqrt N := by
  rw [isqrt_eq_sqrt, Nat.le_sqrt]
  exact hN

/-- The exact root of a magnitude with an even exponent. -/
theorem sqrt_magnitude_even (c : Nat) (k : Int) : √(magnitude c (2 * k)) = √(c : ℝ) * 10 ^ k := by
  rw [magnitude, two_mul, zpow_add₀ (by norm_num), Real.sqrt_mul (Nat.cast_nonneg c),
    Real.sqrt_mul_self (by positivity)]

/-- The exact root of a radicand that is no square is irrational, whatever the exponent (R112). -/
theorem irrational_sqrt_magnitude {c : Nat} (hsq : ¬ IsSquare c) (k : Int) : Irrational √(magnitude c (2 * k)) := by
  have hscaled := (irrational_sqrt_natCast_iff.2 hsq).mul_ratCast (q := 10 ^ k) (by positivity)
  rw [sqrt_magnitude_even]
  push_cast at hscaled
  exact hscaled

/-- A magnitude of the format is rational, so it is no irrational root (R112). -/
theorem magnitude_ne_of_irrational {m : ℝ} (hm : Irrational m) (c : Nat) (e : Int) : magnitude c e ≠ m := by
  have hne := hm.ne_rat (c * 10 ^ e)
  push_cast at hne
  exact hne.symm

/-- The exact root in units of the scaled radicand's root: the integer root and a fraction inside `(0, 1)` (R112). -/
theorem sqrt_in_units {c : Nat} (hsq : ¬ IsSquare c) (h : Nat) (k : Int) :
    ∃ f : ℝ, 0 < f ∧ f < 1 ∧ √(magnitude c (2 * k)) = (isqrt (c * 10 ^ (2 * h)) + f) * 10 ^ (k - h : Int) := by
  have hN : ((c * 10 ^ (2 * h) : Nat) : ℝ) = magnitude c (2 * h) := by
    rw [magnitude]; push_cast; congr 1
  have hle := Real.nat_sqrt_le_real_sqrt (a := c * 10 ^ (2 * h))
  have hlt := Real.real_sqrt_lt_nat_sqrt_succ (a := c * 10 ^ (2 * h))
  have hne := (irrational_sqrt_magnitude hsq h).ne_nat (c * 10 ^ (2 * h)).sqrt
  rw [hN] at hle hlt
  refine ⟨√(magnitude c (2 * h)) - isqrt (c * 10 ^ (2 * h)), ?_, ?_, ?_⟩
  · rw [isqrt_eq_sqrt]; exact sub_pos.2 (lt_of_le_of_ne hle hne.symm)
  · rw [isqrt_eq_sqrt]; linarith
  · rw [add_sub_cancel, sqrt_magnitude_even, sqrt_magnitude_even, mul_assoc, ← zpow_add₀ (by norm_num),
      add_sub_cancel]

/-- What R113 guarantees of a root `m`: a Finite value nearest to it, with the exponent `ideal` where it is exact. -/
def RootsTo (m : ℝ) (ideal : Int) (z : LogicalValue) : Prop :=
  ∃ c e, z = .finite false c e ∧ NearestPair m ideal c e ∧ (magnitude c e = m → e = ideal)

/-- A rounding of a magnitude below the overflow bound is Finite (R76). -/
theorem FinalizesTo.rootsTo {m : ℝ} {ideal : Int} {z : LogicalValue} (h : FinalizesTo false m ideal z)
    (hm : m < overflowBound) (hexact : ∀ c e, z = .finite false c e → magnitude c e = m → e = ideal) :
    RootsTo m ideal z := by
  rcases h with ⟨c, e, hz, hpair⟩ | ⟨-, hover⟩
  · exact ⟨c, e, hz, hpair, hexact c e hz⟩
  · exact absurd hover hm.not_ge

/-- "SQRT never overflows" (R110): the root of a magnitude has at most 9 digits at half its exponent. -/
theorem sqrt_magnitude_lt_overflowBound {c : Nat} (hc : c < 10 ^ 17) {k : Int} (hk : k ≤ eMax) :
    √(magnitude c (2 * k)) < overflowBound := by
  have hroot : √(c : ℝ) < 10 ^ 9 := by
    rw [Real.sqrt_lt' (by positivity)]
    exact_mod_cast hc.trans (by norm_num)
  have hpow : (10 : ℝ) ^ k ≤ 10 ^ (369 : ℕ) := by
    rw [← zpow_natCast]
    exact zpow_le_zpow_right₀ (by norm_num) hk
  rw [sqrt_magnitude_even, overflowBound]
  exact mul_lt_mul (hroot.trans (by norm_num)) hpow (by positivity) (by norm_num)

/-- The root of a square is its own exact rounding (R110, R113). -/
theorem sqrtEven_rootsTo_of_square {r : Nat} (hr : r * r < 10 ^ 17) {k : Int} (h1 : eMin ≤ k) (h2 : k ≤ eMax) :
    RootsTo √(magnitude (r * r) (2 * k)) k (sqrtEven (r * r) (2 * k)) := by
  have hr16 : r < 10 ^ 16 := by nlinarith
  have hroot : √(magnitude (r * r) (2 * k)) = magnitude r k := by
    rw [sqrt_magnitude_even, Nat.cast_mul, Real.sqrt_mul_self (Nat.cast_nonneg r), magnitude]
  have hround := finalize_magnitude_finalizesTo false r k
  rw [finalize_exact _ _ hr16 h1 h2, ← sqrtEven_square hr16 h1 h2, ← hroot] at hround
  refine hround.rootsTo (sqrt_magnitude_lt_overflowBound hr h2) fun c e hz _ => ?_
  rw [sqrtEven_square hr16 h1 h2] at hz
  exact (LogicalValue.finite.inj hz).2.2.symm

/-- Any other root is rounded with a sticky bit, and being irrational it is never exact (R110, R112). -/
theorem sqrtEven_rootsTo_of_not_square {c : Nat} (hsq : ¬ IsSquare c) (hc : c < 10 ^ 17) {k : Int} (hk : k ≤ eMax) :
    RootsTo √(magnitude c (2 * k)) k (sqrtEven c (2 * k)) := by
  have hc0 : c ≠ 0 := fun h0 => hsq (h0 ▸ IsSquare.zero)
  obtain ⟨h, hscale, hN⟩ := sqrtScale_radicand hc0 hc
  obtain ⟨f, h0, h1, hunits⟩ := sqrt_in_units hsq h k
  have hround := sticky_quotient_finalizesTo false (isqrt_ge_of_radicand hN) h0 h1 (show k - h ≤ k by omega)
  rw [← hunits, ← sqrtEven_of_not_square hsq hscale] at hround
  exact hround.rootsTo (sqrt_magnitude_lt_overflowBound hc hk) fun c' e' _ hmag =>
    absurd hmag (magnitude_ne_of_irrational (irrational_sqrt_magnitude hsq k) c' e')

/-- The root of a positive radicand at an even exponent (R113). -/
theorem sqrtEven_rootsTo {c : Nat} (hc : c < 10 ^ 17) {k : Int} (h1 : eMin ≤ k) (h2 : k ≤ eMax) :
    RootsTo √(magnitude c (2 * k)) k (sqrtEven c (2 * k)) := by
  by_cases hsq : IsSquare c
  · obtain ⟨r, rfl⟩ := hsq
    exact sqrtEven_rootsTo_of_square hc h1 h2
  · exact sqrtEven_rootsTo_of_not_square hsq hc h2

/-- The root of a positive Finite value, its exponent even or odd (R110, R113). -/
theorem sqrtPositive_rootsTo {c : Nat} {e : Int} (hc : c < 10 ^ 16) (h1 : eMin ≤ e) (h2 : e ≤ eMax) :
    RootsTo √(magnitude c e) (floor2 e) (sqrtPositive c e) := by
  simp only [eMin, eMax] at h1 h2
  rcases Int.even_or_odd' e with ⟨k, rfl | rfl⟩
  · rw [sqrtPositive_even, floor2_two_mul]
    exact sqrtEven_rootsTo (by omega) (by rw [eMin]; omega) (by rw [eMax]; omega)
  · have hshift := magnitude_shift c (2 * k + 1) 1
    rw [pow_one, Nat.cast_one, add_sub_cancel_right] at hshift
    rw [sqrtPositive_odd, floor2_two_mul_add_one, ← hshift]
    exact sqrtEven_rootsTo (by omega) (by rw [eMin]; omega) (by rw [eMax]; omega)

/-- The value of a positive Finite operand is its magnitude (R8). -/
theorem value_finite_false (c : Nat) (e : Int) : ((LogicalValue.finite false c e).value : ℝ) = magnitude c e := by
  simp [LogicalValue.value, magnitude]

/-- Settles O18: the radicand is a square, whose root is exact, or its root is irrational and rounded once. -/
theorem sqrtPositiveCorrectlyRounded : Obligations.SqrtPositiveCorrectlyRounded := by
  intro b a s c e ha hc
  obtain ⟨t, hexec, hans⟩ := exec_sqrt_answeredValue b a s
  obtain ⟨hlt, hmin, hmax⟩ := finite_bounds (ha ▸ codecDecode_wellFormed a)
  obtain ⟨c', e', hz, hpair, hexact⟩ := sqrtPositive_rootsTo hlt hmin hmax
  rw [ha, sqrtValue_positive e hc, hz] at hans
  rw [ha, value_finite_false]
  have hpos := Real.sqrt_nonneg (magnitude c e)
  have hsign : SignAgrees √(magnitude c e) false := ⟨fun hneg => absurd hneg hpos.not_gt, fun _ => rfl⟩
  exact ⟨t, c', e', hexec, hans, ⟨hsign, by rwa [abs_of_nonneg hpos]⟩, hexact⟩

/-- I2D answers with the rounded value of its operand (R120). -/
theorem exec_i2d_answeredValue (b a : Word) (s : State) :
    ∃ t, exec (.i2d b a) s = .next t ∧ AnsweredValue s t (intValue (int64Operand a)) :=
  ⟨_, exec_i2d b a s, complete_encodeResult_answeredValue s _ (intValue_wellFormed _)⟩

/-- A natural number below `2^63` is read back from its word (R40). -/
theorem int64Operand_ofNat {n : Nat} (h : n < 2 ^ 63) : int64Operand (BitVec.ofNat 64 n) = n := by
  have hn : (BitVec.ofNat 64 n).toNat = n := Nat.mod_eq_of_lt (h.trans (by norm_num))
  rw [int64Operand, BitVec.toInt_eq_toNat_of_lt (by rw [hn]; omega), hn]

/-- A natural number of at most 16 digits is kept by I2D (R120). -/
theorem intValue_natCast_of_lt {n : Nat} (h : n < 10 ^ 16) : intValue n = .finite false n 0 := by
  rw [intValue, decide_eq_false (by omega), Int.natAbs_natCast, finalize_exact _ _ h (by decide) (by decide)]

/-- "`I2D(10^16)` ... is `1000000000000000E1`" (R110). -/
theorem intValue_ten_pow_sixteen : intValue ((10 ^ 8 * 10 ^ 8 : Nat) : Int) = .finite false (10 ^ 15) 1 := by decide

/-- `sqrt_lv` of the rounded square of `i ≤ 10^8` is `i`: only the square of `10^8` loses a digit, a zero, which the odd
exponent gives back (R110, R113). -/
theorem sqrtValue_intValue_square {i : Nat} (h1 : 1 ≤ i) (h2 : i ≤ 10 ^ 8) :
    sqrtValue (intValue ((i * i : Nat) : Int)) = intValue i := by
  have hroot : sqrtEven (i * i) (2 * 0) = intValue i := by
    rw [sqrtEven_square (by omega) (by decide) (by decide), intValue_natCast_of_lt (by omega)]
  rcases h2.lt_or_eq with hlt | rfl
  · rw [intValue_natCast_of_lt (by nlinarith), sqrtValue_positive _ (by positivity), ← hroot]
    exact sqrtPositive_even _ 0
  · rw [intValue_ten_pow_sixteen, sqrtValue_positive _ (by norm_num), ← hroot]
    exact sqrtPositive_odd _ 0

/-- A pattern that `encode` gives decodes to the value it was given (R54). -/
theorem codecDecode_of_codecEncode {x : LogicalValue} {p : Word} (h : codecEncode x = .ok p) : codecDecode p = x := by
  have hx : x.isWellFormed = true := by
    rcases codecEncode_cases x with ⟨hx, -⟩ | ⟨-, herr⟩
    · exact hx
    · rw [h] at herr; cases herr
  obtain ⟨p', henc, hdec, -⟩ := decodeInvertsEncode x hx
  rwa [Except.ok.inj (h.symm.trans henc)]

/-- Settles O54: the pattern of the square decodes to its rounded value, whose root is the value of `i`. -/
theorem sqrtOfSquareIsExact : Obligations.SqrtOfSquareIsExact := by
  intro i b b' b'' s s' s'' h1 h2
  obtain ⟨t, hexec, p, henc, hans⟩ := exec_i2d_answeredValue b (BitVec.ofNat 64 (i * i)) s
  obtain ⟨t', hexec', q, henc', hans'⟩ := exec_sqrt_answeredValue b' p s'
  obtain ⟨t'', hexec'', q', henc'', hans''⟩ := exec_i2d_answeredValue b'' (BitVec.ofNat 64 i) s''
  rw [int64Operand_ofNat (by nlinarith)] at henc
  rw [codecDecode_of_codecEncode henc, sqrtValue_intValue_square h1 h2] at henc'
  rw [int64Operand_ofNat (by omega)] at henc''
  obtain rfl : q' = q := Except.ok.inj (henc''.symm.trans henc')
  exact ⟨t, p, t', t'', q', hexec, hans, hexec', hans', hexec'', hans''⟩

end Sys2Proof.Machine

/-! I2D and D2I: the rounded integer (R120, R121), and the truncation toward zero of a Finite operand (R122, R123). -/

namespace Sys2Proof.Machine

/-- I2D rounds the integer as a sum whose zero is plus (R120, R121). -/
theorem intValue_eq_finalizeSum (i : Int) : intValue i = finalizeSum false i 0 := by
  rcases eq_or_ne i 0 with rfl | hi
  · rfl
  · rw [finalizeSum, if_neg hi, intValue]

theorem intValue_roundsTo (i : Int) : RoundsTo (i : ℝ) 0 (intValue i) := by
  have hround := finalizeSum_roundsTo false i 0
  rwa [zpow_zero, mul_one, ← intValue_eq_finalizeSum] at hround

/-- `finalize` keeps the sign it is given (R76, R120). -/
theorem intValue_signOf (i : Int) : (intValue i).signOf = decide (i < 0) :=
  (finalizeCorrectlyRounded (decide (i < 0)) i.natAbs false 0 0 nofun fun _ => rfl).2

/-- An integer of at most 16 digits is kept by I2D (R120). -/
theorem intValue_eq_integerValue {i : Int} (h : i.natAbs < 10 ^ 16) : intValue i = integerValue i := by
  rw [intValue_eq_finalizeSum, finalizeSum_integerValue (fun _ => rfl) h]

/-- Settles O20: `finalize` rounds the integer once, and keeps it below `10^16` in magnitude. -/
theorem i2dCorrectlyRounded : Obligations.I2dCorrectlyRounded := by
  intro b a s
  obtain ⟨t, hexec, hans⟩ := exec_i2d_answeredValue b a s
  refine ⟨⟨t, _, hexec, hans, intValue_signOf _, intValue_roundsTo _⟩, fun hsmall => ⟨t, hexec, ?_⟩⟩
  rwa [int64Operand, intValue_eq_integerValue hsmall] at hans

/-- D2I answers every operand with a normal response of 64 bits (R122, R123). -/
theorem exec_d2i_answered (b a : Word) (s : State) :
    ∃ t, exec (.d2i b a) s = .next t ∧
      Answered s t (narrowResult ((toInt64 (codecDecode a)).getD (Config.d2iInvalid a s.tick))) :=
  ⟨_, exec_d2i b a s, complete_ok_answered ..⟩

/-- Inside its domain D2I answers the int64 (R122). -/
theorem exec_d2i_of_toInt64 {a w : Word} (h : toInt64 (codecDecode a) = some w) (b : Word) (s : State) :
    ∃ t, exec (.d2i b a) s = .next t ∧ Answered s t (narrowResult w) := by
  have hans := exec_d2i_answered b a s
  rwa [h, Option.getD_some] at hans

/-- Settles O22: D2I has no fatal outcome, whatever its operand. -/
theorem d2iOutsideDomainIsNormal : Obligations.D2iOutsideDomainIsNormal := by
  intro b a s _
  obtain ⟨t, hexec, hans⟩ := exec_d2i_answered b a s
  exact ⟨t, _, hexec, hans⟩

@[simp] theorem signedCoeff_false (c : Nat) : signedCoeff false c = c := rfl
@[simp] theorem signedCoeff_true (c : Nat) : signedCoeff true c = -(c : Int) := rfl

/-- The truncated integer with its sign is converted whenever it is an int64 (R122). -/
theorem toInt64_finite {sg : Bool} {c : Nat} {e : Int} (hmin : -2 ^ 63 ≤ signedCoeff sg (truncateMagnitude c e))
    (hmax : signedCoeff sg (truncateMagnitude c e) ≤ 2 ^ 63 - 1) :
    toInt64 (.finite sg c e) = some (int64Result (signedCoeff sg (truncateMagnitude c e))) := by
  cases sg with
  | false =>
    rw [signedCoeff_false] at hmax ⊢
    exact if_pos ⟨rfl, by omega⟩
  | true =>
    rw [signedCoeff_true] at hmin ⊢
    rw [toInt64, if_neg (by simp), if_pos ⟨rfl, by omega⟩]

/-- Truncation toward zero is symmetric: it rounds a magnitude down (R122). -/
theorem truncateRat_neg {q : ℚ} (hq : 0 ≤ q) : truncateRat (-q) = -truncateRat q := by
  rw [truncateRat, truncateRat, if_pos hq]
  split
  · next hneg =>
    obtain rfl : q = 0 := le_antisymm (neg_nonneg.1 hneg) hq
    simp
  · exact Int.ceil_neg

/-- Dropping the digits below the units is rounding a magnitude down (R122). -/
theorem truncateRat_magnitude (c : Nat) (e : Int) : truncateRat (c * (10 : ℚ) ^ e) = truncateMagnitude c e := by
  rw [truncateRat, if_pos (by positivity), truncateMagnitude]
  split
  · next he =>
    obtain ⟨k, rfl⟩ := Int.eq_ofNat_of_zero_le he
    rw [zpow_natCast, Int.toNat_natCast]
    exact_mod_cast Int.floor_natCast (R := ℚ) (c * 10 ^ k)
  · next he =>
    obtain ⟨k, hk⟩ := Int.eq_ofNat_of_zero_le (show 0 ≤ -e by omega)
    rw [hk, ← neg_neg e, hk, zpow_neg, zpow_natCast, Int.toNat_natCast, ← div_eq_mul_inv]
    exact_mod_cast Rat.floor_natCast_div_natCast c (10 ^ k)

/-- The integer part of a Finite value is its truncated magnitude with its sign (R122). -/
theorem truncateRat_value (sg : Bool) (c : Nat) (e : Int) :
    truncateRat (LogicalValue.finite sg c e).value = signedCoeff sg (truncateMagnitude c e) := by
  rw [LogicalValue.value, mul_assoc]
  cases sg with
  | false => rw [if_neg (by simp), one_mul, truncateRat_magnitude, signedCoeff_false]
  | true => rw [if_pos rfl, neg_one_mul, truncateRat_neg (by positivity), truncateRat_magnitude, signedCoeff_true]

/-- Settles O21: the integer part is the truncated magnitude with its sign. -/
theorem d2iTruncatesTowardZero : Obligations.D2iTruncatesTowardZero := by
  intro b a s sg c e ha hmin hmax
  apply exec_d2i_of_toInt64
  rw [ha, truncateRat_value] at hmin hmax ⊢
  exact toInt64_finite hmin hmax

/-- An integer with exponent 0 has no digits below the units (R122). -/
theorem truncateMagnitude_zero_exponent (c : Nat) : truncateMagnitude c 0 = c := by simp [truncateMagnitude]

/-- D2I of an integer of the int64 range is that integer (R122). -/
theorem toInt64_integerValue {i : Int} (hmin : -2 ^ 63 ≤ i) (hmax : i ≤ 2 ^ 63 - 1) :
    toInt64 (integerValue i) = some (int64Result i) := by
  have hself : signedCoeff (decide (i < 0)) (truncateMagnitude i.natAbs 0) = i := by
    rw [truncateMagnitude_zero_exponent, signedCoeff_natAbs]
  rw [integerValue, toInt64_finite (hmin.trans_eq hself.symm) (hself.trans_le hmax), hself]

/-- Settles O51: the pattern of I2D decodes to the integer, which has no digits to truncate. -/
theorem d2iInvertsI2d : Obligations.D2iInvertsI2d := by
  intro i b b' s s' hi
  have hread : int64Operand (.ofInt 64 i) = i := BitVec.toInt_ofInt_eq_self (by decide) (by omega) (by omega)
  obtain ⟨t, hexec, p, henc, hans⟩ := exec_i2d_answeredValue b (.ofInt 64 i) s
  rw [hread, intValue_eq_integerValue hi] at henc
  have hint : toInt64 (codecDecode p) = some (int64Result i) := by
    rw [codecDecode_of_codecEncode henc, toInt64_integerValue (by omega) (by omega)]
  exact ⟨t, p, hexec, hans, exec_d2i_of_toInt64 hint b' s'⟩

end Sys2Proof.Machine

/-! `ENC(DEC(p))`: the bundle of DEC comes back through the two operand words of ENC (R147 item 4). -/

namespace Sys2Proof.Machine

section Kinds

variable {v : Wide}

/-- What a bundle of each kind stands for (R39, R53). -/
theorem unpackBundle_of_kind_reserved (h : v.extractLsb' 81 2 = 0b11#2) : unpackBundle v = none := by
  simp [unpackBundle, h]
theorem unpackBundle_of_kind_nan (h : v.extractLsb' 81 2 = 0b10#2) : unpackBundle v = some (.nan (v.getLsbD 80)) := by
  simp [unpackBundle, h]
theorem unpackBundle_of_kind_inf (h : v.extractLsb' 81 2 = 0b01#2) : unpackBundle v = some (.inf (v.getLsbD 80)) := by
  simp [unpackBundle, h]
theorem unpackBundle_of_kind_finite (h : v.extractLsb' 81 2 = 0b00#2) :
    unpackBundle v = some (.finite (v.getLsbD 80) (v.extractLsb' 0 54).toNat (v.extractLsb' 64 16).toInt) := by
  simp [unpackBundle, h]

end Kinds

/-- The bundle of a well-formed value stands for that value (R39, R52, R53). -/
theorem unpackBundle_packBundle {x : LogicalValue} (hx : x.isWellFormed = true) :
    unpackBundle (packBundle x) = some x := by
  cases x with
  | nan s =>
    have hpack : packBundle (.nan s) = 0#45 ++ 0b10#2 ++ BitVec.ofBool s ++ 0#16 ++ 0#10 ++ 0#54 := rfl
    obtain ⟨-, -, hsign, hkind, -, -⟩ := bundle_fields 0b10#2 s 0#16 0#54
    rw [hpack, unpackBundle_of_kind_nan hkind, hsign]
  | inf s =>
    have hpack : packBundle (.inf s) = 0#45 ++ 0b01#2 ++ BitVec.ofBool s ++ 0#16 ++ 0#10 ++ 0#54 := rfl
    obtain ⟨-, -, hsign, hkind, -, -⟩ := bundle_fields 0b01#2 s 0#16 0#54
    rw [hpack, unpackBundle_of_kind_inf hkind, hsign]
  | finite s c e =>
    have hpack : packBundle (.finite s c e) =
        0#45 ++ 0b00#2 ++ BitVec.ofBool s ++ BitVec.ofInt 16 e ++ 0#10 ++ BitVec.ofNat 54 c := rfl
    obtain ⟨he, hc⟩ := bundle_fits hx
    obtain ⟨-, -, hsign, hkind, hexp, hcoeff⟩ := bundle_fields 0b00#2 s (.ofInt 16 e) (.ofNat 54 c)
    rw [hpack, unpackBundle_of_kind_finite hkind, hsign, hexp, hcoeff, he, hc]

/-- A wide word is its two halves (R38, R41). -/
theorem bundleOperand_halves (v : Wide) : bundleOperand (wideHi v) (wideLo v) = v := by
  apply BitVec.eq_of_toNat_eq
  have hv := v.isLt
  rw [bundleOperand, toNat_concat, wideHi, wideLo, BitVec.extractLsb'_toNat, BitVec.extractLsb'_toNat,
    Nat.shiftRight_eq_div_pow, Nat.shiftRight_zero]
  omega

/-- ENC of the bundle of a well-formed value answers with that value (R52, R53). -/
theorem exec_enc_packBundle {x : LogicalValue} (hx : x.isWellFormed = true) (s : State) :
    ∃ t, exec (.enc (wideHi (packBundle x)) (wideLo (packBundle x))) s = .next t ∧ AnsweredValue s t x := by
  have hunpack : unpackBundle (bundleOperand (wideHi (packBundle x)) (wideLo (packBundle x))) = some x := by
    rw [bundleOperand_halves, unpackBundle_packBundle hx]
  refine exec_enc_of_unpackBundle s ?_ hunpack
  rw [bundleWellFormed_eq_any, hunpack]
  exact hx

/-- Settles O26: DEC packs a well-formed value, and ENC writes its canonical pattern, by the first law of R54. -/
theorem encOfDecIsCanonical : Obligations.EncOfDecIsCanonical := by
  intro p b s s'
  have hwf := codecDecode_wellFormed p
  obtain ⟨t', hexec, q, henc, hans⟩ := exec_enc_packBundle hwf s'
  obtain ⟨q', henc', hdec, hcanon⟩ := decodeInvertsEncode _ hwf
  obtain rfl : q' = q := Except.ok.inj (henc'.symm.trans henc)
  exact ⟨_, _, exec_dec b p s, complete_ok_answered .., t', q', hexec, hans, hdec, hcanon⟩

end Sys2Proof.Machine

/-! The fatal conditions (R132 to R136): an ill-formed bundle, an illegal op code, and an internal call that poisons its
caller and the younger transactions. -/

namespace Sys2Proof.Machine

/-- A bundle of kind 11, or a Finite one with a field out of range, is ill-formed (R39, R133). -/
theorem bundleWellFormed_eq_false {b a : Word}
    (h : b.extractLsb' 17 2 = 0b11#2 ∨ (b.extractLsb' 17 2 = 0b00#2 ∧ (9999999999999999 < (a.extractLsb' 0 54).toNat ∨
      (b.extractLsb' 0 16).toInt < -398 ∨ 369 < (b.extractLsb' 0 16).toInt))) : bundleWellFormed b a = false := by
  obtain ⟨hkind, -, hexp, hcoeff⟩ := bundleOperand_fields b a
  rw [bundleWellFormed_eq_any]
  rcases h with h | ⟨h, hrange⟩
  · rw [unpackBundle_of_kind_reserved (hkind.trans h)]; rfl
  · rw [unpackBundle_of_kind_finite (hkind.trans h), hexp, hcoeff, Option.any_some, ← Bool.not_eq_true,
      isWellFormed_finite_iff]
    omega

/-- Settles O25: an ill-formed bundle has no result. -/
theorem encIllFormedBundleIsFatal : Obligations.EncIllFormedBundleIsFatal := by
  intro b a s hill
  have hout : encOutcome b a = .error .codecInvariant := by
    rcases encOutcome_cases b a with ⟨hwf, -⟩ | ⟨-, h⟩
    · exact absurd (hwf.symm.trans (bundleWellFormed_eq_false hill)) (by decide)
    · exact h
  exact ⟨_, exec_enc b a s, by rw [hout]; exact complete_error_fatallyAnswered ..⟩

/-- A request whose outcome is ILLEGAL_OP is answered with code 4 (R131, R135). -/
theorem fatallyAnswered_of_illegalRequest {s : State} {i : Instr} (h : exec i s = .next (s.illegalRequest i)) :
    ∃ t, exec i s = .next t ∧ FatallyAnswered s t 4#3 :=
  ⟨_, h, complete_error_fatallyAnswered s i .illegalOp⟩

/-- Settles O32: with no internal call the six op codes have the one outcome ILLEGAL_OP. -/
theorem illegalOpCodesAreFatal : Obligations.IllegalOpCodesAreFatal := by
  intro b a s
  refine ⟨fun hc => ⟨?_, ?_, ?_, ?_⟩, fatallyAnswered_of_illegalRequest (exec_reservedE b a s),
    fatallyAnswered_of_illegalRequest (exec_reservedF b a s)⟩
  all_goals exact fatallyAnswered_of_illegalRequest (exec_requestOutcome hc _)

/-- A transaction older than the caller keeps its response (R136). -/
theorem poisonFrom_getElem?_of_lt (c : FatalCode) (tick : Nat) {first pos k : Nat} (ts : List Transaction)
    (h : pos + k < first) : (poisonFrom c tick first pos ts)[k]? = ts[k]? := by
  induction ts generalizing pos k with
  | nil => rfl
  | cons t ts ih =>
    rw [poisonFrom]
    cases k with
    | zero => rw [if_neg (by omega)]; rfl
    | succ k => exact ih (by omega)

/-- The caller and every younger transaction are poisoned (R136). -/
theorem poisonFrom_getElem?_of_le (c : FatalCode) (tick : Nat) {first pos k : Nat} (ts : List Transaction)
    (h : first ≤ pos + k) :
    (poisonFrom c tick first pos ts)[k]? = ts[k]?.map (poisonResponse c tick (pos + k)) := by
  induction ts generalizing pos k with
  | nil => rfl
  | cons t ts ih =>
    rw [poisonFrom]
    cases k with
    | zero => rw [if_pos (by omega)]; rfl
    | succ k =>
      rw [List.getElem?_cons_succ, List.getElem?_cons_succ, ih (by omega), Nat.add_right_comm, Nat.add_assoc]

/-- A presented WDIV with divisor 0 meets WDIV_ZERO (R61, R134). -/
theorem exec_wdiv_zero {s : State} {n : Nat} (b a : Word) (hcall : s.callOf .wdiv = some n)
    (hd : s.blocks.divD = 0) : exec (.wdiv b a) s = .next (s.raiseBlockFatal n .wdivZero) := by
  rcases exec_wdiv_cases b a s with ⟨_, q, r, -, hok, -⟩ | ⟨m, hm, -, he⟩ | ⟨hno, -⟩
  · rw [wideDiv, if_pos hd] at hok; cases hok
  · rwa [Option.some.inj (hcall.symm.trans hm)]
  · cases hcall.symm.trans hno

/-- A presented P10 with an index beyond the table meets LUT_INDEX (R70, R132). -/
theorem exec_p10_beyond {s : State} {n : Nat} (b a : Word) (hcall : s.callOf .p10 = some n)
    (hk : 39 ≤ s.blocks.lutK.toNat) : exec (.p10 b a) s = .next (s.raiseBlockFatal n .lutIndex) := by
  rcases exec_p10_cases b a s with ⟨_, w, -, hok, -⟩ | ⟨m, hm, -, he⟩ | ⟨hno, -⟩
  · rw [tableRead, dif_neg (by omega)] at hok; cases hok
  · rwa [Option.some.inj (hcall.symm.trans hm)]
  · cases hcall.symm.trans hno

/-- Settles O31: both causes take the fatal condition of a block, which poisons from the caller's position on. -/
theorem internalFatalPoisonsYounger : Obligations.InternalFatalPoisonsYounger := by
  intro b a s n i code hcause
  obtain ⟨c, rfl, hexec⟩ : ∃ c, fatalBits c = code ∧ exec i s = .next (s.raiseBlockFatal n c) := by
    rcases hcause with ⟨rfl, hcall, hd, rfl⟩ | ⟨rfl, hcall, hk, rfl⟩
    · exact ⟨.wdivZero, rfl, exec_wdiv_zero b a (callOf_of_call hcall) hd⟩
    · exact ⟨.lutIndex, rfl, exec_p10_beyond b a (callOf_of_call hcall) hk⟩
  refine ⟨_, hexec, rfl, rfl, rfl, rfl, rfl, rfl, rfl, rfl, rfl, rfl, rfl, (poisonFrom_spec ..).1,
    fun k hold => poisonFrom_getElem?_of_lt _ _ _ (by omega),
    fun k u hyoung hu => ⟨Config.poisonedResult s.tick (0 + k), ?_⟩⟩
  rw [State.raiseBlockFatal_inFlight, poisonFrom_getElem?_of_le _ _ _ (by omega), hu]
  rfl

end Sys2Proof.Machine

/-! Runs of CORE (R136, R139, R145, R147): the halted machine, the reset edge, the held response, and the host that
offers legal requests only. -/

namespace Sys2Proof.Machine

/-- What every step keeps, every run keeps. -/
theorem run_keeps {P : State → Prop} (hstep : ∀ s, P s → ∃ t, step s = .next t ∧ P t) (n : Nat) :
    ∀ s, P s → ∃ t, Host.Core.run core n s = .next t ∧ P t := by
  induction n with
  | zero => exact fun s hs => ⟨s, rfl, hs⟩
  | succ n ih =>
    intro s hs
    obtain ⟨t, ht, hPt⟩ := hstep s hs
    obtain ⟨u, hu, hPu⟩ := ih t hPt
    exact ⟨u, (run_succ (M := core) ht n).trans hu, hPu⟩

theorem reqReady_of_halt {s : State} (hh : s.halt = true) : s.reqReady = false := by simp [State.reqReady, hh]
theorem reqReady_of_rst {s : State} (hr : s.rst = true) : s.reqReady = false := by simp [State.reqReady, hr]
theorem rspValid_of_rst {s : State} (hr : s.rst = true) : s.rspValid = false := by simp [State.rspValid, hr]

/-- Outside reset the pins `halted` and `fcode` are the latches (R16). -/
theorem haltedPin_of_not_rst {s : State} (hr : s.rst = false) : s.haltedPin = s.halt := by simp [State.haltedPin, hr]
theorem fcodePin_of_not_rst {s : State} (hr : s.rst = false) : s.fcodePin = s.fcode := by simp [State.fcodePin, hr]

/-- A halted machine executes and accepts nothing: its edges are handshakes alone (R16, R139). -/
theorem step_halted {s : State} (hh : s.halt = true) (hr : s.rst = false) : step s = .next s.edge := by
  rcases step_cases s with ⟨hrst, -⟩ | ⟨-, hrun, -⟩ | ⟨-, hready, -⟩ | ⟨-, hs⟩
  · exact absurd (hr.symm.trans hrst) (by decide)
  · exact absurd (hh.symm.trans hrun) (by decide)
  · exact absurd (hready.symm.trans (reqReady_of_halt hh)) (by decide)
  · exact hs

/-- Settles O42: nothing is accepted or offered under reset, and the edge clears what R145 names. -/
theorem resetEdgeClears : Obligations.ResetEdgeClears := fun s hr =>
  ⟨reqReady_of_rst hr, rspValid_of_rst hr, s.resetEdge, step_rst hr, rfl, rfl, rfl, rfl, rfl, rfl, rfl, rfl⟩

/-- Settles O43: an edge of the handshake alone keeps HALT, FCODE and the sequence of responses. -/
theorem haltHoldsUntilReset : Obligations.HaltHoldsUntilReset := by
  intro s hh hr
  have hpin : s.haltedPin = true := (haltedPin_of_not_rst hr).trans hh
  exact ⟨reqReady_of_halt hh, hpin, fcodePin_of_not_rst hr, s.edge, step_halted hh hr, hh, rfl,
    reqReady_of_halt (s := s.edge) hh, hpin, fcodePin_of_not_rst (s := s.edge) hr, rfl, rfl, hr, edge_keeps_responses s⟩

/-- `t` is a halted machine with nothing in flight, and with the code, the record and the requests of `s`. -/
def SilentSince (s t : State) : Prop :=
  t.halt = true ∧ t.rst = false ∧ t.inFlight = [] ∧ t.fcode = s.fcode ∧ t.delivered = s.delivered ∧
  t.requests = s.requests

/-- With nothing in flight there is nothing to offer or to deliver (R17). -/
theorem rspValid_of_inFlight_nil {s : State} (h : s.inFlight = []) : s.rspValid = false := by simp [State.rspValid, h]

/-- A silent machine stays silent: its handshake has nothing to deliver (R136). -/
theorem step_silentSince {s t : State} (ht : SilentSince s t) : ∃ u, step t = .next u ∧ SilentSince s u := by
  obtain ⟨hh, hr, hnil, hcode, hdel, hreq⟩ := ht
  have hno := rspValid_of_inFlight_nil hnil
  refine ⟨_, step_halted hh hr, hh, hr, ?_, hcode, ?_, hreq⟩
  · simp [State.inFlightAfter, hnil]
  · simp [State.deliveredAfter, hno, hdel]

/-- Settles O44: silence is kept by every edge without reset. -/
theorem haltedMachineStaysSilent : Obligations.HaltedMachineStaysSilent := by
  intro n s hh hr hnil
  obtain ⟨t, hrun, hhalt, -, hempty, hcode, hdel, hreq⟩ :=
    run_keeps (P := SilentSince s) (fun _ => step_silentSince) n s ⟨hh, hr, hnil, rfl, rfl, rfl⟩
  exact ⟨t, hrun, hhalt, hcode, rspValid_of_inFlight_nil hempty, hdel, hreq⟩

/-- `rsp_valid` is 1 exactly when the oldest transaction has waited its latency, outside reset (R17, R19). -/
theorem rspValid_iff (s : State) :
    s.rspValid = true ↔ s.rst = false ∧ ∃ x rest, s.inFlight = x :: rest ∧ x.wait = 0 := by
  rw [State.rspValid, Bool.and_eq_true, Bool.not_eq_true']
  cases s.inFlight with
  | nil => simp
  | cons x rest => simp

/-- While a response is offered the pins show its three fields (R16, R42). -/
theorem response_pins {s : State} {x : Transaction} {rest : List Transaction} (hv : s.rspValid = true)
    (hin : s.inFlight = x :: rest) :
    s.rspR = x.response.r ∧ s.rspFatal = x.response.fatal ∧ s.rspFcode = x.response.fcode := by
  have hoff : s.offered = some x.response := by rw [State.offered, if_pos hv, hin]; rfl
  simp [State.rspR, State.rspFatal, State.rspFcode, hoff]

/-- Settles O46: the oldest transaction stays the oldest, with its response, and has no latency left to wait. -/
theorem offeredResponseIsHeld : Obligations.OfferedResponseIsHeld := by
  intro s hv hready hc
  obtain ⟨hr, x, rest, hin, hwait⟩ := (rspValid_iff s).1 hv
  obtain ⟨t, new, hs, hrst, -, -, hdel, hflight, -⟩ := step_ports hr hc
  have hin' : t.inFlight = x.countDown :: (rest.map Transaction.countDown ++ new) := by
    simp [hflight, State.inFlightAfter, hready, hin]
  have hv' : t.rspValid = true :=
    (rspValid_iff t).2 ⟨hrst.trans hr, _, _, hin', by simp [Transaction.countDown, hwait]⟩
  obtain ⟨hR, hF, hC⟩ := response_pins hv hin
  obtain ⟨hR', hF', hC'⟩ := response_pins hv' hin'
  exact ⟨t, hs, hv', hR'.trans hR.symm, hF'.trans hF.symm, hC'.trans hC.symm,
    hdel.trans (by simp [State.deliveredAfter, hready])⟩

/-- A legal request is answered normally (R43, R147 items 4 and 5). -/
theorem exec_legalRequest {s : State} {i : Instr} (hc : s.call = none) (hi : i.legalRequest = true) :
    ∃ r, exec i s = .next (s.respond i r) := by
  rcases requestOutcome_legal i s.tick with ⟨-, r, hr⟩ | ⟨hill, -⟩
  · exact ⟨r, by rw [exec_requestOutcome hc, hr, State.complete_ok]⟩
  · exact absurd (hi.symm.trans hill) (by decide)

/-- An edge of a host that offers legal requests only leaves CORE running and the host as it is (R147). -/
theorem step_hostSafe {s : State} (hs : s.HostSafe) : ∃ t, step s = .next t ∧ t.HostSafe := by
  obtain ⟨hh, hc, hlegal⟩ := hs
  rcases step_cases s with ⟨-, h⟩ | ⟨-, -, c, hcall, -⟩ | ⟨-, -, w, rest, hq, h⟩ | ⟨-, h⟩
  · exact ⟨_, h, rfl, rfl, hlegal⟩
  · exact absurd (hc.symm.trans hcall) (by simp)
  · obtain ⟨r, hr⟩ := exec_legalRequest (s := s.acceptEdge) hc (hlegal w (by simp [hq]))
    exact ⟨_, h.trans hr, hh, hc, fun v hv => hlegal v (List.mem_of_mem_tail hv)⟩
  · exact ⟨_, h, hh, hc, hlegal⟩

/-- Settles O48: every edge, under reset or not, keeps the invariant. -/
theorem hostSafeRunsNeverHalt : Obligations.HostSafeRunsNeverHalt :=
  fun n s hs => run_keeps (fun _ => step_hostSafe) n s hs

end Sys2Proof.Machine
